-- ==== Sys2Proof/Word.lean ====
section
/-! DEFINITION. The word types of the M-Bus Frame Parse Engine (spec/00_scope.md R7). -/

namespace Sys2Proof

/-- One byte of a frame or of the register window (R7). -/
abbrev Byte := BitVec 8

/-- A 16-bit offset or length register field (R6, "offset width"). -/
abbrev Half := BitVec 16

/-- One host bus word (R71). -/
abbrev Word := BitVec 32

end Sys2Proof
end

