-- ==== Sys2Proof/Config.lean ====
section
/-! DEFINITION. What an implementation fixes (spec/00_scope.md R6), and the free values of
spec/93_implementation_defined.md: constants with no body, of which nothing can be proved. -/

namespace Sys2Proof.Config

/-- `CHAIN_MAX`: the most DIFE bytes after a DIF, and the most VIFE bytes after a VIF (R6, C5). -/
def chainMax : Nat := 10

/-- `CONTROL_L`: the L that makes a long-format frame a ControlFrame (R6, R184). -/
def controlL : Byte := 0x03#8

/-- `MAX_LEN`: bytes of the input buffer (R6). The state carries it, so that other sizes in the
range of R6 can be reasoned about; this is its value at reset. -/
def maxLen : Nat := 512

/-- `MAX_RECORDS`: entries of the record memory (R6), as for `maxLen`. -/
def maxRecords : Nat := 128

/-- `MFPE_BASE` in 32-bit words: where the platform puts the window (R70, D49). The spec gives no value;
0 by DESIGN CHOICE (log 11). The state carries it, as for `maxLen`. -/
def baseWord : Nat := 0

/-- The byte of `IN` at a window offset that no host write has set since the given reset
(R34, U3: any value). -/
opaque unwrittenIn : (inEpoch offset : Nat) → Byte

/-- The byte of the record memory at a window offset that belongs to no valid entry
(R48, R346, U4, U7: any value). -/
opaque staleRecord : (recEpoch offset : Nat) → Byte

/-- Numbered draws of any value, each of several words: host reads while BUSY (R344, U5) and the
results of a parse whose inputs were written (R343, U6). -/
opaque anyWord : (draw field : Nat) → Word

end Sys2Proof.Config
end

