-- ==== Sys2Proof/Syntax.lean ====
section
/-! DEFINITION. The dispatch codes of the MFPE: one constructor of `Instr` for each row of
spec/opcode_table.json, in the table's order, and the decoding contexts that tell rows with the
same bits apart (spec/30_encoding.md). -/

namespace Sys2Proof

/-- The decode hint of a VIF table entry (spec/10_state.md R38, spec/45_record_header.md R247). -/
inductive Hint
  | normal
  | date
  | dateTime
  | plainText
  | ext
  | any
  | mfr
deriving DecidableEq, Repr

/-- One entry of the ROM `VIF_TABLE` (R38): unit code, decimal exponent (8-bit two's complement)
and decode hint. -/
structure VifEntry where
  unit : Byte
  exp : Byte
  hint : Hint
deriving DecidableEq, Repr

/-- The fields of a DIF byte beside its data field (spec/30_encoding.md R104). -/
structure DifBits where
  /-- bit 7: a DIFE byte follows -/
  e : Bool
  /-- bit 6: storage number bit 0 -/
  s0 : Bool
  /-- bits 5:4: function field -/
  fn : BitVec 2
deriving DecidableEq, Repr

/-- What the engine is about to dispatch on. The rows of the opcode table share bit patterns; the
"format" column of a row is its context (log 2). -/
inductive Context
  /-- the first byte (and second, for disambiguation) of the buffer (R180) -/
  | frameStart
  /-- the first byte of a record, whole-byte specials; `mfrTail` is CFG.MFR_TAIL (R110, R222) -/
  | difHead (mfrTail : Bool)
  /-- a byte after a DIF or DIFE with bit 7 set (R105) -/
  | dife
  /-- the VIF byte, looked up in the given `VIF_TABLE` (R106, R245) -/
  | vif (rom : List VifEntry)
  /-- a byte after a VIF or VIFE with bit 7 set (R107) -/
  | vife
  /-- UNPACK's dispatch on the record's DIF, under the VIF's hint (R260) -/
  | value (hint : Hint)
  /-- the LVAR byte (R108, R266) -/
  | lvar
  /-- a host write of the CTRL word (R150) -/
  | ctrl
deriving DecidableEq, Repr

/-- One constructor per row of spec/opcode_table.json. -/
inductive Instr
  -- frame-start
  | empty
  | ack
  | short
  | control
  | long (l : Byte)
  | unknownStart (b : Byte)
  -- DIF (whole byte)
  | filler
  | mfrBlock
  | mfrBlock0F
  | endOfUserData
  | specialOther (d : DifBits)
  -- DIF data fields (and the VIF hint)
  | nodata (d : DifBits)
  | int8 (d : DifBits)
  | int16 (d : DifBits)
  | date (d : DifBits)
  | int24 (d : DifBits)
  | int32 (d : DifBits)
  | datetime (d : DifBits)
  | real32 (d : DifBits)
  | int48 (d : DifBits)
  | int64 (d : DifBits)
  | selection (d : DifBits)
  | bcd2 (d : DifBits)
  | bcd4 (d : DifBits)
  | bcd6 (d : DifBits)
  | bcd8 (d : DifBits)
  | lvar (d : DifBits)
  | bcd12 (d : DifBits)
  -- header chain bytes
  | dife (e : Bool) (u : Bool) (t : BitVec 2) (sn : BitVec 4)
  | vif (e : Bool) (code : BitVec 7)
  | vifPlaintext (e : Bool) (code : BitVec 7)
  | vife (e : Bool) (raw : BitVec 7)
  -- LVAR
  | lvarTextLow (n : BitVec 7)
  | lvarTextHigh (n : BitVec 6)
  | lvarBcd (n : BitVec 4)
  | lvarUnsupportedD (n : BitVec 4)
  | lvarUnsupportedE (n : BitVec 5)
  -- host write CTRL; the 31 other bits of the word are ignored (R39)
  | start (ignored : BitVec 31)
deriving DecidableEq, Repr

end Sys2Proof
end

