-- ==== Sys2Proof/Machine/VifTable.lean ====
section
/-! DEFINITION. The ROM `VIF_TABLE`: look-up (spec/45_record_header.md R247) and the default
contents (R248). -/

namespace Sys2Proof.Machine

/-- The entry of VIF 0x6F, reserved: unit 0x00, exponent 0 (R248, U14). -/
def VifEntry.reserved : VifEntry := ⟨0x00, 0x00, .normal⟩

/-- `VIF_TABLE[vif[6:0]]` (R247). The table has 128 entries, so the default is never used. -/
def vifLookup (rom : List VifEntry) (code : BitVec 7) : VifEntry :=
  rom.getD code.toNat VifEntry.reserved

/-- `n` entries of one unit whose exponents rise by one from `exp0`: the rows of R248 whose EXP is
"nnn" or "nn" plus a constant. -/
def vifRamp (unit : Byte) (exp0 : Int) : Nat → List VifEntry
  | 0 => []
  | n + 1 => ⟨unit, BitVec.ofInt 8 exp0, .normal⟩ :: vifRamp unit (exp0 + 1) n

/-- `n` entries with exponent 0 whose unit codes rise by one from `unit`: the seconds, minutes,
hours, days rows and the single-unit rows of R248. -/
def vifUnits (unit : Byte) : Nat → List VifEntry
  | 0 => []
  | n + 1 => ⟨unit, 0x00, .normal⟩ :: vifUnits (unit + 1) n

/-- The default `VIF_TABLE` (R248), entry by entry from VIF[6:0] = 0x00 to 0x7F. Every entry but
0x13 is the EN 13757-3 table the spec supplies from general knowledge (G9). -/
def defaultVifTable : List VifEntry :=
  -- 0x00 energy Wh; 0x08 energy J; 0x10 volume; 0x18 mass
  vifRamp 0x01 (-3) 8 ++ vifRamp 0x02 0 8 ++ vifRamp 0x03 (-6) 8 ++ vifRamp 0x04 (-3) 8
  -- 0x20 on time; 0x24 operating time
  ++ vifUnits 0x05 4 ++ vifUnits 0x09 4
  -- 0x28 power W; 0x30 power J/h; 0x38, 0x40, 0x48 volume flow; 0x50 mass flow
  ++ vifRamp 0x0D (-3) 8 ++ vifRamp 0x0E 0 8 ++ vifRamp 0x0F (-6) 8 ++ vifRamp 0x10 (-7) 8
  ++ vifRamp 0x11 (-9) 8 ++ vifRamp 0x12 (-3) 8
  -- 0x58, 0x5C, 0x60, 0x64 temperatures; 0x68 pressure
  ++ vifRamp 0x13 (-3) 4 ++ vifRamp 0x14 (-3) 4 ++ vifRamp 0x15 (-3) 4 ++ vifRamp 0x16 (-3) 4
  ++ vifRamp 0x17 (-3) 4
  -- 0x6C date; 0x6D date and time; 0x6E heat cost allocator units; 0x6F reserved
  ++ [⟨0x18, 0x00, .date⟩, ⟨0x19, 0x00, .dateTime⟩, ⟨0x1A, 0x00, .normal⟩, VifEntry.reserved]
  -- 0x70 averaging duration; 0x74 actuality duration
  ++ vifUnits 0x1B 4 ++ vifUnits 0x1F 4
  -- 0x78 fabrication number; 0x79 enhanced identification; 0x7A bus address
  ++ vifUnits 0x23 3
  -- 0x7B extension FB; 0x7C plain text; 0x7D extension FD; 0x7E any VIF; 0x7F manufacturer
  ++ [⟨0x26, 0x00, .ext⟩, ⟨0x27, 0x00, .plainText⟩, ⟨0x28, 0x00, .ext⟩, ⟨0x29, 0x00, .any⟩,
      ⟨0x2A, 0x00, .mfr⟩]

end Sys2Proof.Machine
end

