-- ==== Sys2Proof/WellFormed.lean ====
section
/-! DEFINITION. Which dispatch codes can stand in which context: the restrictions that the opcode
table's notes put on the rows ("takes precedence", "hint", "MFR_TAIL"). -/

namespace Sys2Proof

/-- The context is a record head. -/
def Context.isDifHead : Context → Bool
  | .difHead _ => true
  | .frameStart | .dife | .vif _ | .vife | .value _ | .lvar | .ctrl => false

/-- The context is UNPACK's dispatch with a hint that the predicate accepts. -/
def Context.isValue (ok : Hint → Bool) : Context → Bool
  | .value h => ok h
  | .frameStart | .difHead _ | .dife | .vif _ | .vife | .lvar | .ctrl => false

/-- The context is the VIF byte, and the table's hint for `code` is one that the predicate accepts. -/
def Context.isVif (code : BitVec 7) (ok : Hint → Bool) : Context → Bool
  | .vif rom => ok (Machine.vifLookup rom code).hint
  | .frameStart | .difHead _ | .dife | .vife | .value _ | .lvar | .ctrl => false

/-- `i` can be dispatched in context `c`, with operand values that its row admits. -/
def Instr.wellFormed (c : Context) : Instr → Bool
  | .empty | .ack | .short | .control => c == .frameStart
  | .long l => c == .frameStart && l != Config.controlL
  | .unknownStart b => c == .frameStart && b != 0xE5#8 && b != 0x10#8 && b != 0x68#8
  | .filler | .mfrBlock => c.isDifHead
  | .mfrBlock0F => c == .difHead false
  | .endOfUserData => c == .difHead true
  | .specialOther d => c.isDifHead && (d.e || d.s0 || d.fn == 3#2)
  | .nodata _ | .int8 _ | .int24 _ | .real32 _ | .int48 _ | .int64 _ | .selection _
  | .bcd2 _ | .bcd4 _ | .bcd6 _ | .bcd8 _ | .lvar _ | .bcd12 _ => c.isValue fun _ => true
  | .int16 _ => c.isValue (· != .date)
  | .date _ => c.isValue (· == .date)
  | .int32 _ => c.isValue (· != .dateTime)
  | .datetime _ => c.isValue (· == .dateTime)
  | .dife _ _ _ _ => c == .dife
  | .vif _ code => c.isVif code (· != .plainText)
  | .vifPlaintext _ code => c.isVif code (· == .plainText)
  | .vife _ _ => c == .vife
  | .lvarTextLow _ | .lvarTextHigh _ | .lvarBcd _ | .lvarUnsupportedD _ | .lvarUnsupportedE _ =>
    c == .lvar
  | .start _ => c == .ctrl

end Sys2Proof
end

