-- ==== Sys2Proof/Decode.lean ====
section
/-! DEFINITION. The decoder, total on any bytes in any context, rejecting by name; the encoder; and
the reading of one opcode-table word (spec/30_encoding.md, spec/opcode_table.json). -/

namespace Sys2Proof

/-- Why the decoder reads no dispatch code. -/
inductive DecodeError
  /-- the context needs a byte and none is left -/
  | noByte
  /-- first byte 0x68 and no second byte to tell LONG from CONTROL (R184) -/
  | needSecondByte
  /-- the record head holds an ordinary DIF: not a special, so its header chains come first (R222) -/
  | recordDif
  /-- UNPACK is never reached with data field 0xF (R260) -/
  | dataFieldF
  /-- a CTRL word with bit 0 = 0 is no command (R39) -/
  | noStart
deriving DecidableEq, Repr

/-- E, S0 and FN of a DIF byte (R104, R240). -/
def difBits (b : Byte) : DifBits := ⟨b.getLsbD 7, b.getLsbD 6, b.extractLsb' 4 2⟩

/-- DF, the data field of a DIF byte (R104, R240). -/
def dataField (b : Byte) : BitVec 4 := b.extractLsb' 0 4

/-- The DIF byte with the given fields (R104). -/
def difByte (d : DifBits) (df : BitVec 4) : Byte :=
  BitVec.ofBool d.e ++ BitVec.ofBool d.s0 ++ d.fn ++ df

/-- The DIFE byte with the given fields (R105). -/
def difeByte (e u : Bool) (t : BitVec 2) (sn : BitVec 4) : Byte :=
  BitVec.ofBool e ++ BitVec.ofBool u ++ t ++ sn

/-- A byte of a continuation bit and seven more: VIF (R106) and VIFE (R107). -/
def chainByte (e : Bool) (rest : BitVec 7) : Byte := BitVec.ofBool e ++ rest

/-- Frame starts: the first byte, and the second when the first is 0x68 (R180 to R185). -/
def decodeFrameStart : List Byte → Except DecodeError (Instr × List Byte)
  | [] => .ok (.empty, [])
  | b0 :: rest =>
    if b0 = 0xE5#8 then .ok (.ack, rest)
    else if b0 = 0x10#8 then .ok (.short, rest)
    else if b0 = 0x68#8 then
      match rest with
      | [] => .error .needSecondByte
      | b1 :: rest => .ok (if b1 = Config.controlL then .control else .long b1, rest)
    else .ok (.unknownStart b0, rest)

/-- The special DIFs at a record head; 0x0F by CFG.MFR_TAIL (R110, R212 to R215). -/
def decodeDifHead (mfrTail : Bool) (b : Byte) : Except DecodeError Instr :=
  if b = 0x2F#8 then .ok .filler
  else if b = 0x1F#8 then .ok .mfrBlock
  else if b = 0x0F#8 then .ok (if mfrTail then .endOfUserData else .mfrBlock0F)
  else if dataField b = 0xF#4 then .ok (.specialOther (difBits b))
  else .error .recordDif

/-- UNPACK's case split on the data field and the hint (R260). -/
def decodeValue (hint : Hint) (b : Byte) : Except DecodeError Instr :=
  let d := difBits b
  match (dataField b).toNat with
  | 0x0 => .ok (.nodata d)
  | 0x1 => .ok (.int8 d)
  | 0x2 => .ok (if hint = .date then .date d else .int16 d)
  | 0x3 => .ok (.int24 d)
  | 0x4 => .ok (if hint = .dateTime then .datetime d else .int32 d)
  | 0x5 => .ok (.real32 d)
  | 0x6 => .ok (.int48 d)
  | 0x7 => .ok (.int64 d)
  | 0x8 => .ok (.selection d)
  | 0x9 => .ok (.bcd2 d)
  | 0xA => .ok (.bcd4 d)
  | 0xB => .ok (.bcd6 d)
  | 0xC => .ok (.bcd8 d)
  | 0xD => .ok (.lvar d)
  | 0xE => .ok (.bcd12 d)
  | _ => .error .dataFieldF

/-- The VIF byte, PLAINTEXT entries first (R245, R247). -/
def decodeVif (rom : List VifEntry) (b : Byte) : Instr :=
  let code : BitVec 7 := b.setWidth 7
  if (Machine.vifLookup rom code).hint = .plainText then .vifPlaintext (b.getLsbD 7) code
  else .vif (b.getLsbD 7) code

/-- The LVAR byte by its range: 0x00-0x7F, 0x80-0xBF, 0xC0-0xCF, 0xD0-0xDF, 0xE0-0xFF (R108, R266). -/
def decodeLvar (b : Byte) : Instr :=
  if b.getLsbD 7 = false then .lvarTextLow (b.setWidth 7)
  else if b.getLsbD 6 = false then .lvarTextHigh (b.setWidth 6)
  else if b.getLsbD 5 = true then .lvarUnsupportedE (b.setWidth 5)
  else if b.getLsbD 4 = true then .lvarUnsupportedD (b.setWidth 4)
  else .lvarBcd (b.setWidth 4)

/-- A CTRL word, bytes in bus lane order (R71): START when bit 0 is set (R150). -/
def decodeCtrl : List Byte → Except DecodeError (Instr × List Byte)
  | b0 :: b1 :: b2 :: b3 :: rest =>
    let w : Word := b3 ++ b2 ++ b1 ++ b0
    if w.getLsbD 0 then .ok (.start (w.extractLsb' 1 31), rest) else .error .noStart
  | _ => .error .noByte

/-- The decoder: the dispatch code at the head of the bytes in a context, and the bytes after it. -/
def decode (c : Context) (bytes : List Byte) : Except DecodeError (Instr × List Byte) :=
  match c, bytes with
  | .frameStart, bs => decodeFrameStart bs
  | .ctrl, bs => decodeCtrl bs
  | .difHead _, [] | .dife, [] | .vif _, [] | .vife, [] | .value _, [] | .lvar, [] => .error .noByte
  | .difHead tail, b :: rest => (decodeDifHead tail b).map (·, rest)
  | .dife, b :: rest =>
    .ok (.dife (b.getLsbD 7) (b.getLsbD 6) (b.extractLsb' 4 2) (b.extractLsb' 0 4), rest)
  | .vif rom, b :: rest => .ok (decodeVif rom b, rest)
  | .vife, b :: rest => .ok (.vife (b.getLsbD 7) (b.setWidth 7), rest)
  | .value hint, b :: rest => (decodeValue hint b).map (·, rest)
  | .lvar, b :: rest => .ok (decodeLvar b, rest)

/-- The bytes of a dispatch code, from the same tables (R101 to R110, R150). -/
def encode : Instr → List Byte
  | .empty => []
  | .ack => [0xE5#8]
  | .short => [0x10#8]
  | .control => [0x68#8, 0x03#8]
  | .long l => [0x68#8, l]
  | .unknownStart b => [b]
  | .filler => [0x2F#8]
  | .mfrBlock => [0x1F#8]
  | .mfrBlock0F => [0x0F#8]
  | .endOfUserData => [0x0F#8]
  | .specialOther d => [difByte d 0xF#4]
  | .nodata d => [difByte d 0x0#4]
  | .int8 d => [difByte d 0x1#4]
  | .int16 d => [difByte d 0x2#4]
  | .date d => [difByte d 0x2#4]
  | .int24 d => [difByte d 0x3#4]
  | .int32 d => [difByte d 0x4#4]
  | .datetime d => [difByte d 0x4#4]
  | .real32 d => [difByte d 0x5#4]
  | .int48 d => [difByte d 0x6#4]
  | .int64 d => [difByte d 0x7#4]
  | .selection d => [difByte d 0x8#4]
  | .bcd2 d => [difByte d 0x9#4]
  | .bcd4 d => [difByte d 0xA#4]
  | .bcd6 d => [difByte d 0xB#4]
  | .bcd8 d => [difByte d 0xC#4]
  | .lvar d => [difByte d 0xD#4]
  | .bcd12 d => [difByte d 0xE#4]
  | .dife e u t sn => [difeByte e u t sn]
  | .vif e code => [chainByte e code]
  | .vifPlaintext e code => [chainByte e code]
  | .vife e raw => [chainByte e raw]
  | .lvarTextLow n => [0b0#1 ++ n]
  | .lvarTextHigh n => [0b10#2 ++ n]
  | .lvarBcd n => [0xC#4 ++ n]
  | .lvarUnsupportedD n => [0xD#4 ++ n]
  | .lvarUnsupportedE n => [0b111#3 ++ n]
  | .start ignored =>
    let w : Word := ignored ++ 1#1
    [w.extractLsb' 0 8, w.extractLsb' 8 8, w.extractLsb' 16 8, w.extractLsb' 24 8]

/-- The context in which a bare opcode-table word is read. The table's rows share bit patterns and a
word carries no context, so this is the model's choice (DESIGN CHOICE, log 12): no bits, EMPTY; two
bytes, a frame start; four bytes, a CTRL write; one byte, a frame start for 0xE5, 0x10 and 0x68, a
record head for data field 0xF, a VIF for the PLAINTEXT entry, an LVAR byte for any other byte with
bit 7 set, else UNPACK's dispatch with a plain hint. -/
def tableContext (nbits w : Nat) : Context :=
  let b : Byte := BitVec.ofNat 8 w
  if nbits = 0 then .frameStart
  else if 16 < nbits then .ctrl
  else if 8 < nbits then .frameStart
  else if b = 0xE5#8 ∨ b = 0x10#8 ∨ b = 0x68#8 then .frameStart
  else if dataField b = 0xF#4 then .difHead false
  else if b = 0x7C#8 ∨ b = 0xFC#8 then .vif Machine.defaultVifTable
  else if b.getLsbD 7 then .lvar
  else .value .normal

/-- The first `n` bytes of a little-endian number. -/
def bytesOfNat : (n w : Nat) → List Byte
  | 0, _ => []
  | n + 1, w => BitVec.ofNat 8 w :: bytesOfNat n (w / 256)

/-- The bytes of an opcode-table word: the bits the table gives, then zeros up to the four bytes of
the longest dispatch code. EMPTY, a row of no bits, has no bytes. -/
def tableBytes (nbits w : Nat) : List Byte :=
  if nbits = 0 then [] else bytesOfNat 4 (w % 2 ^ nbits)

/-- What the decoder reads from an opcode-table word. -/
def decodeTableWord (nbits w : Nat) : Option Instr :=
  match decode (tableContext nbits w) (tableBytes nbits w) with
  | .ok (i, _) => some i
  | .error _ => none

end Sys2Proof
end

