-- ==== Sys2Proof/Machine/State.lean ====
section
/-! DEFINITION. The state of the MFPE as plain data (spec/10_state.md), the reasons a step can stop,
and the state after reset (R52). -/

namespace Sys2Proof.Machine

/-- The outcomes of a parse (spec/60_exceptions.md R301). -/
inductive Code
  | ok
  | unknownFrameStart
  | badDelimiter
  | lengthFieldMismatch
  | incompleteFrame
  | checksumMismatch
  | malformedDIFChain
  | truncatedRecord
  | trailingData
  | unsupported
  | recordLimit
  | lengthConfig
deriving DecidableEq, Repr

/-- The kinds of a record's value (R48, field KIND). -/
inductive ValueKind
  | noData
  | integer
  | bcd
  | real
  | text
  | lvarBcd
  | date
  | dateTime
  | selection
  | manufacturer
deriving DecidableEq, Repr

/-- The CFG register without its reserved bits (R36). -/
structure Cfg where
  intSigned : BitVec 4
  mfrTail : Bool
deriving DecidableEq, Repr

/-- What R6 and R70 make a parameter of the model: never written by anything. -/
structure Params where
  /-- `MAX_LEN`, which the PARAMS register shows (R47) -/
  maxLen : Nat
  /-- `MAX_RECORDS`, which the PARAMS register shows (R47) -/
  maxRecords : Nat
  /-- the ROM `VIF_TABLE` (R38) -/
  vifTable : List VifEntry
  /-- `MFPE_BASE` in 32-bit words, as the bus counts addresses (R70, R71, D49; log 11) -/
  baseWord : Nat
deriving DecidableEq, Repr

/-- The fields of STATUS (but BUSY and DONE), ERR_OFFSET, FRAME, FIELDS, CHECK, PAYLOAD and REC_COUNT
(R40 to R46). CODE and KIND are kept as bits: after an input write hazard they hold any bits (R343). -/
structure Results where
  recsValid : Bool
  code : BitVec 4
  errOffset : Half
  kind : BitVec 3
  frameL : Byte
  frameLen : Half
  c : Byte
  a : Byte
  ci : Byte
  csRx : Byte
  csCalc : Byte
  payloadOff : Half
  payloadLen : Half
  recCount : Half
deriving DecidableEq, Repr

/-- Every result field 0: after reset (R52) and after an accepted START (R152). -/
def Results.zero : Results := ⟨false, 0, 0, 0, 0, 0, 0, 0, 0, 0, 0, 0, 0, 0⟩

/-- One data record, the fields of a record memory entry (R48). DIFE_CNT and VIFE_CNT are the lengths
of the two lists. -/
structure Record where
  dif : Byte
  vif : Byte
  kind : ValueKind
  dife : List Byte
  vife : List Byte
  bcdBad : Bool
  valWide : Bool
  signed : Bool
  recOff : Half
  valueOff : Half
  valueLen : Half
  unit : Byte
  exp : Byte
  storage : BitVec 41
  subunit : BitVec 10
  tariff : BitVec 20
  lvar : Byte
  value : BitVec 64
deriving DecidableEq, Repr

/-- The inputs latched at START (spec/20_memory.md R79, spec/40_operation.md R150): the bytes of IN
and HDR_TABLE with the free-value epoch of IN, LEN and CFG. -/
structure Latch where
  mem : List Host.Cell
  inEpoch : Nat
  len : Half
  cfg : Cfg
deriving DecidableEq, Repr

/-- How far PARSE has come (R151, R222). -/
inductive Phase
  /-- before the classifier -/
  | frameStart
  /-- at the loop head of the record walk -/
  | loopHead
  /-- a DIFE byte is due -/
  | dife
  /-- the VIF byte is due -/
  | vif
  /-- a VIFE byte is due -/
  | vife
  /-- the header is complete; UNPACK dispatches -/
  | value
  /-- the LVAR byte is due -/
  | lvar
  /-- PARSE has ended; its results are not yet published -/
  | stopped
deriving DecidableEq, Repr

/-- The engine's working registers (R49), the latched inputs, and the results that `complete` will
publish. Nothing here is visible to the host. -/
structure Engine where
  phase : Phase
  latch : Latch
  /-- a host write to an input has landed during this parse (R343): its results are any value -/
  tainted : Bool
  /-- the cursor (R32, R170) -/
  pos : Nat
  /-- one past the last byte the stage may read: LEN, then the payload end (R170) -/
  lim : Nat
  /-- offset of the current record's DIF -/
  rs : Nat
  /-- checksum accumulator -/
  acc : Byte
  dif : Byte
  vif : Byte
  lvar : Byte
  /-- the DIFE bytes so far; `n_dife` is the length -/
  dife : List Byte
  /-- the VIFE bytes so far; `n_vife` is the length -/
  vife : List Byte
  /-- the records emitted so far, in payload order (R216); `count` is the length -/
  recs : List Record
  /-- the result fields so far -/
  res : Results
deriving DecidableEq, Repr

/-- One access on the host's bus (R71) or the reset input (R340). `addr` is the platform's address of a
32-bit word: the byte address without bits 1:0, which the bus does not carry, so no access is
misaligned. -/
inductive HostOp
  | read (addr : Nat)
  | write (addr : Nat) (data : Word) (be : BitVec 4)
  | reset
deriving DecidableEq, Repr

/-- One entry of the schedule: the outside acts, or the engine gets a turn. -/
inductive Turn
  | host (op : HostOp)
  | engine
deriving DecidableEq, Repr

/-- The state of the machine. -/
structure State where
  /-- the parameters of R6 and R70 -/
  params : Params
  /-- CFG (R36) -/
  cfg : Cfg
  /-- LEN (R35) -/
  len : Half
  /-- STATUS.BUSY (R40) -/
  busy : Bool
  /-- STATUS.DONE (R40) -/
  done : Bool
  /-- the other result registers (R40 to R46) -/
  res : Results
  /-- HDR_TABLE, IN and the record memory by window offset (R34, R37, R48, R70) -/
  mem : List Host.Cell
  /-- hidden working registers (R49) -/
  eng : Engine
  /-- the mark HAZARD (R51) -/
  hazard : Bool
  /-- the model's: the word the bus answered to the latest host read -/
  rdata : Word
  /-- the model's: resets so far; selects the free values of IN -/
  inEpoch : Nat
  /-- the model's: times the record memory became unspecified; selects its free values -/
  recEpoch : Nat
  /-- the model's: free values drawn so far -/
  draws : Nat
  /-- the model's: what happens next, oldest first -/
  turns : List Turn
deriving DecidableEq, Repr

/-- Reasons the machine stops. The spec has none: "`fault` and `stuck` are never used"
(spec/93_implementation_defined.md). -/
inductive Fault
  /-- Raised by `step` alone, when the engine's registers name no dispatch code: the value stage with
  a DIF of data field 0xF, which "never reaches UNPACK" (R260). No run reaches such a state (log 14). Safe. -/
  | noDispatch
deriving DecidableEq, Repr

/-- Reasons the model gives an instruction no meaning. -/
inductive Refusal
  /-- Raised by `exec` for an instruction without a meaning yet; no arm raises it. Safe. -/
  | notModelled (mnemonic : String)
deriving DecidableEq, Repr

/-- CFG after reset: every integer signed, DIF 0x0F a manufacturer marker (R36, R52). -/
def Cfg.reset : Cfg := ⟨0xF, false⟩

/-- The parameter values of R6 and R248, and the base of log 11. -/
def Params.default : Params := ⟨Config.maxLen, Config.maxRecords, defaultVifTable, Config.baseWord⟩

/-- The working registers after reset: unspecified and unobservable (R52); zero by DESIGN CHOICE
(log 7). -/
def Engine.reset : Engine :=
  { phase := .frameStart, latch := ⟨[], 0, 0, Cfg.reset⟩, tainted := false, pos := 0, lim := 0, rs := 0
    acc := 0, dif := 0, vif := 0, lvar := 0, dife := [], vife := [], recs := [], res := Results.zero }

/-- The machine right after reset (R52, R340). -/
def State.reset : State :=
  { params := Params.default, cfg := Cfg.reset, len := 0, busy := false, done := false
    res := Results.zero, mem := [], eng := Engine.reset, hazard := false, rdata := 0
    inEpoch := 0, recEpoch := 0, draws := 0, turns := [] }

end Sys2Proof.Machine
end

