-- ==== Sys2Proof/Machine/Flags.lean ====
section
/-! DEFINITION. Outcome codes, their classes, and the flags and codes that results carry
(spec/60_exceptions.md, spec/10_state.md R33, R40, R42, R48). -/

namespace Sys2Proof.Machine

/-- The number of an outcome in STATUS.CODE (R301). -/
def Code.num : Code → BitVec 4
  | .ok => 0
  | .unknownFrameStart => 1
  | .badDelimiter => 2
  | .lengthFieldMismatch => 3
  | .incompleteFrame => 4
  | .checksumMismatch => 5
  | .malformedDIFChain => 6
  | .truncatedRecord => 7
  | .trailingData => 8
  | .unsupported => 9
  | .recordLimit => 10
  | .lengthConfig => 11

/-- The frame-level failures (R154, R301). -/
def Code.frameLevel : Code → Bool
  | .unknownFrameStart | .badDelimiter | .lengthFieldMismatch | .incompleteFrame
  | .checksumMismatch | .lengthConfig => true
  | .ok | .malformedDIFChain | .truncatedRecord | .trailingData | .unsupported
  | .recordLimit => false

/-- STATUS.RECS_VALID: the outcomes whose records are valid output (R40, R151, C8). -/
def Code.keepsRecords : Code → Bool
  | .ok | .truncatedRecord | .trailingData | .unsupported | .recordLimit => true
  | .unknownFrameStart | .badDelimiter | .lengthFieldMismatch | .incompleteFrame
  | .checksumMismatch | .malformedDIFChain | .lengthConfig => false

/-- FRAME.KIND of an Ack (R42). -/
def kindAck : BitVec 3 := 1
/-- FRAME.KIND of a ShortFrame (R42). -/
def kindShort : BitVec 3 := 2
/-- FRAME.KIND of a LongFrame (R42). -/
def kindLong : BitVec 3 := 3
/-- FRAME.KIND of a ControlFrame (R42). -/
def kindControl : BitVec 3 := 4

/-- The number of a value kind in a record's KIND field (R48). -/
def ValueKind.num : ValueKind → BitVec 4
  | .noData => 0
  | .integer => 1
  | .bcd => 2
  | .real => 3
  | .text => 4
  | .lvarBcd => 5
  | .date => 6
  | .dateTime => 7
  | .selection => 8
  | .manufacturer => 9

/-- The record flag SIGNED of an integer whose function field is `fn`: bit `fn` of CFG.INT_SIGNED
(R36, R262). -/
def Cfg.signed (cfg : Cfg) (fn : BitVec 2) : Bool := cfg.intSigned.getLsbD fn.toNat

/-- The record flag BCD_BAD: some digit nibble is above 9 (R274). -/
def bcdBad (digits : List Nat) : Bool := digits.any (9 < ·)

/-- The record flag VAL_WIDE: more than nine bytes of LVAR BCD (R268). -/
def lvarWide (n : Nat) : Bool := 9 < n

end Sys2Proof.Machine
end

