-- ==== Sys2Proof/Machine/Operands.lean ====
section
/-! DEFINITION. Operand assembly, every form of it (spec/30_encoding.md R113): values from bytes,
descriptors from DIF and DIFE bytes, checksums. -/

namespace Sys2Proof.Machine

/-- The little-endian number of some bytes (R75, R260 `raw`). -/
def leNat : List Byte → Nat
  | [] => 0
  | b :: bs => b.toNat + 256 * leNat bs

/-- `sext_64(raw, 8n)` (R7, R262). -/
def sext64 (n raw : Nat) : BitVec 64 := (BitVec.ofNat (8 * n) raw).signExtend 64

/-- What UNPACK computes from the value bytes: VALUE and the flags (R260). -/
structure Decoded where
  value : BitVec 64
  bcdBad : Bool
  valWide : Bool
  signed : Bool
deriving DecidableEq, Repr

/-- A value with no flag set. -/
def Decoded.plain (value : BitVec 64) : Decoded := ⟨value, false, false, false⟩

/-- Integer (R262): sign-extended when `signed`, else zero-extended. -/
def decodeInteger (signed : Bool) (bs : List Byte) : Decoded :=
  { Decoded.plain (if signed then sext64 bs.length (leNat bs) else BitVec.ofNat 64 (leNat bs)) with
    signed := signed }

/-- Real, Date, DateTime: the raw word, zero-extended (R263, R270, R271). Also NoData and Selection,
which have no bytes and so value 0 (R261, R265). -/
def decodeRaw (bs : List Byte) : Decoded := Decoded.plain (BitVec.ofNat 64 (leNat bs))

/-- Text: VALUE is 0, the bytes stay in IN (R267). -/
def decodeText (_ : List Byte) : Decoded := Decoded.plain 0

/-- The digits of BCD bytes, lowest first: low nibble, then high nibble (R274). -/
def bcdDigits : List Byte → List Nat
  | [] => []
  | b :: bs => (b.extractLsb' 0 4).toNat :: (b.extractLsb' 4 4).toNat :: bcdDigits bs

/-- `Σ d[k] · 10^k` (R274). -/
def decimal : List Nat → Nat
  | [] => 0
  | d :: ds => d + 10 * decimal ds

/-- BCD_DECODE (R264, R274). -/
def decodeBcd (bs : List Byte) : Decoded :=
  let bad := bcdBad (bcdDigits bs)
  { Decoded.plain (if bad then 0 else BitVec.ofNat 64 (decimal (bcdDigits bs))) with bcdBad := bad }

/-- LvarBCD: BCD_DECODE, then VAL_WIDE and VALUE 0 beyond nine bytes (R268). -/
def decodeLvarBcd (bs : List Byte) : Decoded :=
  if lvarWide bs.length then { decodeBcd bs with valWide := true, value := 0 } else decodeBcd bs

/-- The storage number's DIFE part, `Σ dife[j][3:0] << 4j` (R242). -/
def difeStorage : List Byte → Nat
  | [] => 0
  | b :: bs => (b.extractLsb' 0 4).toNat + 16 * difeStorage bs

/-- STORAGE: DIF bit 6, then the DIFE bits from bit 1 up (R242). -/
def storageNumber (s0 : Bool) (dife : List Byte) : BitVec 41 :=
  BitVec.ofNat 41 (s0.toNat + 2 * difeStorage dife)

/-- `Σ dife[j][5:4] << 2j` (R243). -/
def difeTariff : List Byte → Nat
  | [] => 0
  | b :: bs => (b.extractLsb' 4 2).toNat + 4 * difeTariff bs

/-- TARIFF (R243). -/
def tariffNumber (dife : List Byte) : BitVec 20 := BitVec.ofNat 20 (difeTariff dife)

/-- `Σ dife[j][6] << j` (R244). -/
def difeSubunit : List Byte → Nat
  | [] => 0
  | b :: bs => (b.extractLsb' 6 1).toNat + 2 * difeSubunit bs

/-- SUBUNIT (R244). -/
def subunitNumber (dife : List Byte) : BitVec 10 := BitVec.ofNat 10 (difeSubunit dife)

/-- The checksum accumulator after summing some bytes: the 8-bit wrap-around sum (R191, R196). -/
def checksum : List Byte → Byte
  | [] => 0
  | b :: bs => b + checksum bs

/-- A list of extension bytes in its ten-byte field: zero beyond the count (R48). -/
def chainField (bs : List Byte) : List Byte := (bs ++ List.replicate 10 0).take 10

/-- The four bytes of a little-endian word (R71). -/
def wordBytes (w : Word) : List Byte :=
  [w.extractLsb' 0 8, w.extractLsb' 8 8, w.extractLsb' 16 8, w.extractLsb' 24 8]

/-- The 64 bytes of a record memory entry (R48). -/
def Record.bytes (r : Record) : List Byte :=
  wordBytes (0#1 ++ BitVec.ofBool r.signed ++ BitVec.ofBool r.valWide ++ BitVec.ofBool r.bcdBad
    ++ BitVec.ofNat 4 r.vife.length ++ BitVec.ofNat 4 r.dife.length ++ r.kind.num ++ r.vif ++ r.dif)
  ++ wordBytes (r.valueOff ++ r.recOff)
  ++ wordBytes (r.exp ++ r.unit ++ r.valueLen)
  ++ wordBytes (r.storage.extractLsb' 0 32)
  ++ wordBytes (0#6 ++ r.subunit ++ 0#7 ++ r.storage.extractLsb' 32 9)
  ++ wordBytes (r.lvar ++ 0#4 ++ r.tariff)
  ++ wordBytes (r.value.extractLsb' 0 32)
  ++ wordBytes (r.value.extractLsb' 32 32)
  ++ chainField r.dife ++ [0, 0]
  ++ chainField r.vife ++ List.replicate 10 0

end Sys2Proof.Machine
end

