-- ==== Sys2Proof/Machine/Ops.lean ====
section
/-! DEFINITION. The named operations: memory, the register window, the cursor, ending a parse
(`stop`), emitting a record, and the parse transaction (START, `complete`, reset). -/

namespace Sys2Proof.Machine

/-! ### The window's memory (spec/20_memory.md R70) -/

/-- Offset of HDR_TABLE[0]. -/
def hdrBase : Nat := 0x100
/-- Offset of IN[0]. -/
def inBase : Nat := 0x1000
/-- Offset of REC[0]. -/
def recBase : Nat := 0x2000

/-- Offsets of HDR_TABLE (R37). -/
def isHdr (a : Nat) : Bool := hdrBase ≤ a && a < hdrBase + 256
/-- Offsets of IN (R34). -/
def isIn (p : Params) (a : Nat) : Bool := inBase ≤ a && a < inBase + p.maxLen
/-- Offsets of the record memory (R48). -/
def isRec (p : Params) (a : Nat) : Bool := recBase ≤ a && a < recBase + 64 * p.maxRecords
/-- Offsets of the parse inputs: CFG, LEN, HDR_TABLE and IN (R79, R343). -/
def isInput (p : Params) (a : Nat) : Bool := (4 ≤ a && a < 12) || isHdr a || isIn p a

/-- Words of the window: 16 KiB of byte offsets (R70). -/
def windowWords : Nat := 4096

/-- The word of the window that a bus address selects: the block decodes the window alone, relative to
its base (R70, D49); `none` is an access to something else on the bus. -/
def Params.wordIndex? (p : Params) (addr : Nat) : Option (BitVec 12) :=
  if p.baseWord ≤ addr ∧ addr < p.baseWord + windowWords then
    some (BitVec.ofNat 12 (addr - p.baseWord))
  else none

/-- What an unlisted byte holds: 0 in HDR_TABLE, its reset value (R37); no known value elsewhere
(R34, R48). -/
def Memory.unlisted (a : Nat) : Option Byte := if isHdr a then some 0 else none

/-- The listed byte at an offset. -/
def Memory.find? : List Host.Cell → Nat → Option Byte
  | [], _ => none
  | (k, b) :: m, a => if k = a then some b else Memory.find? m a

/-- The known byte at an offset. -/
def Memory.read (m : List Host.Cell) (a : Nat) : Option Byte :=
  match Memory.find? m a with
  | some b => some b
  | none => Memory.unlisted a

/-- The list without an entry for an offset. -/
def Memory.erase : List Host.Cell → Nat → List Host.Cell
  | [], _ => []
  | (k, b) :: m, a => if k = a then m else (k, b) :: Memory.erase m a

/-- The list with an entry for an offset, at its place by rising offset. -/
def Memory.insert : List Host.Cell → Nat → Byte → List Host.Cell
  | [], a, v => [(a, v)]
  | (k, b) :: m, a, v =>
    if a < k then (a, v) :: (k, b) :: m
    else if a = k then (a, v) :: m
    else (k, b) :: Memory.insert m a v

/-- Write one byte, keeping the canonical form: writing what an unlisted byte holds unlists it. -/
def Memory.write (m : List Host.Cell) (a : Nat) (v : Byte) : List Host.Cell :=
  if Memory.unlisted a = some v then Memory.erase m a else Memory.insert m a v

/-- The canonical form: offsets strictly rising, and no entry equal to what an unlisted byte holds. -/
abbrev Memory.Wf (m : List Host.Cell) : Prop :=
  m.Pairwise (fun c d => c.1 < d.1) ∧ ∀ c ∈ m, Memory.unlisted c.1 ≠ some c.2

/-- The memory below the record memory: HDR_TABLE and IN. -/
def Memory.ram (m : List Host.Cell) : List Host.Cell := m.filter (fun c => c.1 < recBase)

/-- Consecutive bytes from an offset. -/
def cellsFrom : Nat → List Byte → List Host.Cell
  | _, [] => []
  | a, b :: bs => (a, b) :: cellsFrom (a + 1) bs

/-- The record memory holding the given entries from REC[0] (R48, R216). -/
def recCells (recs : List Record) : List Host.Cell := cellsFrom recBase (recs.flatMap Record.bytes)

/-! ### The register window as the host sees it (R70 to R72) -/

/-- CFG as a word (R36). -/
def Cfg.word (c : Cfg) : Word := 0#27 ++ BitVec.ofBool c.mfrTail ++ c.intSigned

/-- STATUS as a word (R40). -/
def State.status (s : State) : Word :=
  0#20 ++ s.res.code ++ 0#5 ++ BitVec.ofBool s.res.recsValid ++ BitVec.ofBool s.done
    ++ BitVec.ofBool s.busy

/-- The registers at 0x000 to 0x0FC by word index; reserved ones read 0 (R70, R39 to R47). -/
def State.regWord (s : State) : Nat → Word
  | 0 => 0
  | 1 => s.cfg.word
  | 2 => 0#16 ++ s.len
  | 3 => s.status
  | 4 => 0#16 ++ s.res.errOffset
  | 5 => s.res.frameLen ++ s.res.frameL ++ 0#5 ++ s.res.kind
  | 6 => s.res.csRx ++ s.res.ci ++ s.res.a ++ s.res.c
  | 7 => 0#24 ++ s.res.csCalc
  | 8 => s.res.payloadLen ++ s.res.payloadOff
  | 9 => 0#16 ++ s.res.recCount
  | 10 => BitVec.ofNat 16 s.params.maxRecords ++ BitVec.ofNat 16 s.params.maxLen
  | _ => 0

/-- The byte at a window offset from 0x100 up: HDR_TABLE, IN, the record memory, or 0 at a reserved
offset. A byte with no known value reads as a free value (R34, R48). -/
def State.memByte (s : State) (a : Nat) : Byte :=
  if isHdr a then (Memory.read s.mem a).getD 0
  else if isIn s.params a then (Memory.read s.mem a).getD (Config.unwrittenIn s.inEpoch a)
  else if isRec s.params a then (Memory.read s.mem a).getD (Config.staleRecord s.recEpoch a)
  else 0

/-- A word of results, whose value while BUSY is any value (R344). -/
def State.isResultWord (s : State) (idx : Nat) : Bool :=
  (4 ≤ idx && idx ≤ 9) || isRec s.params (4 * idx)

/-- The word a host read answers (R70, R71, R344). -/
def State.readWord (s : State) (idx : Nat) : Word :=
  if s.busy && s.isResultWord idx then Config.anyWord s.draws 0
  else if idx < 0x40 then s.regWord idx
  else s.memByte (4 * idx + 3) ++ s.memByte (4 * idx + 2) ++ s.memByte (4 * idx + 1)
    ++ s.memByte (4 * idx)

/-- A host read: the word goes to the host, nothing of the block changes (R72). -/
def State.hostRead (s : State) (idx : Nat) : State :=
  { s with
    rdata := s.readWord idx
    draws := if s.busy && s.isResultWord idx then s.draws + 1 else s.draws }

/-- One enabled byte lane of a host write; read-only, reserved and record offsets ignore it (R72). -/
def State.writeByte (s : State) (a : Nat) (b : Byte) : State :=
  if a = 4 then { s with cfg := ⟨b.extractLsb' 0 4, b.getLsbD 4⟩ }
  else if a = 8 then { s with len := s.len.extractLsb' 8 8 ++ b }
  else if a = 9 then { s with len := b ++ s.len.extractLsb' 0 8 }
  else if isHdr a || isIn s.params a then { s with mem := Memory.write s.mem a b }
  else s

/-- Lane `k` of a host write at offset `off` (R71). -/
def State.writeLane (s : State) (off : Nat) (data : Word) (be : BitVec 4) (k : Nat) : State :=
  if be.getLsbD k then s.writeByte (off + k) (data.extractLsb' (8 * k) 8) else s

/-- Some enabled lane lies on a parse input (R343). -/
def touchesInput (p : Params) (off : Nat) (be : BitVec 4) : Bool :=
  (List.range 4).any fun k => be.getLsbD k && isInput p (off + k)

/-- The mark of an input write while BUSY: HAZARD is set, and the running parse's results become any
value (R51, R343). -/
def State.markHazard (s : State) : State :=
  { s with hazard := true, eng := { s.eng with tainted := true } }

/-- A host write other than to CTRL: the enabled lanes, and the hazard (R71, R343). -/
def State.hostWrite (s : State) (idx : Nat) (data : Word) (be : BitVec 4) : State :=
  let off := 4 * idx
  let t := (((s.writeLane off data be 0).writeLane off data be 1).writeLane off data be 2).writeLane
    off data be 3
  if s.busy && touchesInput s.params off be then t.markHazard else t

/-! ### The latched inputs and the cursor (spec/41_cursor.md) -/

/-- IN[i] as latched (R79); a byte the host never wrote is a free value (R34). -/
def Latch.byte (l : Latch) (i : Nat) : Byte :=
  (Memory.read l.mem (inBase + i)).getD (Config.unwrittenIn l.inEpoch (inBase + i))

/-- HDR_TABLE[ci] as latched (R37). -/
def Latch.hdr (l : Latch) (ci : Byte) : Nat :=
  ((Memory.read l.mem (hdrBase + ci.toNat)).getD 0).toNat

/-- IN[off .. off+n-1] as latched. -/
def Latch.slice (l : Latch) : (off n : Nat) → List Byte
  | _, 0 => []
  | off, n + 1 => l.byte off :: l.slice (off + 1) n

/-- `remaining()` (R171). -/
def Engine.remaining (e : Engine) : Nat := e.lim - e.pos

/-- `peek(k)`; `none` is OutOfBounds (R172). -/
def Engine.peek? (e : Engine) (k : Nat) : Option Byte :=
  if e.lim ≤ e.pos + k then none else some (e.latch.byte (e.pos + k))

/-- `take(n)`; `none` is OutOfBounds, with nothing consumed (R173). -/
def Engine.take? (e : Engine) (n : Nat) : Option (List Byte × Engine) :=
  if e.remaining < n then none else some (e.latch.slice e.pos n, { e with pos := e.pos + n })

/-! ### Ending a parse: what the block has in place of taking an exception (R151, R306) -/

/-- The result fields at `stop(code, off)`: R151 with the frame-level clearing of R154 and REC_COUNT
by R217 and R219. -/
def stopResults (code : Code) (off count : Nat) (r : Results) : Results :=
  if code.frameLevel then
    { Results.zero with code := code.num, errOffset := BitVec.ofNat 16 off, kind := r.kind }
  else
    { r with
      code := code.num
      errOffset := BitVec.ofNat 16 off
      recsValid := code.keepsRecords
      recCount := if code.keepsRecords then BitVec.ofNat 16 count else 0 }

/-- `stop(code, off)`: PARSE ends; nothing after it runs (R151, R302). -/
def Engine.stop (e : Engine) (code : Code) (off : Nat) : Engine :=
  { e with
    phase := .stopped
    res := stopResults code off e.recs.length e.res
    recs := if code.keepsRecords then e.recs else [] }

/-- `emit(rec)`, then go on with `next`; RecordLimit when the record memory is full (R217). -/
def Engine.emit (p : Params) (r : Record) (next : Engine → Engine) (e : Engine) : Engine :=
  if e.recs.length = p.maxRecords then e.stop .recordLimit r.recOff.toNat
  else next { e with recs := e.recs ++ [r] }

/-! ### The parse transaction (spec/40_operation.md) -/

/-- The working registers when PARSE starts: inputs latched, cursor at 0, limit LEN, results cleared
(R150, R152, R170; log 17). -/
def State.beginEngine (s : State) : Engine :=
  { Engine.reset with
    latch := ⟨Memory.ram s.mem, s.inEpoch, s.len, s.cfg⟩
    lim := s.len.toNat }

/-- An accepted START (R150, R152): BUSY set, results cleared, record entries unspecified. -/
def State.accept (s : State) : State :=
  { s with
    busy := true
    done := false
    res := Results.zero
    mem := Memory.ram s.mem
    recEpoch := s.recEpoch + 1
    eng := s.beginEngine }

/-- Results that are any value in every field (R343). -/
def anyResults (draw : Nat) : Results :=
  { recsValid := (Config.anyWord draw 0).getLsbD 0
    code := (Config.anyWord draw 1).setWidth 4
    errOffset := (Config.anyWord draw 2).setWidth 16
    kind := (Config.anyWord draw 3).setWidth 3
    frameL := (Config.anyWord draw 4).setWidth 8
    frameLen := (Config.anyWord draw 5).setWidth 16
    c := (Config.anyWord draw 6).setWidth 8
    a := (Config.anyWord draw 7).setWidth 8
    ci := (Config.anyWord draw 8).setWidth 8
    csRx := (Config.anyWord draw 9).setWidth 8
    csCalc := (Config.anyWord draw 10).setWidth 8
    payloadOff := (Config.anyWord draw 11).setWidth 16
    payloadLen := (Config.anyWord draw 12).setWidth 16
    recCount := (Config.anyWord draw 13).setWidth 16 }

/-- Publish results and records, BUSY to 0, DONE to 1, all at once (R153, R78). -/
def State.publish (s : State) (res : Results) (recs : List Record) : State :=
  { s with
    busy := false
    done := true
    res := res
    mem := Memory.ram s.mem ++ recCells recs
    recEpoch := s.recEpoch + 1 }

/-- `complete` (R153, R306): publish what PARSE found, or any value after an input write (R343). -/
def State.complete (s : State) : State :=
  if s.eng.tainted then { s.publish (anyResults s.draws) [] with draws := s.draws + 1 }
  else s.publish s.eng.res s.eng.recs

/-- Reset (R340, R341): every register at its reset value, IN and the record memory unspecified anew.
The schedule and the word on the bus are outside the block (log 3, log 8, log 16). -/
def State.resetAll (s : State) : State :=
  { State.reset with
    params := s.params
    inEpoch := s.inEpoch + 1
    recEpoch := s.recEpoch + 1
    draws := s.draws
    turns := s.turns
    rdata := s.rdata }

/-- Apply an engine operation: only the hidden working registers change. -/
def State.onEngine (s : State) (f : Engine → Engine) : State := { s with eng := f s.eng }

end Sys2Proof.Machine
end

