-- ==== Sys2Proof/Machine/Command.lean ====
section
/-! DEFINITION. The host command START (spec/40_operation.md R150). -/

namespace Sys2Proof.Machine

/-- START: ignored while BUSY (R150, R345); else the parse is accepted. The other bits of the CTRL
word have no effect (R39). -/
def execStart (_ : BitVec 31) (s : State) : Host.Outcome State Fault Refusal :=
  .next (if s.busy then s else s.accept)

end Sys2Proof.Machine
end

