-- ==== Sys2Proof/Machine/FrameStart.lean ====
section
/-! DEFINITION. The frame starts: classifier (spec/42_classifier.md) and frame validator
(spec/43_validator.md), up to the header skip of the record walk (spec/44_record_walk.md R210). -/

namespace Sys2Proof.Machine

/-- FRAME.KIND, the classifier's answer (R151). -/
def Engine.setKind (e : Engine) (kind : BitVec 3) : Engine :=
  { e with res := { e.res with kind := kind } }

/-- VALIDATE_SHORT and the stop after it (R190, R191, R151). -/
def Engine.validateShort (e : Engine) : Engine :=
  if e.latch.len.toNat < 5 then e.stop .incompleteFrame e.latch.len.toNat
  else
    let c := e.latch.byte 1
    let a := e.latch.byte 2
    let cs := e.latch.byte 3
    let e := { e with acc := c + a }
    if cs ≠ e.acc then e.stop .checksumMismatch 3
    else if e.latch.byte 4 ≠ 0x16#8 then e.stop .badDelimiter 4
    else
      { e with
        res := { e.res with c := c, a := a, ci := 0, csRx := cs, csCalc := e.acc, frameLen := 5 }
      }.stop .ok 0

/-- Header skip: the walk's limit, and the cursor past the fixed data header (R210). -/
def Engine.startWalk (e : Engine) (l : Byte) : Engine :=
  let e := { e with lim := l.toNat + 4 }
  let skip := e.latch.hdr e.res.ci
  if e.lim - 7 < skip then e.stop .truncatedRecord 7
  else { e with phase := .loopHead, pos := 7 + skip }

/-- The fields of a valid long frame (R198). -/
def Engine.captureLong (e : Engine) (l : Byte) : Engine :=
  { e with
    res := { e.res with
      c := e.latch.byte 4
      a := e.latch.byte 5
      ci := e.latch.byte 6
      csRx := e.latch.byte (l.toNat + 4)
      csCalc := e.acc
      frameL := l
      frameLen := BitVec.ofNat 16 (l.toNat + 6)
      payloadOff := 7
      payloadLen := BitVec.ofNat 16 (l.toNat - 3) } }

/-- VALIDATE_LONG for L = IN[1] = `l` (R192 to R199), then the walk's header skip. -/
def Engine.validateLong (e : Engine) (l : Byte) : Engine :=
  let len := e.latch.len.toNat
  if len < 3 then e.stop .incompleteFrame len
  else if l ≠ e.latch.byte 2 then e.stop .lengthFieldMismatch 2
  else if l.toNat < 3 then e.stop .lengthFieldMismatch 1
  else if len < l.toNat + 6 then e.stop .incompleteFrame len
  else if e.latch.byte 3 ≠ 0x68#8 then e.stop .badDelimiter 3
  else
    let e := { e with acc := checksum (e.latch.slice 4 l.toNat) }
    if e.latch.byte (l.toNat + 4) ≠ e.acc then e.stop .checksumMismatch (l.toNat + 4)
    else if e.latch.byte (l.toNat + 5) ≠ 0x16#8 then e.stop .badDelimiter (l.toNat + 5)
    else (e.captureLong l).startWalk l

/-- EMPTY: LEN = 0, IncompleteFrame at 0, no kind (R181). -/
def execEmpty (s : State) : Host.Outcome State Fault Refusal :=
  .next (s.onEngine fun e => (e.setKind 0).stop .incompleteFrame 0)

/-- ACK: kind Ack, one byte, OK (R182). -/
def execAck (s : State) : Host.Outcome State Fault Refusal :=
  .next (s.onEngine fun e =>
    { e with res := { e.res with kind := kindAck, frameLen := 1 } }.stop .ok 0)

/-- SHORT (R183, R190). -/
def execShort (s : State) : Host.Outcome State Fault Refusal :=
  .next (s.onEngine fun e => (e.setKind kindShort).validateShort)

/-- CONTROL: L = CONTROL_L (R184, R192 to R198). -/
def execControl (s : State) : Host.Outcome State Fault Refusal :=
  .next (s.onEngine fun e => (e.setKind kindControl).validateLong Config.controlL)

/-- LONG (R184, R192 to R198). -/
def execLong (l : Byte) (s : State) : Host.Outcome State Fault Refusal :=
  .next (s.onEngine fun e => (e.setKind kindLong).validateLong l)

/-- UNKNOWN_START: UnknownFrameStart at 0, no kind, whatever the byte (R185). -/
def execUnknownStart (_ : Byte) (s : State) : Host.Outcome State Fault Refusal :=
  .next (s.onEngine fun e => (e.setKind 0).stop .unknownFrameStart 0)

end Sys2Proof.Machine
end

