-- ==== Sys2Proof/Machine/HeaderChain.lean ====
section
/-! DEFINITION. The DIF and VIF extension chains (spec/45_record_header.md). Each byte has been taken:
the cursor stands after it. -/

namespace Sys2Proof.Machine

/-- The test of DIFE_CHAIN after a DIF or DIFE whose bit 7 is `more`: another DIFE, an over-long
chain, or the VIF (R241). -/
def Engine.afterDif (e : Engine) (more : Bool) : Engine :=
  if more then
    if e.dife.length = Config.chainMax then e.stop .malformedDIFChain (e.pos - 1)
    else { e with phase := .dife }
  else { e with phase := .vif }

/-- The test of VIFE_CHAIN after a VIF or VIFE whose bit 7 is `more` (R246). -/
def Engine.afterVif (e : Engine) (more : Bool) : Engine :=
  if more then
    if e.vife.length = Config.chainMax then e.stop .malformedDIFChain (e.pos - 1)
    else { e with phase := .vife }
  else { e with phase := .value }

/-- Start an ordinary record: latch the DIF, empty chains, then DIFE_CHAIN's first test (R222, R240). -/
def Engine.beginRecord (e : Engine) (dif : Byte) : Engine :=
  { e with dif := dif, dife := [], vife := [], vif := 0, lvar := 0 }.afterDif (dif.getLsbD 7)

/-- DIFE (R241). -/
def execDife (more u : Bool) (t : BitVec 2) (sn : BitVec 4) (s : State) :
    Host.Outcome State Fault Refusal :=
  .next (s.onEngine fun e =>
    { e with dife := e.dife ++ [difeByte more u t sn] }.afterDif more)

/-- VIF: the table entry is read again when the record is made (R245, R247). -/
def execVif (more : Bool) (code : BitVec 7) (s : State) : Host.Outcome State Fault Refusal :=
  .next (s.onEngine fun e => { e with vif := chainByte more code, vife := [] }.afterVif more)

/-- VIF_PLAINTEXT: Unsupported at the VIF's own offset; no VIFE is read (R245). -/
def execVifPlaintext (more : Bool) (code : BitVec 7) (s : State) :
    Host.Outcome State Fault Refusal :=
  .next (s.onEngine fun e =>
    { e with vif := chainByte more code }.stop .unsupported (e.pos - 1))

/-- VIFE: stored raw (R246, R249). -/
def execVife (more : Bool) (raw : BitVec 7) (s : State) : Host.Outcome State Fault Refusal :=
  .next (s.onEngine fun e => { e with vife := e.vife ++ [chainByte more raw] }.afterVif more)

end Sys2Proof.Machine
end

