-- ==== Sys2Proof/Machine/DataField.lean ====
section
/-! DEFINITION. The value unpacker by data field (spec/46_value_unpack.md R260 to R265, R270, R271).
The header chains are complete; the cursor stands at the first value byte. -/

namespace Sys2Proof.Machine

/-- The record of R222 from the working registers and a decoded value whose `n` bytes start at the
cursor. -/
def Engine.mkRecord (e : Engine) (p : Params) (kind : ValueKind) (n : Nat) (v : Decoded) : Record :=
  let entry := vifLookup p.vifTable (e.vif.setWidth 7)
  { dif := e.dif, vif := e.vif, kind := kind, dife := e.dife, vife := e.vife
    bcdBad := v.bcdBad, valWide := v.valWide, signed := v.signed
    recOff := BitVec.ofNat 16 e.rs, valueOff := BitVec.ofNat 16 e.pos, valueLen := BitVec.ofNat 16 n
    unit := entry.unit, exp := entry.exp
    storage := storageNumber (difBits e.dif).s0 e.dife
    subunit := subunitNumber e.dife
    tariff := tariffNumber e.dife
    lvar := e.lvar, value := v.value }

/-- UNPACK's common part: take the `n` value bytes, decode them, emit the record, back to the loop
head; TruncatedRecord at the record's DIF when they are not all there (R260, R218, R217). -/
def Engine.unpack (p : Params) (kind : ValueKind) (n : Nat) (dec : List Byte → Decoded)
    (e : Engine) : Engine :=
  match e.take? n with
  | none => e.stop .truncatedRecord e.rs
  | some (bs, e') =>
    e'.emit p (e.mkRecord p kind n (dec bs)) fun e => { e with phase := .loopHead }

/-- UNPACK of a field of fixed width, for the DIF with the given bits: no LVAR byte (R260). -/
def State.unpackField (s : State) (d : DifBits) (df : BitVec 4) (kind : ValueKind) (n : Nat)
    (dec : List Byte → Decoded) : State :=
  s.onEngine fun e =>
    Engine.unpack s.params kind n dec { e with dif := difByte d df, lvar := 0 }

/-- An integer field of `n` bytes, signed by CFG.INT_SIGNED[FN] (R262). -/
def State.unpackInteger (s : State) (d : DifBits) (df : BitVec 4) (n : Nat) : State :=
  s.unpackField d df .integer n (decodeInteger (s.eng.latch.cfg.signed d.fn))

/-- A BCD field of `n` bytes (R264). -/
def State.unpackBcd (s : State) (d : DifBits) (df : BitVec 4) (n : Nat) : State :=
  s.unpackField d df .bcd n decodeBcd

/-- A field kept as its raw bits, or of no bytes (R261, R263, R265, R270, R271). -/
def State.unpackRaw (s : State) (d : DifBits) (df : BitVec 4) (kind : ValueKind) (n : Nat) : State :=
  s.unpackField d df kind n decodeRaw

/-- NODATA (R261). -/
def execNodata (d : DifBits) (s : State) : Host.Outcome State Fault Refusal :=
  .next (s.unpackRaw d 0x0#4 .noData 0)

/-- INT8 (R262). -/
def execInt8 (d : DifBits) (s : State) : Host.Outcome State Fault Refusal :=
  .next (s.unpackInteger d 0x1#4 1)

/-- INT16: DF 2 with a hint other than DATE (R262). -/
def execInt16 (d : DifBits) (s : State) : Host.Outcome State Fault Refusal :=
  .next (s.unpackInteger d 0x2#4 2)

/-- DATE: DF 2 with hint DATE (R270). -/
def execDate (d : DifBits) (s : State) : Host.Outcome State Fault Refusal :=
  .next (s.unpackRaw d 0x2#4 .date 2)

/-- INT24 (R262). -/
def execInt24 (d : DifBits) (s : State) : Host.Outcome State Fault Refusal :=
  .next (s.unpackInteger d 0x3#4 3)

/-- INT32: DF 4 with a hint other than DATETIME (R262). -/
def execInt32 (d : DifBits) (s : State) : Host.Outcome State Fault Refusal :=
  .next (s.unpackInteger d 0x4#4 4)

/-- DATETIME: DF 4 with hint DATETIME (R271). -/
def execDatetime (d : DifBits) (s : State) : Host.Outcome State Fault Refusal :=
  .next (s.unpackRaw d 0x4#4 .dateTime 4)

/-- REAL32: the 32-bit pattern, unconverted (R263). -/
def execReal32 (d : DifBits) (s : State) : Host.Outcome State Fault Refusal :=
  .next (s.unpackRaw d 0x5#4 .real 4)

/-- INT48 (R262). -/
def execInt48 (d : DifBits) (s : State) : Host.Outcome State Fault Refusal :=
  .next (s.unpackInteger d 0x6#4 6)

/-- INT64 (R262). -/
def execInt64 (d : DifBits) (s : State) : Host.Outcome State Fault Refusal :=
  .next (s.unpackInteger d 0x7#4 8)

/-- SELECTION: no value bytes (R265). -/
def execSelection (d : DifBits) (s : State) : Host.Outcome State Fault Refusal :=
  .next (s.unpackRaw d 0x8#4 .selection 0)

/-- BCD2 (R264). -/
def execBcd2 (d : DifBits) (s : State) : Host.Outcome State Fault Refusal :=
  .next (s.unpackBcd d 0x9#4 1)

/-- BCD4 (R264). -/
def execBcd4 (d : DifBits) (s : State) : Host.Outcome State Fault Refusal :=
  .next (s.unpackBcd d 0xA#4 2)

/-- BCD6 (R264). -/
def execBcd6 (d : DifBits) (s : State) : Host.Outcome State Fault Refusal :=
  .next (s.unpackBcd d 0xB#4 3)

/-- BCD8 (R264). -/
def execBcd8 (d : DifBits) (s : State) : Host.Outcome State Fault Refusal :=
  .next (s.unpackBcd d 0xC#4 4)

/-- LVAR: the LVAR byte is due; its own dispatch code says what follows (R266). -/
def execLvar (d : DifBits) (s : State) : Host.Outcome State Fault Refusal :=
  .next (s.onEngine fun e => { e with dif := difByte d 0xD#4, phase := .lvar })

/-- BCD12 (R264). -/
def execBcd12 (d : DifBits) (s : State) : Host.Outcome State Fault Refusal :=
  .next (s.unpackBcd d 0xE#4 6)

end Sys2Proof.Machine
end

