-- ==== Sys2Proof/Machine/LvarField.lean ====
section
/-! DEFINITION. The LVAR byte's ranges (spec/46_value_unpack.md R266 to R269). The LVAR byte has been
taken: the cursor stands after it; the record's DIF is in `dif`. -/

namespace Sys2Proof.Machine

/-- LVAR text: LVAR bytes of text, located but not decoded (R267). -/
def State.unpackText (s : State) (lvar : Byte) : State :=
  s.onEngine fun e => Engine.unpack s.params .text lvar.toNat decodeText { e with lvar := lvar }

/-- LVAR BCD: LVAR − 0xC0 bytes (R268). -/
def State.unpackLvarBcd (s : State) (lvar : Byte) (n : Nat) : State :=
  s.onEngine fun e => Engine.unpack s.params .lvarBcd n decodeLvarBcd { e with lvar := lvar }

/-- LVAR at or above 0xD0: Unsupported at the LVAR byte (R269). -/
def State.lvarUnsupported (s : State) (lvar : Byte) : State :=
  s.onEngine fun e => { e with lvar := lvar }.stop .unsupported (e.pos - 1)

/-- LVAR_TEXT, LVAR 0x00 to 0x7F (R267). -/
def execLvarTextLow (n : BitVec 7) (s : State) : Host.Outcome State Fault Refusal :=
  .next (s.unpackText (0b0#1 ++ n))

/-- LVAR_TEXT, LVAR 0x80 to 0xBF (R267). -/
def execLvarTextHigh (n : BitVec 6) (s : State) : Host.Outcome State Fault Refusal :=
  .next (s.unpackText (0b10#2 ++ n))

/-- LVAR_BCD, LVAR 0xC0 to 0xCF (R268). -/
def execLvarBcd (n : BitVec 4) (s : State) : Host.Outcome State Fault Refusal :=
  .next (s.unpackLvarBcd (0xC#4 ++ n) n.toNat)

/-- LVAR_UNSUPPORTED, LVAR 0xD0 to 0xDF (R269). -/
def execLvarUnsupportedD (n : BitVec 4) (s : State) : Host.Outcome State Fault Refusal :=
  .next (s.lvarUnsupported (0xD#4 ++ n))

/-- LVAR_UNSUPPORTED, LVAR 0xE0 to 0xFF (R269). -/
def execLvarUnsupportedE (n : BitVec 5) (s : State) : Host.Outcome State Fault Refusal :=
  .next (s.lvarUnsupported (0b111#3 ++ n))

end Sys2Proof.Machine
end

