-- ==== Sys2Proof/Machine/RecordHead.lean ====
section
/-! DEFINITION. The special DIFs at a record head (spec/44_record_walk.md R212 to R215). The DIF byte
has been taken: `rs` is its offset, the cursor stands after it. -/

namespace Sys2Proof.Machine

/-- The manufacturer record: the rest of the payload, opaque, every other field 0 (R213). -/
def Engine.mfrRecord (e : Engine) (dif : Byte) : Record :=
  { dif := dif, vif := 0, kind := .manufacturer, dife := [], vife := []
    bcdBad := false, valWide := false, signed := false
    recOff := BitVec.ofNat 16 e.rs, valueOff := BitVec.ofNat 16 e.pos
    valueLen := BitVec.ofNat 16 e.remaining
    unit := 0, exp := 0, storage := 0, subunit := 0, tariff := 0, lvar := 0, value := 0 }

/-- Emit the manufacturer record and end with OK at the payload end (R213). -/
def Engine.mfrBlock (p : Params) (dif : Byte) (e : Engine) : Engine :=
  e.emit p (e.mfrRecord dif) fun e => { e with pos := e.lim }.stop .ok 0

/-- FILLER: back to the loop head (R212). -/
def execFiller (s : State) : Host.Outcome State Fault Refusal :=
  .next (s.onEngine fun e => { e with phase := .loopHead })

/-- MFR_BLOCK, DIF 0x1F (R213). -/
def execMfrBlock (s : State) : Host.Outcome State Fault Refusal :=
  .next (s.onEngine (Engine.mfrBlock s.params 0x1F#8))

/-- MFR_BLOCK_0F, DIF 0x0F with CFG.MFR_TAIL = 0 (R213, C1). -/
def execMfrBlock0F (s : State) : Host.Outcome State Fault Refusal :=
  .next (s.onEngine (Engine.mfrBlock s.params 0x0F#8))

/-- END_OF_USER_DATA, DIF 0x0F with CFG.MFR_TAIL = 1 (R214, C1). -/
def execEndOfUserData (s : State) : Host.Outcome State Fault Refusal :=
  .next (s.onEngine fun e =>
    if e.pos < e.lim then e.stop .trailingData e.pos else e.stop .ok 0)

/-- SPECIAL_OTHER: Unsupported at the DIF, whatever its other bits (R215). -/
def execSpecialOther (_ : DifBits) (s : State) : Host.Outcome State Fault Refusal :=
  .next (s.onEngine fun e => e.stop .unsupported e.rs)

end Sys2Proof.Machine
end

