-- ==== Sys2Proof/Machine/Dispatch.lean ====
section
/-! DEFINITION. One arm per dispatch code, each one call of its meaning. -/

namespace Sys2Proof.Machine

def exec (i : Instr) (s : State) : Host.Outcome State Fault Refusal :=
  match i with
  | .empty => Sys2Proof.Machine.execEmpty s
  | .ack => Sys2Proof.Machine.execAck s
  | .short => Sys2Proof.Machine.execShort s
  | .control => Sys2Proof.Machine.execControl s
  | .long l => Sys2Proof.Machine.execLong l s
  | .unknownStart b => Sys2Proof.Machine.execUnknownStart b s
  | .filler => Sys2Proof.Machine.execFiller s
  | .mfrBlock => Sys2Proof.Machine.execMfrBlock s
  | .mfrBlock0F => Sys2Proof.Machine.execMfrBlock0F s
  | .endOfUserData => Sys2Proof.Machine.execEndOfUserData s
  | .specialOther d => Sys2Proof.Machine.execSpecialOther d s
  | .nodata d => Sys2Proof.Machine.execNodata d s
  | .int8 d => Sys2Proof.Machine.execInt8 d s
  | .int16 d => Sys2Proof.Machine.execInt16 d s
  | .date d => Sys2Proof.Machine.execDate d s
  | .int24 d => Sys2Proof.Machine.execInt24 d s
  | .int32 d => Sys2Proof.Machine.execInt32 d s
  | .datetime d => Sys2Proof.Machine.execDatetime d s
  | .real32 d => Sys2Proof.Machine.execReal32 d s
  | .int48 d => Sys2Proof.Machine.execInt48 d s
  | .int64 d => Sys2Proof.Machine.execInt64 d s
  | .selection d => Sys2Proof.Machine.execSelection d s
  | .bcd2 d => Sys2Proof.Machine.execBcd2 d s
  | .bcd4 d => Sys2Proof.Machine.execBcd4 d s
  | .bcd6 d => Sys2Proof.Machine.execBcd6 d s
  | .bcd8 d => Sys2Proof.Machine.execBcd8 d s
  | .lvar d => Sys2Proof.Machine.execLvar d s
  | .bcd12 d => Sys2Proof.Machine.execBcd12 d s
  | .dife e u t sn => Sys2Proof.Machine.execDife e u t sn s
  | .vif e code => Sys2Proof.Machine.execVif e code s
  | .vifPlaintext e code => Sys2Proof.Machine.execVifPlaintext e code s
  | .vife e raw => Sys2Proof.Machine.execVife e raw s
  | .lvarTextLow n => Sys2Proof.Machine.execLvarTextLow n s
  | .lvarTextHigh n => Sys2Proof.Machine.execLvarTextHigh n s
  | .lvarBcd n => Sys2Proof.Machine.execLvarBcd n s
  | .lvarUnsupportedD n => Sys2Proof.Machine.execLvarUnsupportedD n s
  | .lvarUnsupportedE n => Sys2Proof.Machine.execLvarUnsupportedE n s
  | .start ignored => Sys2Proof.Machine.execStart ignored s

end Sys2Proof.Machine
end

