-- ==== Sys2Proof/Machine/Fetch.lean ====
section
/-! DEFINITION. How the engine comes to its next dispatch code: the bytes under the cursor, the
context of PARSE's stage, and what happens when there is no code (spec/40_operation.md R151,
spec/44_record_walk.md R222). Also the placing of one opcode-table word. -/

namespace Sys2Proof.Machine

/-- What the engine finds at its next turn. -/
inductive Fetched
  /-- bytes to decode in a context, and the state with them taken -/
  | code (c : Context) (bytes : List Byte) (s : State)
  /-- PARSE ends before a dispatch -/
  | ended (s : State)
deriving DecidableEq, Repr

/-- Take one byte of the current record for a dispatch; TruncatedRecord at the record's DIF when the
payload has ended (R218). -/
def State.fetchByte (s : State) (c : Context) : Fetched :=
  match s.eng.take? 1 with
  | some (bs, e) => .code c bs { s with eng := e }
  | none => .ended (s.onEngine fun e => e.stop .truncatedRecord e.rs)

/-- The next dispatch of a running parse that has not ended.

* Frame start: LengthConfig first (R156), else up to two bytes, the cursor not advanced (R180).
* Loop head: OK at the exact end, else a DIF is taken and its offset kept (R211).
* Chain and LVAR bytes are taken (R241, R245, R246, R266); UNPACK dispatches on the DIF already
  taken (R260). -/
def State.fetch (s : State) : Fetched :=
  let e := s.eng
  match e.phase with
  | .frameStart =>
    if s.params.maxLen < e.latch.len.toNat then .ended (s.onEngine fun e => e.stop .lengthConfig 0)
    else .code .frameStart (e.latch.slice 0 (min 2 e.latch.len.toNat)) s
  | .loopHead =>
    if e.pos = e.lim then .ended (s.onEngine fun e => e.stop .ok 0)
    else State.fetchByte (s.onEngine fun e => { e with rs := e.pos }) (.difHead e.latch.cfg.mfrTail)
  | .dife => s.fetchByte .dife
  | .vif => s.fetchByte (.vif s.params.vifTable)
  | .vife => s.fetchByte .vife
  | .lvar => s.fetchByte .lvar
  | .value => .code (.value (vifLookup s.params.vifTable (e.vif.setWidth 7)).hint) [e.dif] s
  | .stopped => .ended s

/-- What the engine does where the decoder reads no dispatch code: 0x68 without a second byte is
IncompleteFrame at 1 with no kind (R184); an ordinary DIF starts its record (R240). The rest is
reached by no run. -/
def State.noCode (s : State) (err : DecodeError) (bytes : List Byte) :
    Host.Outcome State Fault Refusal :=
  match err with
  | .needSecondByte =>
    .next (s.onEngine fun e =>
      { e with res := { e.res with kind := 0 } }.stop .incompleteFrame 1)
  | .recordDif => .next (s.onEngine fun e => e.beginRecord (bytes.headD 0))
  | .noByte | .dataFieldF | .noStart => .fault .noDispatch

/-- Sixteen latched bytes: a word's own bytes, then zeros. -/
def wordLatch (s : State) (bytes : List Byte) (len : Half) : Latch :=
  { mem := cellsFrom inBase ((bytes ++ List.replicate 16 0).take 16)
    inEpoch := s.inEpoch
    len := len
    cfg := { s.cfg with mfrTail := false } }

/-- The engine registers under which the next dispatch reads the given bytes in a context. -/
def wordEngine (s : State) (c : Context) (bytes : List Byte) : Engine :=
  let walk : Engine := { Engine.reset with latch := wordLatch s bytes 16, lim := 16 }
  match c with
  | .frameStart =>
    let len : Half := if bytes = [] then 0 else 16
    { Engine.reset with latch := wordLatch s bytes len, lim := len.toNat }
  | .difHead _ => { walk with phase := .loopHead }
  | .dife => { walk with phase := .dife }
  | .vif _ => { walk with phase := .vif }
  | .vife => { walk with phase := .vife }
  | .value _ => { walk with phase := .value, pos := 1, dif := bytes.headD 0 }
  | .lvar => { walk with phase := .lvar }
  | .ctrl => s.eng

/-- The state whose next step dispatches an opcode-table word: a CTRL write for START, else a running
parse whose latched inputs hold the word and whose stage is the word's context (log 12, log 13). -/
def State.placeWord (s : State) (nbits w : Nat) : State :=
  let c := tableContext nbits w
  let bytes := tableBytes nbits w
  match c with
  | .ctrl =>
    let access := HostOp.write s.params.baseWord (BitVec.ofNat 32 (w % 2 ^ nbits)) 0xF
    { s with turns := .host access :: s.turns }
  | .frameStart | .difHead _ | .dife | .vif _ | .vife | .value _ | .lvar =>
    { s with
      params := { s.params with maxLen := max s.params.maxLen 16, vifTable := defaultVifTable }
      busy := true
      done := false
      eng := wordEngine s c bytes
      turns := .engine :: s.turns }

end Sys2Proof.Machine
end

