-- ==== Sys2Proof/Machine/Turns.lean ====
section
/-! DEFINITION. One turn of the engine (spec/40_operation.md R153) and one access of the host
(spec/20_memory.md R71, R72). -/

namespace Sys2Proof.Machine

/-- One turn of the engine while BUSY: `complete` once PARSE has ended, else the next dispatch. -/
def State.engineStep (s : State) : Host.Outcome State Fault Refusal :=
  if s.eng.phase = .stopped then .next s.complete
  else
    match s.fetch with
    | .ended t => .next t
    | .code c bytes t =>
      match decode c bytes with
      | .ok (i, _) => exec i t
      | .error err => t.noCode err bytes

/-- A turn of the engine: nothing happens while BUSY = 0 (R153, R313). -/
def State.engineTurn (s : State) : Host.Outcome State Fault Refusal :=
  if s.busy then s.engineStep else .next s

/-- A host write of the CTRL word: START, or nothing (R39, R72). -/
def State.ctrlWrite (s : State) (data : Word) (be : BitVec 4) : Host.Outcome State Fault Refusal :=
  if be.getLsbD 0 then
    match decode .ctrl (wordBytes data) with
    | .ok (i, _) => exec i s
    | .error _ => .next s
  else .next s

/-- A host read of a word of the window (R70 to R72). -/
def State.windowRead (s : State) (idx : BitVec 12) : Host.Outcome State Fault Refusal :=
  .next (s.hostRead idx.toNat)

/-- A host write to a word of the window (R70 to R72). -/
def State.windowWrite (s : State) (idx : BitVec 12) (data : Word) (be : BitVec 4) :
    Host.Outcome State Fault Refusal :=
  if idx = 0 then s.ctrlWrite data be else .next (s.hostWrite idx.toNat data be)

/-- One access on the host's bus, or the reset input. The block does not take part in an access outside
its window (R70; log 11). -/
def State.hostTurn (s : State) (op : HostOp) : Host.Outcome State Fault Refusal :=
  match op with
  | .read addr =>
    match s.params.wordIndex? addr with
    | some idx => s.windowRead idx
    | none => .next s
  | .write addr data be =>
    match s.params.wordIndex? addr with
    | some idx => s.windowWrite idx data be
    | none => .next s
  | .reset => .next s.resetAll

end Sys2Proof.Machine
end

