-- ==== Sys2Proof/Machine/Step.lean ====
section
/-! DEFINITION. One step of the machine: the next turn of the schedule. With no turn listed the
engine runs while BUSY = 1, so an accepted START is always followed by `complete`
(spec/70_reset_and_hazards.md R349). -/

namespace Sys2Proof.Machine

/-- One step: the oldest turn of the schedule. -/
def step (s : State) : Host.Outcome State Fault Refusal :=
  match s.turns with
  | [] => s.engineTurn
  | .engine :: ts => State.engineTurn { s with turns := ts }
  | .host op :: ts => State.hostTurn { s with turns := ts } op

/-- The state whose next step fetches and runs an opcode-table word (log 12, log 13). -/
def State.withFetchWord (s : State) (nbits w : Nat) : State := s.placeWord nbits w

end Sys2Proof.Machine
end

