-- ==== Sys2Proof/Machine/Builder.lean ====
section
/-! DEFINITION. The frame builder macros (spec/30_encoding.md R116), and the reading of Date and
DateTime values a consumer may use (spec/46_value_unpack.md R273). The block computes neither. -/

namespace Sys2Proof.Machine

/-- `ACK` (R116). -/
def buildAck : List Byte := [0xE5]

/-- `SHORT(c, a)` (R116). -/
def buildShort (c a : Byte) : List Byte := [0x10, c, a, c + a, 0x16]

/-- `LONG(c, a, ci, payload)`, for at most 252 payload bytes (R116). -/
def buildLong (c a ci : Byte) (payload : List Byte) : List Byte :=
  let l : Byte := BitVec.ofNat 8 (payload.length + 3)
  [0x68, l, l, 0x68, c, a, ci] ++ payload ++ [c + a + ci + checksum payload, 0x16]

/-- `CONTROL(c, a, ci)` (R116). -/
def buildControl (c a ci : Byte) : List Byte := buildLong c a ci []

/-- Type G: day, month, year of a Date (R273, general knowledge, informative). -/
structure DateView where
  day : BitVec 5
  month : BitVec 4
  year : BitVec 7
deriving DecidableEq, Repr

/-- Type F: a DateTime's fields (R273, general knowledge, informative). -/
structure DateTimeView where
  minute : BitVec 6
  invalid : Bool
  hour : BitVec 5
  summer : Bool
  day : BitVec 5
  month : BitVec 4
  year : BitVec 7
deriving DecidableEq, Repr

/-- The type G fields of a Date record's VALUE (R273). -/
def dateView (v : BitVec 64) : DateView :=
  ⟨v.extractLsb' 0 5, v.extractLsb' 8 4, v.extractLsb' 12 4 ++ v.extractLsb' 5 3⟩

/-- The type F fields of a DateTime record's VALUE (R273). -/
def dateTimeView (v : BitVec 64) : DateTimeView :=
  { minute := v.extractLsb' 0 6
    invalid := v.getLsbD 7
    hour := v.extractLsb' 8 5
    summer := v.getLsbD 15
    day := v.extractLsb' 16 5
    month := v.extractLsb' 24 4
    year := v.extractLsb' 28 4 ++ v.extractLsb' 21 3 }

end Sys2Proof.Machine
end

