-- ==== Sys2Proof/Machine/Parse.lean ====
section
/-! DEFINITION. PARSE as one function of the latched inputs, transcribed from the pseudocode of
spec/40_operation.md R151, spec/42_classifier.md R180, spec/43_validator.md R190 to R198 and
spec/44_record_walk.md R222. `step` does not call it: it is what the engine's turns are compared
with (R153: `complete` evaluates PARSE). -/

namespace Sys2Proof.Machine

/-- What PARSE leaves: the result fields and the record entries. -/
structure ParseResult where
  res : Results
  recs : List Record
deriving DecidableEq, Repr

/-- `stop(code, off)` with the fields and records so far (R151). -/
def parseStop (code : Code) (off : Nat) (res : Results) (recs : List Record) : ParseResult :=
  ⟨stopResults code off recs.length res, if code.keepsRecords then recs else []⟩

/-- How an extension chain ends. -/
inductive ChainResult
  | done (bytes : List Byte) (pos : Nat)
  | overlong (off : Nat)
  | truncated
deriving DecidableEq, Repr

/-- DIFE_CHAIN and VIFE_CHAIN from cursor `pos` with `fuel` bytes still allowed: CHAIN_MAX at first
(R241, R246). -/
def parseChain (l : Latch) (lim : Nat) :
    (fuel : Nat) → (bytes : List Byte) → (pos : Nat) → (last : Byte) → ChainResult
  | fuel, bytes, pos, last =>
    if last.getLsbD 7 then
      match fuel with
      | 0 => .overlong (pos - 1)
      | fuel + 1 =>
        if lim ≤ pos then .truncated
        else parseChain l lim fuel (bytes ++ [l.byte pos]) (pos + 1) (l.byte pos)
    else .done bytes pos

/-- How one ordinary record ends: complete, with the offset after it, or a stop. -/
inductive RecordResult
  | complete (r : Record) (pos : Nat)
  | stop (code : Code) (off : Nat)
deriving DecidableEq, Repr

/-- The kind, width and decoding of a field of fixed width (R109, R260). -/
def parseField (cfg : Cfg) (hint : Hint) (dif : Byte) : ValueKind × Nat × (List Byte → Decoded) :=
  let int := fun n => (ValueKind.integer, n, decodeInteger (cfg.signed (difBits dif).fn))
  match (dataField dif).toNat with
  | 0x0 => (.noData, 0, decodeRaw)
  | 0x1 => int 1
  | 0x2 => if hint = .date then (.date, 2, decodeRaw) else int 2
  | 0x3 => int 3
  | 0x4 => if hint = .dateTime then (.dateTime, 4, decodeRaw) else int 4
  | 0x5 => (.real, 4, decodeRaw)
  | 0x6 => int 6
  | 0x7 => int 8
  | 0x8 => (.selection, 0, decodeRaw)
  | 0x9 => (.bcd, 1, decodeBcd)
  | 0xA => (.bcd, 2, decodeBcd)
  | 0xB => (.bcd, 3, decodeBcd)
  | 0xC => (.bcd, 4, decodeBcd)
  | _ => (.bcd, 6, decodeBcd)

/-- The value bytes at `pos` and the record they complete (R260, R222). -/
def parseValue (l : Latch) (lim rs : Nat) (dif vif : Byte) (entry : VifEntry) (dife vife : List Byte)
    (lvar : Byte) (pos : Nat) (field : ValueKind × Nat × (List Byte → Decoded)) : RecordResult :=
  let n := field.2.1
  if lim - pos < n then .stop .truncatedRecord rs
  else
    let v := field.2.2 (l.slice pos n)
    .complete
      { dif := dif, vif := vif, kind := field.1, dife := dife, vife := vife
        bcdBad := v.bcdBad, valWide := v.valWide, signed := v.signed
        recOff := BitVec.ofNat 16 rs, valueOff := BitVec.ofNat 16 pos
        valueLen := BitVec.ofNat 16 n, unit := entry.unit, exp := entry.exp
        storage := storageNumber (difBits dif).s0 dife, subunit := subunitNumber dife
        tariff := tariffNumber dife, lvar := lvar, value := v.value }
      (pos + n)

/-- UNPACK at `pos`, the LVAR byte first where there is one (R260, R266 to R269). -/
def parseUnpack (l : Latch) (lim rs : Nat) (dif vif : Byte) (entry : VifEntry)
    (dife vife : List Byte) (pos : Nat) : RecordResult :=
  if dataField dif = 0xD#4 then
    if lim ≤ pos then .stop .truncatedRecord rs
    else
      let lvar := l.byte pos
      if lvar.toNat ≤ 0xBF then
        parseValue l lim rs dif vif entry dife vife lvar (pos + 1) (.text, lvar.toNat, decodeText)
      else if lvar.toNat ≤ 0xCF then
        parseValue l lim rs dif vif entry dife vife lvar (pos + 1)
          (.lvarBcd, lvar.toNat - 0xC0, decodeLvarBcd)
      else .stop .unsupported pos
  else parseValue l lim rs dif vif entry dife vife 0 pos (parseField l.cfg entry.hint dif)

/-- One record whose ordinary DIF stands at `rs` (R222). -/
def parseRecord (p : Params) (l : Latch) (lim rs : Nat) : RecordResult :=
  let dif := l.byte rs
  match parseChain l lim Config.chainMax [] (rs + 1) dif with
  | .overlong off => .stop .malformedDIFChain off
  | .truncated => .stop .truncatedRecord rs
  | .done dife pos =>
    if lim ≤ pos then .stop .truncatedRecord rs
    else
      let vif := l.byte pos
      let entry := vifLookup p.vifTable (vif.setWidth 7)
      if entry.hint = .plainText then .stop .unsupported pos
      else
        match parseChain l lim Config.chainMax [] (pos + 1) vif with
        | .overlong off => .stop .malformedDIFChain off
        | .truncated => .stop .truncatedRecord rs
        | .done vife pos => parseUnpack l lim rs dif vif entry dife vife pos

/-- The manufacturer record at `rs` (R213). -/
def parseMfr (dif : Byte) (rs lim : Nat) : Record :=
  { dif := dif, vif := 0, kind := .manufacturer, dife := [], vife := []
    bcdBad := false, valWide := false, signed := false
    recOff := BitVec.ofNat 16 rs, valueOff := BitVec.ofNat 16 (rs + 1)
    valueLen := BitVec.ofNat 16 (lim - (rs + 1))
    unit := 0, exp := 0, storage := 0, subunit := 0, tariff := 0, lvar := 0, value := 0 }

/-- The loop of WALK from `pos`; `fuel` is above the bytes left (R221, R222). -/
def parseWalk (p : Params) (l : Latch) (lim : Nat) (res : Results) :
    (fuel pos : Nat) → List Record → ParseResult
  | 0, _, recs => parseStop .ok 0 res recs
  | fuel + 1, pos, recs =>
    if pos = lim then parseStop .ok 0 res recs
    else
      let dif := l.byte pos
      if dif = 0x2F#8 then parseWalk p l lim res fuel (pos + 1) recs
      else if dif = 0x0F#8 ∧ l.cfg.mfrTail = true then
        if pos + 1 < lim then parseStop .trailingData (pos + 1) res recs
        else parseStop .ok 0 res recs
      else if dif = 0x0F#8 ∨ dif = 0x1F#8 then
        if recs.length = p.maxRecords then parseStop .recordLimit pos res recs
        else parseStop .ok 0 res (recs ++ [parseMfr dif pos lim])
      else if dataField dif = 0xF#4 then parseStop .unsupported pos res recs
      else
        match parseRecord p l lim pos with
        | .stop code off => parseStop code off res recs
        | .complete r pos' =>
          if recs.length = p.maxRecords then parseStop .recordLimit pos res recs
          else parseWalk p l lim res fuel pos' (recs ++ [r])

/-- VALIDATE_SHORT (R190). -/
def parseShort (l : Latch) : ParseResult :=
  let len := l.len.toNat
  let r := { Results.zero with kind := kindShort }
  if len < 5 then parseStop .incompleteFrame len r []
  else if l.byte 3 ≠ l.byte 1 + l.byte 2 then parseStop .checksumMismatch 3 r []
  else if l.byte 4 ≠ 0x16#8 then parseStop .badDelimiter 4 r []
  else
    parseStop .ok 0
      { r with
        c := l.byte 1, a := l.byte 2, csRx := l.byte 3, csCalc := l.byte 1 + l.byte 2, frameLen := 5 }
      []

/-- VALIDATE_LONG and WALK (R192 to R198, R210, R222). -/
def parseLong (p : Params) (l : Latch) : ParseResult :=
  let len := l.len.toNat
  let big := l.byte 1
  let n := big.toNat
  let r := { Results.zero with kind := if big = Config.controlL then kindControl else kindLong }
  if len < 3 then parseStop .incompleteFrame len r []
  else if big ≠ l.byte 2 then parseStop .lengthFieldMismatch 2 r []
  else if n < 3 then parseStop .lengthFieldMismatch 1 r []
  else if len < n + 6 then parseStop .incompleteFrame len r []
  else if l.byte 3 ≠ 0x68#8 then parseStop .badDelimiter 3 r []
  else if l.byte (n + 4) ≠ checksum (l.slice 4 n) then parseStop .checksumMismatch (n + 4) r []
  else if l.byte (n + 5) ≠ 0x16#8 then parseStop .badDelimiter (n + 5) r []
  else
    let r :=
      { r with
        c := l.byte 4, a := l.byte 5, ci := l.byte 6, csRx := l.byte (n + 4)
        csCalc := checksum (l.slice 4 n), frameL := big, frameLen := BitVec.ofNat 16 (n + 6)
        payloadOff := 7, payloadLen := BitVec.ofNat 16 (n - 3) }
    let skip := l.hdr (l.byte 6)
    if n + 4 - 7 < skip then parseStop .truncatedRecord 7 r []
    else parseWalk p l (n + 4) r (n + 4 - (7 + skip) + 1) (7 + skip) []

/-- PARSE (R151), with CLASSIFY in place (R180). -/
def parse (p : Params) (l : Latch) : ParseResult :=
  let len := l.len.toNat
  if p.maxLen < len then parseStop .lengthConfig 0 Results.zero []
  else if len = 0 then parseStop .incompleteFrame 0 Results.zero []
  else if l.byte 0 = 0xE5#8 then
    parseStop .ok 0 { Results.zero with kind := kindAck, frameLen := 1 } []
  else if l.byte 0 = 0x10#8 then parseShort l
  else if l.byte 0 = 0x68#8 then
    if len < 2 then parseStop .incompleteFrame 1 Results.zero [] else parseLong p l
  else parseStop .unknownFrameStart 0 Results.zero []

end Sys2Proof.Machine
end

