-- ==== Sys2Proof/Safety.lean ====
section
/-! DEFINITION. What counts as a safe run: the invariant of the machine, and the terms in which the
claims speak of frames, results and steps. -/

namespace Sys2Proof.Machine

/-! ### Turns -/

/-- The next turn is the engine's, and `ts` is the schedule after it: either the schedule is empty, or it
says so (log 3). -/
def State.EngineNext (s : State) (ts : List Turn) : Prop :=
  (s.turns = [] ∧ ts = []) ∨ s.turns = .engine :: ts

/-! ### The invariant -/

/-- The parameter ranges of spec/00_scope.md R6 and the size of `VIF_TABLE` (R38). -/
structure Params.Wf (p : Params) : Prop where
  maxLen_ge : 261 ≤ p.maxLen
  maxLen_le : p.maxLen ≤ 4096
  maxRecords_ge : 1 ≤ p.maxRecords
  maxRecords_le : p.maxRecords ≤ 128
  vifTable_length : p.vifTable.length = 128

/-- What result fields always are, unless an input was written during the parse: only numbered codes
(R301) and kinds (R42), and no records counted unless they are valid (R46). -/
structure Results.Wf (p : Params) (r : Results) : Prop where
  code_le : r.code.toNat ≤ 11
  kind_le : r.kind.toNat ≤ 4
  count_valid : r.recsValid = false → r.recCount = 0
  count_le : r.recCount.toNat ≤ p.maxRecords

/-- PARSE is inside an ordinary record: its DIF is latched. -/
def Phase.inRecord : Phase → Bool
  | .dife | .vif | .vife | .value | .lvar => true
  | .frameStart | .loopHead | .stopped => false

/-- The working registers of a parse: the cursor stays within its limit and the limit within LEN
(R32, R170, R175), the chains within CHAIN_MAX (R241, R246), the records within MAX_RECORDS (R217),
and a record's DIF is not a special one (R222, R260). -/
structure Engine.Inv (p : Params) (e : Engine) : Prop where
  latch_wf : Memory.Wf e.latch.mem
  pos_le : e.pos ≤ e.lim
  lim_le : e.lim ≤ e.latch.len.toNat
  len_le : e.phase ≠ .frameStart → e.phase ≠ .stopped → e.latch.len.toNat ≤ p.maxLen
  start : e.phase = .frameStart →
    e.pos = 0 ∧ e.lim = e.latch.len.toNat ∧ e.recs = [] ∧ e.res = Results.zero
  record : e.phase.inRecord = true → e.rs < e.pos ∧ dataField e.dif ≠ 0xF#4
  dife_le : e.dife.length ≤ Config.chainMax
  vife_le : e.vife.length ≤ Config.chainMax
  dife_room : e.phase = .dife → e.dife.length < Config.chainMax
  vife_room : e.phase = .vife → e.vife.length < Config.chainMax
  recs_le : e.recs.length ≤ p.maxRecords
  res_wf : e.res.Wf p
  count : e.phase = .stopped → e.res.recCount.toNat = e.recs.length

/-- The invariant of the machine. -/
structure State.Inv (s : State) : Prop where
  params_wf : s.params.Wf
  mem_wf : Memory.Wf s.mem
  mem_place : ∀ c ∈ s.mem, (isHdr c.1 || isIn s.params c.1 || isRec s.params c.1) = true
  not_both : ¬ (s.busy = true ∧ s.done = true)
  engine : s.eng.Inv s.params
  untainted : s.hazard = false → s.eng.tainted = false
  cleared : s.done = false → s.res = Results.zero
  res_wf : s.hazard = false → s.res.Wf s.params
  entries : s.hazard = false → ∀ a, recBase ≤ a → a < recBase + 64 * s.res.recCount.toNat →
    (Memory.find? s.mem a).isSome = true

/-! ### Reset -/

/-- The reset table of spec/10_state.md R52, in what a host can see: register words, HDR_TABLE, no
known byte of IN or the record memory, `VIF_TABLE` and PARAMS untouched from `p`, IDLE, no HAZARD. -/
structure State.AtReset (p : Params) (s : State) : Prop where
  ctrl : s.regWord 0 = 0
  cfg : s.regWord 1 = 0x0000000F#32
  len : s.regWord 2 = 0
  status : s.regWord 3 = 0
  results : ∀ idx, 4 ≤ idx → idx ≤ 9 → s.regWord idx = 0
  paramsWord : s.regWord 10 = BitVec.ofNat 16 p.maxRecords ++ BitVec.ofNat 16 p.maxLen
  params : s.params = p
  hdr : ∀ a, isHdr a = true → s.memByte a = 0
  inUnknown : ∀ a, isIn p a = true → Memory.read s.mem a = none
  recUnknown : ∀ a, isRec p a = true → Memory.read s.mem a = none
  idle : s.busy = false ∧ s.done = false
  hazard : s.hazard = false

/-! ### Frames and results -/

/-- The result fields after a frame-level failure: only CODE, ERR_OFFSET and FRAME.KIND (R154). -/
def frameFailure (code : Code) (off : Nat) (kind : BitVec 3) : Results :=
  { Results.zero with code := code.num, errOffset := BitVec.ofNat 16 off, kind := kind }

/-- The sum of IN[a] to IN[a+n-1] as a number (R196). -/
def Latch.sum (l : Latch) (a n : Nat) : Nat := ∑ i ∈ Finset.range n, (l.byte (a + i)).toNat

/-- The buffer starts with a valid ShortFrame (R102). -/
structure Latch.ValidShort (l : Latch) : Prop where
  start : l.byte 0 = 0x10#8
  complete : 5 ≤ l.len.toNat
  checksum : (l.byte 3).toNat = ((l.byte 1).toNat + (l.byte 2).toNat) % 256
  stop : l.byte 4 = 0x16#8

/-- The buffer starts with a valid LongFrame or ControlFrame (R103). -/
structure Latch.ValidLong (l : Latch) : Prop where
  start : l.byte 0 = 0x68#8
  copies : l.byte 1 = l.byte 2
  minimum : 3 ≤ (l.byte 1).toNat
  complete : (l.byte 1).toNat + 6 ≤ l.len.toNat
  second : l.byte 3 = 0x68#8
  checksum : (l.byte ((l.byte 1).toNat + 4)).toNat = l.sum 4 (l.byte 1).toNat % 256
  stop : l.byte ((l.byte 1).toNat + 5) = 0x16#8

/-- Two latches hold the same inputs but for the bytes of IN at or past `n`. -/
structure Latch.AgreeBelow (n : Nat) (l l' : Latch) : Prop where
  len : l.len = l'.len
  cfg : l.cfg = l'.cfg
  hdr : ∀ ci, l.hdr ci = l'.hdr ci
  byte : ∀ i, i < n → l.byte i = l'.byte i

/-- The buffer holds the given bytes from IN[0], and LEN covers them. -/
def Latch.Holds (l : Latch) (bs : List Byte) : Prop :=
  bs.length ≤ l.len.toNat ∧ ∀ i (h : i < bs.length), l.byte i = bs[i]

/-- The parse has just been accepted: nothing emitted, no result field written (R152). -/
structure Engine.Fresh (e : Engine) : Prop where
  recs : e.recs = []
  res : e.res = Results.zero

/-- A data field's bytes are all there and the record memory has room (R217, R218). -/
structure State.Room (s : State) (n : Nat) : Prop where
  bytes : n ≤ s.eng.lim - s.eng.pos
  record : s.eng.recs.length ≠ s.params.maxRecords

/-! ### Records and values, in the spec's own sums -/

/-- The little-endian number of `n` bytes from IN[a]: `Σ b[i] << 8i` (R75, R260). -/
def Latch.number (l : Latch) (a n : Nat) : Nat :=
  ∑ i ∈ Finset.range n, (l.byte (a + i)).toNat * 256 ^ i

/-- BCD digit `k` of the bytes from IN[a]: byte `k / 2`, low nibble first (R274). -/
def Latch.digit (l : Latch) (a k : Nat) : Nat :=
  if k % 2 = 0 then (l.byte (a + k / 2)).toNat % 16 else (l.byte (a + k / 2)).toNat / 16

/-- Some digit of the `n` bytes from IN[a] is above 9 (R274). -/
def Latch.badDigit (l : Latch) (a n : Nat) : Bool :=
  (List.range (2 * n)).any fun k => 9 < l.digit a k

/-- `Σ d[k] · 10^k` over the `n` bytes from IN[a], and 0 when a digit is bad (R274). -/
def Latch.decimal (l : Latch) (a n : Nat) : Nat :=
  if l.badDigit a n then 0 else ∑ k ∈ Finset.range (2 * n), l.digit a k * 10 ^ k

/-- The record of R222 for the header in the working registers, a DIF, a kind and a width: every field
but the value and its flags. -/
def State.headerRecord (s : State) (dif : Byte) (kind : ValueKind) (n : Nat) : Record :=
  { dif := dif, vif := s.eng.vif, kind := kind, dife := s.eng.dife, vife := s.eng.vife
    bcdBad := false, valWide := false, signed := false
    recOff := BitVec.ofNat 16 s.eng.rs, valueOff := BitVec.ofNat 16 s.eng.pos
    valueLen := BitVec.ofNat 16 n
    unit := (vifLookup s.params.vifTable (s.eng.vif.setWidth 7)).unit
    exp := (vifLookup s.params.vifTable (s.eng.vif.setWidth 7)).exp
    storage := storageNumber (dif.getLsbD 6) s.eng.dife
    subunit := subunitNumber s.eng.dife, tariff := tariffNumber s.eng.dife
    lvar := 0, value := 0 }

/-- The working registers after a data field of fixed width has been read whole: DIF latched, no LVAR
byte, cursor past the value, the record appended, back at the loop head. -/
def Engine.afterRecord (e : Engine) (dif lvar : Byte) (n : Nat) (r : Record) : Engine :=
  { e with
    phase := .loopHead, pos := e.pos + n, dif := dif, lvar := lvar, recs := e.recs ++ [r] }

/-- The working registers after a stop that keeps the records so far (R217, R220, R304). -/
def Engine.stoppedKeeping (e : Engine) (code : Code) (off : Nat) : Engine :=
  { e with
    phase := .stopped
    res := { e.res with
      code := code.num, errOffset := BitVec.ofNat 16 off, recsValid := true
      recCount := BitVec.ofNat 16 e.recs.length } }

/-- The working registers after MalformedDIFChain at an offset (R219). -/
def Engine.stoppedMalformed (e : Engine) (off : Nat) : Engine :=
  { e with
    phase := .stopped
    recs := []
    res := { e.res with
      code := 6, errOffset := BitVec.ofNat 16 off, recsValid := false, recCount := 0 } }

/-- The working registers after a frame-level failure (R154). -/
def Engine.stoppedFrame (e : Engine) (code : Code) (off : Nat) (kind : BitVec 3) : Engine :=
  { e with phase := .stopped, recs := [], res := frameFailure code off kind }

/-- The integer fields: dispatch code, data field, value bytes (R109, R262). -/
def integerFields (d : DifBits) : List (Instr × BitVec 4 × Nat) :=
  [(.int8 d, 0x1, 1), (.int16 d, 0x2, 2), (.int24 d, 0x3, 3), (.int32 d, 0x4, 4),
    (.int48 d, 0x6, 6), (.int64 d, 0x7, 8)]

/-- The BCD fields of fixed width: dispatch code, data field, value bytes (R109, R264). -/
def bcdFields (d : DifBits) : List (Instr × BitVec 4 × Nat) :=
  [(.bcd2 d, 0x9, 1), (.bcd4 d, 0xA, 2), (.bcd6 d, 0xB, 3), (.bcd8 d, 0xC, 4), (.bcd12 d, 0xE, 6)]

/-- The fields whose value is the raw word, or that have no value bytes: dispatch code, data field,
kind, value bytes (R109, R261, R263, R265, R270, R271). -/
def rawFields (d : DifBits) : List (Instr × BitVec 4 × ValueKind × Nat) :=
  [(.nodata d, 0x0, .noData, 0), (.date d, 0x2, .date, 2), (.datetime d, 0x4, .dateTime, 4),
    (.real32 d, 0x5, .real, 4), (.selection d, 0x8, .selection, 0)]

/-- The fields of fixed width: dispatch code, data field, value bytes (R109). -/
def fixedFields (d : DifBits) : List (Instr × BitVec 4 × Nat) :=
  integerFields d ++ bcdFields d ++ (rawFields d).map fun f => (f.1, f.2.1, f.2.2.2)

/-- An LVAR text code and its LVAR byte (R108, R267). -/
def IsTextCode (i : Instr) (b : Byte) : Prop :=
  (∃ n, i = .lvarTextLow n ∧ b.toNat = n.toNat) ∨ (∃ n, i = .lvarTextHigh n ∧ b.toNat = 0x80 + n.toNat)

/-- An LVAR code at or above 0xD0 and its LVAR byte (R108, R269). -/
def IsUnsupportedCode (i : Instr) (b : Byte) : Prop :=
  (∃ n, i = .lvarUnsupportedD n ∧ b.toNat = 0xD0 + n.toNat) ∨
    (∃ n, i = .lvarUnsupportedE n ∧ b.toNat = 0xE0 + n.toNat)

end Sys2Proof.Machine
end

