-- ==== Sys2Proof/Certificates/Slice0/Obligations.lean ====
section
/-! DEFINITION. The statements about the model, one `def Obligations.<Name> : Prop` each. A statement
names the rules of spec/ it formalises; where it rests on a choice of the model its docstring says so. -/

open Sys2Proof Sys2Proof.Machine

/-! ### Reset, the register window and the schedule -/

/-- R52: the state right after reset is the reset table, whatever the unobservable working registers
hold, and `VIF_TABLE` and the parameters are those of R6 and R248. -/
def Obligations.ResetStateIsTheResetTable : Prop :=
  (∀ e : Engine, State.AtReset Params.default { State.reset with eng := e }) ∧
    Params.default.maxLen = 512 ∧ Params.default.maxRecords = 128 ∧
    Params.default.vifTable = defaultVifTable

/-- R340, R341: a reset, also during a parse, leaves the reset table; the parameters, `VIF_TABLE` among
them, are not affected. -/
def Obligations.ResetTurnRestoresTheResetTable : Prop :=
  ∀ (s : State) (ts : List Turn), s.turns = .host .reset :: ts →
    ∃ t, step s = .next t ∧ t.AtReset s.params ∧ t.turns = ts

/-- R70, R71, R72: a host read of a word of the window, at the base plus the word's offset, answers that
word and changes nothing of the block. The word stands in `rdata` and a free value drawn is counted in
`draws`; both are the model's own (log 8, log 10). -/
def Obligations.HostReadChangesNothing : Prop :=
  ∀ (s : State) (idx : BitVec 12) (ts : List Turn),
    s.turns = .host (.read (s.params.baseWord + idx.toNat)) :: ts →
    ∃ draws, step s = .next { s with turns := ts, rdata := s.readWord idx.toNat, draws := draws } ∧
      (s.busy = false → draws = s.draws)

/-- R70, D49: an access outside the window of 16 KiB above the base is not the block's: nothing changes.
That the block then answers nothing is the model's reading (log 11). -/
def Obligations.AccessOutsideTheWindowIsIgnored : Prop :=
  ∀ (s : State) (addr : Nat) (ts : List Turn),
    addr < s.params.baseWord ∨ s.params.baseWord + 0x1000 ≤ addr →
    (s.turns = .host (.read addr) :: ts → step s = .next { s with turns := ts }) ∧
    ∀ data be, s.turns = .host (.write addr data be) :: ts → step s = .next { s with turns := ts }

/-- R344: while BUSY, a read of ERR_OFFSET, FRAME, FIELDS, CHECK, PAYLOAD, REC_COUNT or the record
memory answers a free value, a new one at each such read; it sets no HAZARD and leaves the parse as it
was. Every other word, STATUS among them, is read without drawing a free value. The free value is the
model's form of "any value" (log 10). -/
def Obligations.BusyReadsOfResultsAreFree : Prop :=
  ∀ (s : State) (idx : BitVec 12) (ts : List Turn),
    s.turns = .host (.read (s.params.baseWord + idx.toNat)) :: ts → s.busy = true →
    if idx.toNat ∈ [4, 5, 6, 7, 8, 9] ∨
          (0x2000 ≤ 4 * idx.toNat ∧ 4 * idx.toNat < 0x2000 + 64 * s.params.maxRecords) then
      step s = .next { s with
        turns := ts, rdata := Config.anyWord s.draws 0, draws := s.draws + 1 }
    else step s = .next { s with turns := ts, rdata := s.readWord idx.toNat }

/-- R36, R39 to R47, R70: the bit layout of the register words: CTRL, CFG, LEN, STATUS, PARAMS and the
reserved words whatever BUSY is, the result words while the engine is idle. -/
def Obligations.RegisterWordLayout : Prop :=
  ∀ s : State,
    s.readWord 0 = 0 ∧
    (s.readWord 1).toNat = s.cfg.intSigned.toNat + 16 * s.cfg.mfrTail.toNat ∧
    (s.readWord 2).toNat = s.len.toNat ∧
    (s.readWord 3).toNat = s.busy.toNat + 2 * s.done.toNat + 4 * s.res.recsValid.toNat
      + 256 * s.res.code.toNat ∧
    (s.params.Wf → (s.readWord 10).toNat = s.params.maxLen + 65536 * s.params.maxRecords) ∧
    (∀ idx, 11 ≤ idx → idx < 0x40 → s.readWord idx = 0) ∧
    (s.busy = false →
    (s.readWord 4).toNat = s.res.errOffset.toNat ∧
    (s.readWord 5).toNat =
      s.res.kind.toNat + 256 * s.res.frameL.toNat + 65536 * s.res.frameLen.toNat ∧
    (s.readWord 6).toNat = s.res.c.toNat + 256 * s.res.a.toNat + 65536 * s.res.ci.toNat
      + 16777216 * s.res.csRx.toNat ∧
    (s.readWord 7).toNat = s.res.csCalc.toNat ∧
    (s.readWord 8).toNat = s.res.payloadOff.toNat + 65536 * s.res.payloadLen.toNat ∧
    (s.readWord 9).toNat = s.res.recCount.toNat)

/-- R70, R71: from offset 0x100 up, byte lane `k` of the word read at an offset `o` is the byte at `o + k`,
with BUSY 0 or 1, but for the record memory while BUSY. At HDR_TABLE, IN and the record memory that byte
is the stored one (a byte with no known value is a free value: log 4, log 5), at every reserved offset
0. -/
def Obligations.WindowWordsAreTheirBytes : Prop :=
  ∀ s : State, s.params.Wf →
    (∀ idx k, 0x40 ≤ idx → idx < 0x1000 → k < 4 →
      (s.busy = false ∨ 4 * idx < 0x2000 ∨ 0x2000 + 64 * s.params.maxRecords ≤ 4 * idx) →
      (s.readWord idx).extractLsb' (8 * k) 8 = s.memByte (4 * idx + k)) ∧
    (∀ a, 0x100 ≤ a → a < 0x200 → s.memByte a = (Memory.find? s.mem a).getD 0) ∧
    (∀ a, 0x1000 ≤ a → a < 0x1000 + s.params.maxLen →
      s.memByte a = (Memory.find? s.mem a).getD (Config.unwrittenIn s.inEpoch a)) ∧
    (∀ a, 0x2000 ≤ a → a < 0x2000 + 64 * s.params.maxRecords →
      s.memByte a = (Memory.find? s.mem a).getD (Config.staleRecord s.recEpoch a)) ∧
    ∀ a, (0x200 ≤ a ∧ a < 0x1000) ∨ (0x1000 + s.params.maxLen ≤ a ∧ a < 0x2000) ∨
        (0x2000 + 64 * s.params.maxRecords ≤ a ∧ a < 0x4000) →
      s.memByte a = 0

/-- R71, R72, R34 to R37, R343: a host write other than to CTRL stores exactly its enabled byte lanes in
IN, HDR_TABLE, CFG and LEN; every other byte, register and the record memory ignore it; HAZARD is set
exactly when an enabled lane lies on an input while BUSY (lanes of reserved bits counted: log 9). -/
def Obligations.HostWriteStoresItsLanes : Prop :=
  ∀ (s : State) (idx : BitVec 12) (data : Word) (be : BitVec 4) (ts : List Turn), s.Inv →
    s.turns = .host (.write (s.params.baseWord + idx.toNat) data be) :: ts → idx.toNat ≠ 0 →
    ∃ t, step s = .next t ∧
      (∀ a, t.memByte a =
        if (isHdr a || isIn s.params a) ∧ a / 4 = idx.toNat ∧ be.getLsbD (a % 4) then
          data.extractLsb' (8 * (a % 4)) 8
        else s.memByte a) ∧
      t.cfg = (if idx.toNat = 1 ∧ be.getLsbD 0 then ⟨data.extractLsb' 0 4, data.getLsbD 4⟩ else s.cfg) ∧
      t.len = (if idx.toNat = 2 ∧ be.getLsbD 1 then data.extractLsb' 8 8 else s.len.extractLsb' 8 8)
        ++ (if idx.toNat = 2 ∧ be.getLsbD 0 then data.extractLsb' 0 8 else s.len.extractLsb' 0 8) ∧
      t.hazard = (s.hazard || (s.busy && touchesInput s.params (4 * idx.toNat) be)) ∧
      t.eng = { s.eng with
        tainted := s.eng.tainted || (s.busy && touchesInput s.params (4 * idx.toNat) be) } ∧
      t.params = s.params ∧ t.busy = s.busy ∧ t.done = s.done ∧ t.res = s.res ∧ t.rdata = s.rdata ∧
      t.inEpoch = s.inEpoch ∧ t.recEpoch = s.recEpoch ∧ t.draws = s.draws ∧ t.turns = ts

/-- R343: when an input was written during the parse, `complete` publishes any value in every result
field, each of the fourteen a draw of its own, and no byte of the record memory is known; BUSY
falls and DONE rises as ever, and IN, HDR_TABLE, CFG, LEN and everything else stay. "Any value" is the
model's free value (log 9). -/
def Obligations.TaintedCompletionPublishesAnyValue : Prop :=
  ∀ (s : State) (ts : List Turn), s.busy = true → s.EngineNext ts → s.eng.phase = .stopped →
    s.eng.tainted = true →
    let any := Config.anyWord s.draws
    ∃ t, step s = .next t ∧ t.busy = false ∧ t.done = true ∧
      t.res = {
        recsValid := (any 0).getLsbD 0, code := (any 1).setWidth 4, errOffset := (any 2).setWidth 16
        kind := (any 3).setWidth 3, frameL := (any 4).setWidth 8, frameLen := (any 5).setWidth 16
        c := (any 6).setWidth 8, a := (any 7).setWidth 8, ci := (any 8).setWidth 8
        csRx := (any 9).setWidth 8, csCalc := (any 10).setWidth 8, payloadOff := (any 11).setWidth 16
        payloadLen := (any 12).setWidth 16, recCount := (any 13).setWidth 16 } ∧
      (∀ a, recBase ≤ a → Memory.read t.mem a = none) ∧ t.recEpoch = s.recEpoch + 1 ∧
      (∀ a, a < recBase → t.memByte a = s.memByte a) ∧
      t.draws = s.draws + 1 ∧ t.params = s.params ∧ t.cfg = s.cfg ∧ t.len = s.len ∧
      t.hazard = s.hazard ∧ t.eng = s.eng ∧ t.rdata = s.rdata ∧ t.inEpoch = s.inEpoch ∧ t.turns = ts

/-- R51, R343: HAZARD is cleared by nothing but reset, and set by nothing but a host write to an input
while BUSY. Which lanes are an input is the model's choice (log 9). -/
def Obligations.HazardIsStickyAndSetByInputWritesOnly : Prop :=
  ∀ s t : State, step s = .next t →
    (s.hazard = true → t.hazard = true ∨ s.turns.head? = some (.host .reset)) ∧
    (s.hazard = false → t.hazard = true →
      s.busy = true ∧ ∃ (idx : BitVec 12) (data : Word) (be : BitVec 4),
        s.turns.head? = some (.host (.write (s.params.baseWord + idx.toNat) data be)) ∧
        touchesInput s.params (4 * idx.toNat) be = true)

/-- R313, R349: with BUSY = 0 an engine turn, or an empty schedule, changes nothing. -/
def Obligations.IdleBlockKeepsItsState : Prop :=
  ∀ (s : State) (ts : List Turn), s.busy = false → s.EngineNext ts →
    step s = .next { s with turns := ts }

/-! ### START and the engine's turns -/

/-- R150, R152, R79, R345: START while BUSY = 0 latches the inputs, clears every result field, sets BUSY
and clears DONE, changing neither inputs nor HAZARD, and leaves no byte of the record memory known
(R48); START while BUSY = 1 has no effect. -/
def Obligations.StartLatchesInputsAndClearsResults : Prop :=
  ∀ (x : BitVec 31) (s : State),
    (s.busy = true → exec (.start x) s = .next s) ∧
    (s.busy = false → ∃ t, exec (.start x) s = .next t ∧
      t.busy = true ∧ t.done = false ∧ t.res = Results.zero ∧
      t.eng.phase = .frameStart ∧ t.eng.pos = 0 ∧ t.eng.lim = s.len.toNat ∧ t.eng.Fresh ∧
      t.eng.tainted = false ∧ t.eng.latch.len = s.len ∧ t.eng.latch.cfg = s.cfg ∧
      (∀ i, i < s.params.maxLen → i < 4096 → t.eng.latch.byte i = s.memByte (inBase + i)) ∧
      (∀ ci : Byte, t.eng.latch.hdr ci = (s.memByte (hdrBase + ci.toNat)).toNat) ∧
      (∀ a, a < recBase → t.memByte a = s.memByte a) ∧
      (∀ a, recBase ≤ a → Memory.read t.mem a = none) ∧
      t.params = s.params ∧ t.cfg = s.cfg ∧ t.len = s.len ∧ t.hazard = s.hazard ∧
      t.rdata = s.rdata ∧ t.inEpoch = s.inEpoch ∧ t.draws = s.draws ∧ t.turns = s.turns)

/-- R39, R72, R150: a host write of the CTRL word runs START exactly when byte 0 is enabled and bit 0 is
1; any other CTRL write has no effect. -/
def Obligations.CtrlWriteRunsStart : Prop :=
  ∀ (s : State) (data : Word) (be : BitVec 4) (ts : List Turn),
    s.turns = .host (.write s.params.baseWord data be) :: ts →
    step s =
      if be.getLsbD 0 ∧ data.getLsbD 0 then
        exec (.start (data.extractLsb' 1 31)) { s with turns := ts }
      else .next { s with turns := ts }

/-- R151, R180, R222, R260: when the engine, at its turn, finds bytes that decode to a dispatch code,
the step is that code's meaning on the state with those bytes taken.
One dispatch a turn is the model's choice (log 1). -/
def Obligations.StepRunsTheDecodedCode : Prop :=
  ∀ (s t : State) (ts : List Turn) (c : Context) (bytes rest : List Byte) (i : Instr),
    s.busy = true → s.EngineNext ts → s.eng.phase ≠ .stopped →
    State.fetch { s with turns := ts } = .code c bytes t → decode c bytes = .ok (i, rest) →
    step s = exec i t

/-- The placing of an opcode-table word (the model's choice, log 12 and log 13): the next step runs the
dispatch code the decoder reads from the word: for a CTRL word on the state itself, else on the state
that the fetch leaves at the placed state, in the word's context. -/
def Obligations.PlacedWordRuns : Prop :=
  ∀ (s : State) (nbits w : Nat) (i : Instr), decodeTableWord nbits w = some i →
    if tableContext nbits w = .ctrl then step (s.withFetchWord nbits w) = exec i s
    else ∃ bytes rest t,
      State.fetch { s.withFetchWord nbits w with turns := s.turns } =
        .code (tableContext nbits w) bytes t ∧
      decode (tableContext nbits w) bytes = .ok (i, rest) ∧ t.turns = s.turns ∧
      step (s.withFetchWord nbits w) = exec i t

/-- R211: at the exact end of the payload the walk stops with OK, keeping the records. That
this is a turn of its own is the model's choice (log 1). -/
def Obligations.PayloadEndIsOk : Prop :=
  ∀ (s : State) (ts : List Turn), s.busy = true → s.EngineNext ts → s.eng.phase = .loopHead →
    s.eng.pos = s.eng.lim →
    step s = .next { s with turns := ts, eng := s.eng.stoppedKeeping .ok 0 }

/-- R240, R241, R222: an ordinary DIF is taken and latched, its offset becomes the record's, the chains
are empty, and bit 7 says whether a DIFE or the VIF comes next. That this is a turn of its own is the
model's choice (log 1). -/
def Obligations.OrdinaryDifStartsItsRecord : Prop :=
  ∀ (s : State) (ts : List Turn) (dif : Byte), s.busy = true → s.EngineNext ts →
    s.eng.phase = .loopHead → s.eng.pos < s.eng.lim → dif = s.eng.latch.byte s.eng.pos →
    dif.toNat % 16 ≠ 15 →
    step s = .next { s with
      turns := ts
      eng := { s.eng with
        rs := s.eng.pos, pos := s.eng.pos + 1, dif := dif, dife := [], vife := [], vif := 0, lvar := 0
        phase := if 0x80 ≤ dif.toNat then .dife else .vif } }

/-- R218, R241, R246, R245, R266: a DIFE, VIF, VIFE or LVAR byte that the payload no longer holds stops
the walk with TruncatedRecord at the record's DIF, keeping the records before it. That this is a turn
of its own is the model's choice (log 1). -/
def Obligations.MissingHeaderByteIsTruncatedRecord : Prop :=
  ∀ (s : State) (ts : List Turn), s.busy = true → s.EngineNext ts →
    s.eng.phase ∈ [.dife, .vif, .vife, .lvar] → s.eng.lim ≤ s.eng.pos →
    step s = .next { s with
      turns := ts, eng := s.eng.stoppedKeeping .truncatedRecord s.eng.rs }

/-- R153, R78, R306: `complete` publishes, in one step, every result field and every record entry of the
parse (when no input was written during it), clears BUSY and sets DONE. Each published record is read
back byte for byte at its entry (R48), IN and HDR_TABLE are unchanged. -/
def Obligations.CompletePublishesEverythingAtOnce : Prop :=
  ∀ (s : State) (ts : List Turn), s.Inv → s.busy = true → s.EngineNext ts →
    s.eng.phase = .stopped → s.eng.tainted = false →
    ∃ t, step s = .next t ∧ t.busy = false ∧ t.done = true ∧ t.res = s.eng.res ∧
      (∀ i (h : i < s.eng.recs.length) j (hj : j < (s.eng.recs[i]).bytes.length),
        t.memByte (0x2000 + 64 * i + j) = (s.eng.recs[i]).bytes[j]) ∧
      (∀ a, a < 0x2000 → t.memByte a = s.memByte a) ∧
      t.params = s.params ∧ t.cfg = s.cfg ∧ t.len = s.len ∧ t.hazard = s.hazard ∧ t.eng = s.eng ∧
      t.rdata = s.rdata ∧ t.inEpoch = s.inEpoch ∧ t.draws = s.draws ∧ t.turns = ts

/-- R73, R74, R78, R79: a turn of the engine before `complete` changes its hidden working registers
only, and never the inputs it latched: no host-visible register and no byte of memory. That there are
such turns is the model's choice (log 1). -/
def Obligations.EngineTurnIsInvisibleBeforeComplete : Prop :=
  ∀ (s t : State) (ts : List Turn), s.busy = true → s.EngineNext ts → s.eng.phase ≠ .stopped →
    step s = .next t →
    t = { s with turns := ts, eng := t.eng } ∧ t.eng.latch = s.eng.latch ∧ t.eng.tainted = s.eng.tainted

/-- R151, R153, R221, R348: after an accepted START the engine's own turns, at most 2 · LEN + 3 of them,
leave exactly what the function PARSE computes from the latched inputs, published by `complete`. That
the engine takes several turns is the model's choice (log 1); the host sees only the last. -/
def Obligations.EngineTurnsComputeParse : Prop :=
  ∀ (s : State) (x : BitVec 31), s.busy = false → s.turns = [] →
    ∃ t, exec (.start x) s = .next t ∧
      ∃ k e, k ≤ 2 * s.len.toNat + 3 ∧
        Host.Core.run Sys2Proof.core k t = .next
          { t with
            busy := false
            done := true
            res := (parse t.params t.eng.latch).res
            mem := Memory.ram t.mem ++ recCells (parse t.params t.eng.latch).recs
            recEpoch := t.recEpoch + 1
            eng := e }

/-! ### Invariant -/

/-- R52, R32, R40: the state after reset meets the invariant. For the working registers it speaks of the
values the model chose (log 7). -/
def Obligations.ResetMeetsTheInvariant : Prop := State.reset.Inv

/-- R32, R40, R46, R170, R175, R217, R241, R246, R301: every step keeps the invariant: memory in canonical
form and in its place, the cursor within LEN, chains and records within their bounds, BUSY and DONE
never both 1, only numbered codes, known bytes in every counted record entry. -/
def Obligations.StepKeepsTheInvariant : Prop :=
  ∀ s t : State, s.Inv → step s = .next t → t.Inv

/-- R314: from every state that meets the invariant the step answers a next state; no input makes the
machine stop. -/
def Obligations.StepNeverStopsTheMachine : Prop := ∀ s : State, s.Inv → ∃ t, step s = .next t

/-! ### Frame starts -/

/-- R181, R184, R185, R156: an empty buffer is IncompleteFrame at 0, 0x68 alone is IncompleteFrame at 1,
another first byte is UnknownFrameStart at 0, LEN above MAX_LEN is LengthConfig at 0; in each case
FRAME.KIND is 0 and nothing is returned. -/
def Obligations.UnclassifiedBuffersFail : Prop :=
  (∀ s : State, exec .empty s = .next { s with eng := s.eng.stoppedFrame .incompleteFrame 0 0 }) ∧
  (∀ (b : Byte) (s : State),
    exec (.unknownStart b) s = .next { s with eng := s.eng.stoppedFrame .unknownFrameStart 0 0 }) ∧
  (∀ (p : Params) (l : Latch), l.len.toNat ≤ p.maxLen →
    (l.len = 0 → parse p l = ⟨frameFailure .incompleteFrame 0 0, []⟩) ∧
    (l.len = 1 → l.byte 0 = 0x68#8 → parse p l = ⟨frameFailure .incompleteFrame 1 0, []⟩) ∧
    (l.len ≠ 0 → l.byte 0 ∉ [0xE5#8, 0x10#8, 0x68#8] →
      parse p l = ⟨frameFailure .unknownFrameStart 0 0, []⟩)) ∧
  ∀ (p : Params) (l : Latch), p.maxLen < l.len.toNat →
    parse p l = ⟨frameFailure .lengthConfig 0 0, []⟩

/-- R182: ACK ends PARSE with OK, kind Ack, length 1, no record, every other result field 0; so does
the parse of every buffer that starts with 0xE5, whatever follows. -/
def Obligations.AckSucceedsWithNoRecord : Prop :=
  let ok := { Results.zero with recsValid := true, code := 0, kind := 1, frameLen := 1 }
  (∀ s : State, s.eng.Fresh →
    exec .ack s = .next { s with eng := { s.eng with phase := .stopped, recs := [], res := ok } }) ∧
  ∀ (p : Params) (l : Latch), l.len ≠ 0 → l.len.toNat ≤ p.maxLen → l.byte 0 = 0xE5#8 →
    parse p l = ⟨ok, []⟩

/-- R183, R190, R191, R199: SHORT checks completeness, checksum (C + A) mod 256, stop byte, in that
order, and on success captures C, A, the checksum and length 5, with OK and no record. -/
def Obligations.ShortFrameIsValidatedInOrder : Prop :=
  ∀ s : State, s.eng.Fresh → ∃ acc,
    exec .short s = .next { s with
      eng := { s.eng with
        phase := .stopped, recs := [], acc := acc
        res :=
          let l := s.eng.latch
          let sum := ((l.byte 1).toNat + (l.byte 2).toNat) % 256
          if l.len.toNat < 5 then frameFailure .incompleteFrame l.len.toNat 2
          else if (l.byte 3).toNat ≠ sum then frameFailure .checksumMismatch 3 2
          else if l.byte 4 ≠ 0x16#8 then frameFailure .badDelimiter 4 2
          else
            { Results.zero with
              recsValid := true, code := 0, kind := 2, frameLen := 5, c := l.byte 1, a := l.byte 2
              csRx := l.byte 3, csCalc := BitVec.ofNat 8 sum } } }

/-- R192 to R199, R210: LONG (with L = `l`) and CONTROL (L = 3) check, in order, the length copies'
presence, their equality, L at least 3, completeness, the second start byte, the checksum over
offsets 4 to L+3, the stop byte. Each failure is a frame-level failure at its offset with the kind
kept. On success every frame field is captured and the walk starts at 7 plus HDR_TABLE[CI], or stops
with TruncatedRecord at 7 when that passes the payload end. -/
def Obligations.LongFrameIsValidatedInOrder : Prop :=
  ∀ (s : State) (i : Instr) (big : Byte) (kind : BitVec 3), s.eng.Fresh →
    ((i = .long big ∧ kind = 3) ∨ (i = .control ∧ big = 3 ∧ kind = 4)) →
    ∃ e : Engine, exec i s = .next { s with eng := e } ∧
      let l := s.eng.latch
      let len := l.len.toNat
      let n := big.toNat
      let sum := l.sum 4 n % 256
      let failed := fun code off => ∃ acc, e = { s.eng.stoppedFrame code off kind with acc := acc }
      let captured :=
        { Results.zero with
          kind := kind, c := l.byte 4, a := l.byte 5, ci := l.byte 6, csRx := l.byte (n + 4)
          csCalc := BitVec.ofNat 8 sum, frameL := big, frameLen := BitVec.ofNat 16 (n + 6)
          payloadOff := 7, payloadLen := BitVec.ofNat 16 (n - 3) }
      if len < 3 then failed .incompleteFrame len
      else if big ≠ l.byte 2 then failed .lengthFieldMismatch 2
      else if n < 3 then failed .lengthFieldMismatch 1
      else if len < n + 6 then failed .incompleteFrame len
      else if l.byte 3 ≠ 0x68#8 then failed .badDelimiter 3
      else if (l.byte (n + 4)).toNat ≠ sum then failed .checksumMismatch (n + 4)
      else if l.byte (n + 5) ≠ 0x16#8 then failed .badDelimiter (n + 5)
      else if n - 3 < l.hdr (l.byte 6) then
        e = { s.eng with lim := n + 4, acc := BitVec.ofNat 8 sum, res := captured }.stoppedKeeping
          .truncatedRecord 7
      else
        e = { s.eng with
          phase := .loopHead, pos := 7 + l.hdr (l.byte 6), lim := n + 4
          acc := BitVec.ofNat 8 sum, res := captured }

/-- R196: flipping any single bit of C, A, CI or the payload of a valid long frame gives
ChecksumMismatch at the checksum byte and nothing else. -/
def Obligations.SingleBitFlipIsAChecksumMismatch : Prop :=
  ∀ (p : Params) (l l' : Latch) (i k : Nat), l.ValidLong → l.len.toNat ≤ p.maxLen →
    4 ≤ i → i < (l.byte 1).toNat + 4 → k < 8 → l'.len = l.len →
    l'.byte i = l.byte i ^^^ (1#8 <<< k) → (∀ j, j ≠ i → l'.byte j = l.byte j) →
    parse p l' = ⟨frameFailure .checksumMismatch ((l.byte 1).toNat + 4)
      (if l.byte 1 = 3 then 4 else 3), []⟩

/-- R175, R194, R190, R181, R184: truncating a buffer with a valid frame anywhere inside the frame gives
IncompleteFrame at the new length and no record. -/
def Obligations.TruncationIsIncompleteFrame : Prop :=
  ∀ (p : Params) (l : Latch) (n : Half), l.len.toNat ≤ p.maxLen → n.toNat ≤ l.len.toNat →
    ((l.byte 0 = 0xE5#8 ∧ n.toNat < 1) ∨ (l.ValidShort ∧ n.toNat < 5) ∨
      (l.ValidLong ∧ n.toNat < (l.byte 1).toNat + 6)) →
    (parse p { l with len := n }).res.code = Code.incompleteFrame.num ∧
      (parse p { l with len := n }).res.errOffset = n ∧ (parse p { l with len := n }).recs = []

/-- R116, R102, R103: a buffer built by SHORT, LONG (at most 252 payload bytes) or CONTROL holds a valid
frame. -/
def Obligations.BuiltFramesAreValid : Prop :=
  (∀ (l : Latch) (c a : Byte), l.Holds (buildShort c a) → l.ValidShort) ∧
  (∀ (l : Latch) (c a ci : Byte) (payload : List Byte), payload.length ≤ 252 →
    l.Holds (buildLong c a ci payload) →
    l.ValidLong ∧ (l.byte 1).toNat = payload.length + 3) ∧
  (∀ (l : Latch) (c a ci : Byte), l.Holds (buildControl c a ci) → l.ValidLong ∧ l.byte 1 = 3)

/-- R198: after a valid long frame the frame registers hold its fields whatever the walk reports. -/
def Obligations.ValidLongFrameIsCapturedWhateverTheWalkReports : Prop :=
  ∀ (p : Params) (l : Latch), l.ValidLong → l.len.toNat ≤ p.maxLen →
    let r := (parse p l).res
    r.kind = (if l.byte 1 = 3 then 4 else 3) ∧ r.frameL = l.byte 1 ∧
      r.frameLen.toNat = (l.byte 1).toNat + 6 ∧ r.c = l.byte 4 ∧ r.a = l.byte 5 ∧ r.ci = l.byte 6 ∧
      r.csRx = l.byte ((l.byte 1).toNat + 4) ∧ r.csCalc = r.csRx ∧ r.payloadOff = 7 ∧
      r.payloadLen.toNat = (l.byte 1).toNat - 3

/-! ### The record walk -/

/-- R212: the DIF 0x2F is FILLER; it returns to the loop head and changes nothing else. -/
def Obligations.FillerIsSkipped : Prop :=
  (∀ tail rest, decode (.difHead tail) (0x2F#8 :: rest) = .ok (.filler, rest)) ∧
  ∀ s : State, exec .filler s = .next { s with eng := { s.eng with phase := .loopHead } }

/-- R213, R217: a manufacturer marker (DIF 0x1F, or 0x0F with CFG.MFR_TAIL = 0) emits one record holding
the rest of the payload, every field not named 0, and stops with OK; when the record memory is full it
stops with RecordLimit at the marker. -/
def Obligations.ManufacturerBlockIsOneOpaqueRecord : Prop :=
  (∀ tail rest, decode (.difHead tail) (0x1F#8 :: rest) = .ok (.mfrBlock, rest)) ∧
  (∀ rest, decode (.difHead false) (0x0F#8 :: rest) = .ok (.mfrBlock0F, rest)) ∧
  ∀ (s : State) (i : Instr) (dif : Byte),
    ((i = .mfrBlock ∧ dif = 0x1F#8) ∨ (i = .mfrBlock0F ∧ dif = 0x0F#8)) →
    (s.eng.recs.length ≠ s.params.maxRecords →
      exec i s = .next { s with
        eng := { s.eng with
          pos := s.eng.lim
          recs := s.eng.recs ++
            [{ dif := dif, vif := 0, kind := .manufacturer, dife := [], vife := []
               bcdBad := false, valWide := false, signed := false
               recOff := BitVec.ofNat 16 s.eng.rs, valueOff := BitVec.ofNat 16 s.eng.pos
               valueLen := BitVec.ofNat 16 (s.eng.lim - s.eng.pos)
               unit := 0, exp := 0, storage := 0, subunit := 0, tariff := 0, lvar := 0, value := 0 }]
          phase := .stopped
          res := { s.eng.res with
            code := 0, errOffset := 0, recsValid := true
            recCount := BitVec.ofNat 16 (s.eng.recs.length + 1) } } }) ∧
    (s.eng.recs.length = s.params.maxRecords →
      exec i s = .next { s with eng := s.eng.stoppedKeeping .recordLimit s.eng.rs })

/-- R214: the terminator 0x0F (CFG.MFR_TAIL = 1) stops with TrailingData at the next byte when one
follows, else with OK; the records are kept and none is added. DIF 0x1F is no terminator. -/
def Obligations.EndOfUserDataTerminates : Prop :=
  (∀ rest, decode (.difHead true) (0x0F#8 :: rest) = .ok (.endOfUserData, rest)) ∧
  (∀ rest, decode (.difHead true) (0x1F#8 :: rest) = .ok (.mfrBlock, rest)) ∧
  ∀ s : State,
    exec .endOfUserData s = .next { s with
      eng :=
        if s.eng.pos < s.eng.lim then s.eng.stoppedKeeping .trailingData s.eng.pos
        else s.eng.stoppedKeeping .ok 0 }

/-- R215, R245, R269, R220: another special DIF stops with Unsupported at the DIF, a plain-text VIF at
the VIF, an LVAR byte at or above 0xD0 at the LVAR byte; the records before are kept. -/
def Obligations.UnsupportedCodesKeepEarlierRecords : Prop :=
  (∀ (b : Byte) tail rest, b.toNat % 16 = 15 → b ∉ [0x0F#8, 0x1F#8, 0x2F#8] →
    decode (.difHead tail) (b :: rest) = .ok (.specialOther (difBits b), rest)) ∧
  (∀ (b : Byte) rest, 0xD0 ≤ b.toNat →
    ∃ i, decode .lvar (b :: rest) = .ok (i, rest) ∧ IsUnsupportedCode i b) ∧
  (∀ (d : DifBits) (s : State),
    exec (.specialOther d) s = .next { s with eng := s.eng.stoppedKeeping .unsupported s.eng.rs }) ∧
  (∀ (m : Bool) (code : BitVec 7) (s : State),
    exec (.vifPlaintext m code) s = .next { s with
      eng := { s.eng.stoppedKeeping .unsupported (s.eng.pos - 1) with
        vif := BitVec.ofNat 8 (128 * m.toNat + code.toNat) } }) ∧
  (∀ (i : Instr) (b : Byte) (s : State), IsUnsupportedCode i b →
    exec i s = .next { s with
      eng := { s.eng.stoppedKeeping .unsupported (s.eng.pos - 1) with lvar := b } })

/-- R241, R246, R219, R249: a DIFE (VIFE) byte is appended raw to its chain; with bit 7 clear the VIF
(the value) comes next; with bit 7 set another extension byte does, or, when it was the tenth, the
walk stops with MalformedDIFChain at it and no record is kept. -/
def Obligations.ExtensionBytesExtendTheirChain : Prop :=
  (∀ (m u : Bool) (t : BitVec 2) (sn : BitVec 4) (s : State), s.eng.dife.length < 10 →
    let b : Byte := BitVec.ofNat 8 (128 * m.toNat + 64 * u.toNat + 16 * t.toNat + sn.toNat)
    let e := { s.eng with dife := s.eng.dife ++ [b] }
    exec (.dife m u t sn) s = .next { s with
      eng :=
        if m = false then { e with phase := .vif }
        else if s.eng.dife.length = 9 then e.stoppedMalformed (s.eng.pos - 1)
        else { e with phase := .dife } }) ∧
  (∀ (m : Bool) (raw : BitVec 7) (s : State), s.eng.vife.length < 10 →
    let e := { s.eng with vife := s.eng.vife ++ [BitVec.ofNat 8 (128 * m.toNat + raw.toNat)] }
    exec (.vife m raw) s = .next { s with
      eng :=
        if m = false then { e with phase := .value }
        else if s.eng.vife.length = 9 then e.stoppedMalformed (s.eng.pos - 1)
        else { e with phase := .vife } })

/-- R245, R247: a VIF is latched with an empty chain; bit 7 says whether a VIFE or the value comes next. -/
def Obligations.VifIsLatched : Prop :=
  ∀ (m : Bool) (code : BitVec 7) (s : State),
    exec (.vif m code) s = .next { s with
      eng := { s.eng with
        vif := BitVec.ofNat 8 (128 * m.toNat + code.toNat), vife := []
        phase := if m then .vife else .value } }

/-- R241, R246, R305: an extension chain is over-long exactly when the byte before it and ten bytes in
it, all within the payload, have bit 7 set; it is reported at the tenth. -/
def Obligations.OverlongChainIsTheTenthByte : Prop :=
  ∀ (l : Latch) (lim pos off : Nat) (last : Byte),
    parseChain l lim Config.chainMax [] pos last = .overlong off ↔
      0x80 ≤ last.toNat ∧ (∀ j, j < 10 → pos + j < lim ∧ 0x80 ≤ (l.byte (pos + j)).toNat) ∧
        off = pos + 9

/-- R262, R75: an integer field of 1, 2, 3, 4, 6 or 8 bytes emits an Integer record whose VALUE is the
little-endian number read as two's complement when CFG.INT_SIGNED has the DIF's function field set,
else unsigned; SIGNED says which. The data fields 2 and 4 are integers unless the VIF's hint says
DATE or DATETIME. -/
def Obligations.IntegerFieldsAreSignedByFunctionField : Prop :=
  (∀ (d : DifBits) (f : Instr × BitVec 4 × Nat) (hint : Hint) rest, f ∈ integerFields d →
    (f.2.1 = 2 → hint ≠ .date) → (f.2.1 = 4 → hint ≠ .dateTime) →
    decode (.value hint) (difByte d f.2.1 :: rest) = .ok (f.1, rest)) ∧
  ∀ (d : DifBits) (s : State) (f : Instr × BitVec 4 × Nat), f ∈ integerFields d → s.Room f.2.2 →
    let n := f.2.2
    let raw := s.eng.latch.number s.eng.pos n
    let signed := s.eng.latch.cfg.intSigned.getLsbD d.fn.toNat
    let value : Int := if signed ∧ 2 ^ (8 * n - 1) ≤ raw then (raw : Int) - 2 ^ (8 * n) else raw
    exec f.1 s = .next { s with
      eng := s.eng.afterRecord (difByte d f.2.1) 0 n
        { s.headerRecord (difByte d f.2.1) .integer n with
          value := BitVec.ofInt 64 value, signed := signed } }

/-- R264, R274: a BCD field of 1, 2, 3, 4 or 6 bytes emits a BCD record whose VALUE is the decimal
number, or 0 with BCD_BAD when a nibble is above 9. -/
def Obligations.BcdFieldsAreDecimal : Prop :=
  (∀ (d : DifBits) (f : Instr × BitVec 4 × Nat) (hint : Hint) rest, f ∈ bcdFields d →
    decode (.value hint) (difByte d f.2.1 :: rest) = .ok (f.1, rest)) ∧
  ∀ (d : DifBits) (s : State) (f : Instr × BitVec 4 × Nat), f ∈ bcdFields d → s.Room f.2.2 →
    let n := f.2.2
    let l := s.eng.latch
    exec f.1 s = .next { s with
      eng := s.eng.afterRecord (difByte d f.2.1) 0 n
        { s.headerRecord (difByte d f.2.1) .bcd n with
          value := BitVec.ofNat 64 (l.decimal s.eng.pos n), bcdBad := l.badDigit s.eng.pos n } }

/-- R261, R263, R265, R270, R271: NoData and Selection have no value bytes and VALUE 0; Real, Date and
DateTime keep the little-endian word as it is; SIGNED is 0 whatever CFG.INT_SIGNED holds. Date and
DateTime are what data fields 2 and 4 are under the hints DATE and DATETIME. -/
def Obligations.RawFieldsKeepTheirBits : Prop :=
  (∀ (d : DifBits) (f : Instr × BitVec 4 × ValueKind × Nat) (hint : Hint) rest, f ∈ rawFields d →
    (f.2.2.1 = .date → hint = .date) → (f.2.2.1 = .dateTime → hint = .dateTime) →
    decode (.value hint) (difByte d f.2.1 :: rest) = .ok (f.1, rest)) ∧
  ∀ (d : DifBits) (s : State) (f : Instr × BitVec 4 × ValueKind × Nat), f ∈ rawFields d →
    s.Room f.2.2.2 →
    let n := f.2.2.2
    exec f.1 s = .next { s with
      eng := s.eng.afterRecord (difByte d f.2.1) 0 n
        { s.headerRecord (difByte d f.2.1) f.2.2.1 n with
          value := BitVec.ofNat 64 (s.eng.latch.number s.eng.pos n) } }

/-- R266, R267, R268: LVAR makes the LVAR byte due; LVAR 0x00 to 0xBF emits a Text record of that many
bytes with VALUE 0; LVAR 0xC0 to 0xCF emits an LvarBCD record of LVAR − 0xC0 bytes, decimal up to nine
bytes, VALUE 0 with VAL_WIDE beyond. -/
def Obligations.LvarFieldsFollowTheLvarByte : Prop :=
  (∀ (b : Byte) rest, b.toNat ≤ 0xBF →
    ∃ i, decode .lvar (b :: rest) = .ok (i, rest) ∧ IsTextCode i b) ∧
  (∀ (b : Byte) rest, 0xC0 ≤ b.toNat → b.toNat ≤ 0xCF →
    decode .lvar (b :: rest) = .ok (.lvarBcd (BitVec.ofNat 4 (b.toNat - 0xC0)), rest)) ∧
  (∀ (d : DifBits) (s : State),
    exec (.lvar d) s = .next { s with
      eng := { s.eng with dif := difByte d 0xD, phase := .lvar } }) ∧
  (∀ (i : Instr) (b : Byte) (s : State), IsTextCode i b → s.Room b.toNat →
    exec i s = .next { s with
      eng := s.eng.afterRecord s.eng.dif b b.toNat
        { s.headerRecord s.eng.dif .text b.toNat with lvar := b } }) ∧
  (∀ (n : BitVec 4) (s : State), s.Room n.toNat →
    let l := s.eng.latch
    let b : Byte := BitVec.ofNat 8 (0xC0 + n.toNat)
    exec (.lvarBcd n) s = .next { s with
      eng := s.eng.afterRecord s.eng.dif b n.toNat
        { s.headerRecord s.eng.dif .lvarBcd n.toNat with
          lvar := b
          value := if 9 < n.toNat then 0 else BitVec.ofNat 64 (l.decimal s.eng.pos n.toNat)
          bcdBad := l.badDigit s.eng.pos n.toNat
          valWide := decide (9 < n.toNat) } })

/-- R218, R260: a field whose value bytes are not all in the payload stops with TruncatedRecord at its
record's DIF; nothing is consumed, no record is emitted, the records before are kept. -/
def Obligations.MissingValueBytesAreTruncatedRecord : Prop :=
  (∀ (d : DifBits) (s : State) (f : Instr × BitVec 4 × Nat), f ∈ fixedFields d →
    s.eng.lim - s.eng.pos < f.2.2 →
    exec f.1 s = .next { s with
      eng := { s.eng.stoppedKeeping .truncatedRecord s.eng.rs with
        dif := difByte d f.2.1, lvar := 0 } }) ∧
  (∀ (i : Instr) (b : Byte) (s : State), IsTextCode i b → s.eng.lim - s.eng.pos < b.toNat →
    exec i s = .next { s with
      eng := { s.eng.stoppedKeeping .truncatedRecord s.eng.rs with lvar := b } }) ∧
  (∀ (n : BitVec 4) (s : State), s.eng.lim - s.eng.pos < n.toNat →
    exec (.lvarBcd n) s = .next { s with
      eng := { s.eng.stoppedKeeping .truncatedRecord s.eng.rs with
        lvar := BitVec.ofNat 8 (0xC0 + n.toNat) } })

/-- R217: a complete record that finds the record memory full stops with RecordLimit at its DIF; the
records stored before are kept. (The record's offset field has 16 bits: so does ERR_OFFSET.) -/
def Obligations.FullRecordMemoryIsRecordLimit : Prop :=
  (∀ (d : DifBits) (s : State) (f : Instr × BitVec 4 × Nat), f ∈ fixedFields d →
    f.2.2 ≤ s.eng.lim - s.eng.pos → s.eng.recs.length = s.params.maxRecords →
    exec f.1 s = .next { s with
      eng := { s.eng.stoppedKeeping .recordLimit s.eng.rs with
        dif := difByte d f.2.1, lvar := 0, pos := s.eng.pos + f.2.2 } }) ∧
  (∀ (i : Instr) (b : Byte) (s : State), IsTextCode i b → b.toNat ≤ s.eng.lim - s.eng.pos →
    s.eng.recs.length = s.params.maxRecords →
    exec i s = .next { s with
      eng := { s.eng.stoppedKeeping .recordLimit s.eng.rs with
        lvar := b, pos := s.eng.pos + b.toNat } }) ∧
  (∀ (n : BitVec 4) (s : State), n.toNat ≤ s.eng.lim - s.eng.pos →
    s.eng.recs.length = s.params.maxRecords →
    exec (.lvarBcd n) s = .next { s with
      eng := { s.eng.stoppedKeeping .recordLimit s.eng.rs with
        lvar := BitVec.ofNat 8 (0xC0 + n.toNat), pos := s.eng.pos + n.toNat } })

/-- R242, R243, R244: STORAGE, TARIFF and SUBUNIT are the sums over DIF and DIFE chain that the rules write,
for every chain of at most ten bytes. -/
def Obligations.DifeDescriptorsAreTheirSums : Prop :=
  ∀ (dif : Byte) (dife : List Byte), dife.length ≤ 10 →
    (storageNumber (dif.getLsbD 6) dife).toNat =
      dif.toNat / 64 % 2 + ∑ j ∈ Finset.range dife.length, ((dife.getD j 0).toNat % 16) * 2 ^ (4 * j + 1) ∧
    (tariffNumber dife).toNat =
      ∑ j ∈ Finset.range dife.length, ((dife.getD j 0).toNat / 16 % 4) * 2 ^ (2 * j) ∧
    (subunitNumber dife).toNat =
      ∑ j ∈ Finset.range dife.length, ((dife.getD j 0).toNat / 64 % 2) * 2 ^ j

/-- R248: the default `VIF_TABLE` row by row. Every row but 0x13 is general knowledge (G9). -/
def Obligations.DefaultVifTableRows : Prop :=
  ∀ code : BitVec 7,
    let v := code.toNat
    let row := vifLookup defaultVifTable code
    let is := fun (unit : Nat) (exp : Int) (hint : Hint) =>
      row.unit = BitVec.ofNat 8 unit ∧ row.exp = BitVec.ofInt 8 exp ∧ row.hint = hint
    if v < 0x08 then is 0x01 (v % 8 - 3) .normal
    else if v < 0x10 then is 0x02 (v % 8) .normal
    else if v < 0x18 then is 0x03 (v % 8 - 6) .normal
    else if v < 0x20 then is 0x04 (v % 8 - 3) .normal
    else if v < 0x28 then is (0x05 + (v - 0x20)) 0 .normal
    else if v < 0x30 then is 0x0D (v % 8 - 3) .normal
    else if v < 0x38 then is 0x0E (v % 8) .normal
    else if v < 0x40 then is 0x0F (v % 8 - 6) .normal
    else if v < 0x48 then is 0x10 (v % 8 - 7) .normal
    else if v < 0x50 then is 0x11 (v % 8 - 9) .normal
    else if v < 0x58 then is 0x12 (v % 8 - 3) .normal
    else if v < 0x6C then is (0x13 + (v - 0x58) / 4) (v % 4 - 3) .normal
    else if v = 0x6C then is 0x18 0 .date
    else if v = 0x6D then is 0x19 0 .dateTime
    else if v = 0x6E then is 0x1A 0 .normal
    else if v = 0x6F then is 0x00 0 .normal
    else if v < 0x7B then is (0x1B + (v - 0x70)) 0 .normal
    else if v = 0x7B then is 0x26 0 .ext
    else if v = 0x7C then is 0x27 0 .plainText
    else if v = 0x7D then is 0x28 0 .ext
    else if v = 0x7E then is 0x29 0 .any
    else is 0x2A 0 .mfr

/-- R48: the 64 bytes of a record memory entry, field by field, for chains of at most ten bytes. -/
def Obligations.RecordEntryLayout : Prop :=
  ∀ r : Record, r.dife.length ≤ 10 → r.vife.length ≤ 10 →
    let at' := fun (off n : Nat) => leNat ((r.bytes.drop off).take n)
    r.bytes.length = 64 ∧
    at' 0x00 1 = r.dif.toNat ∧ at' 0x01 1 = r.vif.toNat ∧
    at' 0x02 1 = r.kind.num.toNat + 16 * r.dife.length ∧
    at' 0x03 1 = r.vife.length + 16 * r.bcdBad.toNat + 32 * r.valWide.toNat + 64 * r.signed.toNat ∧
    at' 0x04 2 = r.recOff.toNat ∧ at' 0x06 2 = r.valueOff.toNat ∧
    at' 0x08 2 = r.valueLen.toNat ∧ at' 0x0A 1 = r.unit.toNat ∧ at' 0x0B 1 = r.exp.toNat ∧
    at' 0x0C 6 = r.storage.toNat ∧ at' 0x12 2 = r.subunit.toNat ∧
    at' 0x14 3 = r.tariff.toNat ∧ at' 0x17 1 = r.lvar.toNat ∧ at' 0x18 8 = r.value.toNat ∧
    (∀ k, k < 10 → at' (0x20 + k) 1 = (r.dife.getD k 0).toNat) ∧ at' 0x2A 2 = 0 ∧
    (∀ k, k < 10 → at' (0x2C + k) 1 = (r.vife.getD k 0).toNat) ∧ at' 0x36 10 = 0

/-! ### Whole parses -/

/-- R175, R155: PARSE depends on no byte of IN at or past LEN, and, when the buffer starts with a valid
frame, on no byte after the frame. -/
def Obligations.ParseReadsOnlyTheFrame : Prop :=
  (∀ (p : Params) (l l' : Latch), l.AgreeBelow l.len.toNat l' → parse p l = parse p l') ∧
  (∀ (p : Params) (l l' : Latch), l.byte 0 = 0xE5#8 → l.len ≠ 0 → l.AgreeBelow 1 l' →
    parse p l = parse p l') ∧
  (∀ (p : Params) (l l' : Latch), l.ValidShort → l.AgreeBelow 5 l' → parse p l = parse p l') ∧
  (∀ (p : Params) (l l' : Latch), l.ValidLong → l.AgreeBelow ((l.byte 1).toNat + 6) l' →
    parse p l = parse p l')

/-- R300, R301, R303, R304, R219, R46: every parse ends with one numbered code. A frame-level code
returns nothing but CODE, ERR_OFFSET and KIND. MalformedDIFChain keeps the frame registers and no
record. OK and the partial outcomes count exactly their records and are marked valid; OK has
ERR_OFFSET 0; an application-level outcome comes only after a valid long frame. -/
def Obligations.EveryParseEndsInOneOutcomeClass : Prop :=
  ∀ (p : Params) (l : Latch), p.Wf →
    let r := parse p l
    ∃ code : Code, r.res.code = code.num ∧
      (code.frameLevel = true →
        r.recs = [] ∧ ∃ off, r.res = frameFailure code off r.res.kind) ∧
      (code = .malformedDIFChain →
        l.ValidLong ∧ r.recs = [] ∧ r.res.recsValid = false ∧ r.res.recCount = 0 ∧
          r.res.frameLen.toNat = (l.byte 1).toNat + 6) ∧
      (code ∈ [.truncatedRecord, .trailingData, .unsupported, .recordLimit] →
        l.ValidLong ∧ r.res.recsValid = true ∧ r.res.recCount.toNat = r.recs.length) ∧
      (code = .ok →
        r.res.recsValid = true ∧ r.res.recCount.toNat = r.recs.length ∧ r.res.errOffset = 0 ∧
          (r.res.kind = 1 ∨ r.res.kind = 2 → r.recs = []))

/-- R216, R272, R212, R210, R211: the records of a parse lie in payload order, each within the payload:
its DIF is the byte at REC_OFF and its value ends at or before the payload end. Nothing but fillers
stands between the skipped header and the first record, nor between one record's end and the next. When
the parse of a long frame ends with OK, nothing but fillers stands after the last record (after the
header when there is none) either, save the terminator 0x0F as the last payload byte under
CFG.MFR_TAIL = 1 (R214). -/
def Obligations.RecordsTileThePayloadInOrder : Prop :=
  ∀ (p : Params) (l : Latch),
    let rs := (parse p l).recs
    let payloadEnd := (l.byte 1).toNat + 4
    let ends := (7 + l.hdr (l.byte 6)) :: rs.map fun r => r.valueOff.toNat + r.valueLen.toNat
    (∀ r ∈ rs, 7 ≤ r.recOff.toNat ∧ r.recOff.toNat < r.valueOff.toNat ∧
      r.valueOff.toNat + r.valueLen.toNat ≤ payloadEnd ∧ r.dif = l.byte r.recOff.toNat) ∧
    (∀ i (h : i < rs.length), ends.getD i 0 ≤ rs[i].recOff.toNat ∧
      ∀ k, ends.getD i 0 ≤ k → k < rs[i].recOff.toNat → l.byte k = 0x2F#8) ∧
    (l.byte 0 = 0x68#8 → (parse p l).res.code = Code.ok.num →
      ends.getD rs.length 0 ≤ payloadEnd ∧
      ∀ k, ends.getD rs.length 0 ≤ k → k < payloadEnd →
        l.byte k = 0x2F#8 ∨ (l.byte k = 0x0F#8 ∧ k + 1 = payloadEnd ∧ l.cfg.mfrTail = true))

/-- R217: with MAX_RECORDS at least 126 RecordLimit cannot occur. -/
def Obligations.RecordLimitNeedsASmallRecordMemory : Prop :=
  ∀ (p : Params) (l : Latch), 126 ≤ p.maxRecords → (parse p l).res.code ≠ Code.recordLimit.num

/-! ### Encodings -/

/-- R100 to R110: every dispatch code that is well formed in a context is decoded from its own bytes,
with every operand at every value, and the bytes after it are left. -/
def Obligations.DecodeOfEncodeIsTheCode : Prop :=
  ∀ (c : Context) (i : Instr) (rest : List Byte), i.wellFormed c = true → (i = .empty → rest = []) →
    decode c (encode i ++ rest) = .ok (i, rest)

/-- R100 to R110, R114: whatever the decoder reads is well formed in its context, and its bytes are the
ones it was read from: no two codes share bytes in one context. -/
def Obligations.DecodedCodeIsWellFormedAndKeepsItsBytes : Prop :=
  ∀ (c : Context) (i : Instr) (bytes rest : List Byte), decode c bytes = .ok (i, rest) →
    i.wellFormed c = true ∧ bytes = encode i ++ rest

/-- R104, R105, R106, R108, R110, R150: a few words written out from the spec's bit tables decode to the
codes they stand for. -/
def Obligations.WrittenOutWordsDecode : Prop :=
  decode .frameStart [0b11100101, 0] = .ok (.ack, [0]) ∧
  decode .frameStart [0b01101000, 0b00000011, 3] = .ok (.control, [3]) ∧
  decode .frameStart [0b01101000, 0b00000110] = .ok (.long 6, []) ∧
  decode (.difHead true) [0b00001111] = .ok (.endOfUserData, []) ∧
  decode (.difHead false) [0b01111111] = .ok (.specialOther ⟨false, true, 3⟩, []) ∧
  decode (.value .normal) [0b11100100] = .ok (.int32 ⟨true, true, 2⟩, []) ∧
  decode (.value .date) [0b00010010] = .ok (.date ⟨false, false, 1⟩, []) ∧
  decode .dife [0b11011010] = .ok (.dife true true 1 10, []) ∧
  decode (.vif defaultVifTable) [0b10010011] = .ok (.vif true 0x13, []) ∧
  decode (.vif defaultVifTable) [0b11111100] = .ok (.vifPlaintext true 0x7C, []) ∧
  decode .lvar [0b11001001] = .ok (.lvarBcd 9, []) ∧
  decode .ctrl [0b00000001, 0, 0, 0b10000000] = .ok (.start 0x40000000, [])
end

