-- ==== Sys2Proof/Laws/Memory.lean ====
section
/-! SUPPORT. The laws of memory: read after write, and the canonical form, which every operation keeps. -/

namespace Sys2Proof.Machine

/-! ### The regions of the window (R70) -/

theorem isHdr_iff {a : Nat} : isHdr a = true ↔ 0x100 ≤ a ∧ a < 0x200 := by
  rw [isHdr, Bool.and_eq_true, decide_eq_true_iff, decide_eq_true_iff]
  unfold hdrBase
  omega

theorem isIn_iff {p : Params} {a : Nat} : isIn p a = true ↔ 0x1000 ≤ a ∧ a < 0x1000 + p.maxLen := by
  rw [isIn, Bool.and_eq_true, decide_eq_true_iff, decide_eq_true_iff]
  unfold inBase
  omega

theorem isRec_iff {p : Params} {a : Nat} :
    isRec p a = true ↔ 0x2000 ≤ a ∧ a < 0x2000 + 64 * p.maxRecords := by
  rw [isRec, Bool.and_eq_true, decide_eq_true_iff, decide_eq_true_iff]
  unfold recBase
  omega

/-! ### Read after write -/

theorem Memory.find?_insert (m : List Host.Cell) (a b : Nat) (v : Byte) :
    Memory.find? (Memory.insert m a v) b = if a = b then some v else Memory.find? m b := by
  induction m with
  | nil => simp [Memory.insert, Memory.find?]
  | cons c m ih =>
    obtain ⟨k, w⟩ := c
    simp only [Memory.insert]
    split
    · simp [Memory.find?]
    · split
      · rename_i h; subst h; simp only [Memory.find?]; split <;> rfl
      · simp only [Memory.find?, ih]
        split
        · rename_i hne _; split
          · omega
          · rfl
        · rfl

/-- No entry at or below `a` is listed when every listed offset is above it. -/
theorem Memory.find?_eq_none (m : List Host.Cell) (a : Nat) (h : ∀ c ∈ m, c.1 ≠ a) :
    Memory.find? m a = none := by
  induction m with
  | nil => rfl
  | cons c m ih =>
    obtain ⟨k, w⟩ := c
    simp only [Memory.find?]
    rw [if_neg (h (k, w) (List.mem_cons_self ..))]
    exact ih fun c hc => h c (List.mem_cons_of_mem _ hc)

theorem Memory.mem_of_find? {m : List Host.Cell} {a : Nat} {v : Byte}
    (h : Memory.find? m a = some v) : (a, v) ∈ m := by
  induction m with
  | nil => simp [Memory.find?] at h
  | cons c m ih =>
    obtain ⟨k, w⟩ := c
    simp only [Memory.find?] at h
    split at h
    · rename_i hk; subst hk; cases h; exact List.mem_cons_self ..
    · exact List.mem_cons_of_mem _ (ih h)

theorem Memory.find?_erase (m : List Host.Cell) (a b : Nat)
    (h : m.Pairwise (fun c d => c.1 < d.1)) :
    Memory.find? (Memory.erase m a) b = if a = b then none else Memory.find? m b := by
  induction m with
  | nil => simp [Memory.erase, Memory.find?]
  | cons c m ih =>
    obtain ⟨k, w⟩ := c
    rw [List.pairwise_cons] at h
    simp only [Memory.erase]
    split
    · rename_i hk
      subst hk
      split
      · rename_i hb
        subst hb
        exact Memory.find?_eq_none m k fun c hc => by have := h.1 c hc; simp at this; omega
      · rename_i hb
        simp [Memory.find?, hb]
    · rename_i hk
      simp only [Memory.find?, ih h.2]
      split
      · rename_i hkb
        rw [if_neg (by omega)]
      · rfl

/-- Reading after a write: the byte written at its offset, every other byte as before. -/
theorem Memory.read_write (m : List Host.Cell) (a b : Nat) (v : Byte)
    (h : m.Pairwise (fun c d => c.1 < d.1)) :
    Memory.read (Memory.write m a v) b = if a = b then some v else Memory.read m b := by
  unfold Memory.write
  by_cases hu : Memory.unlisted a = some v
  · rw [if_pos hu]
    simp only [Memory.read, Memory.find?_erase m a b h]
    by_cases hab : a = b
    · subst hab; simp [hu]
    · simp [hab]
  · rw [if_neg hu]
    simp only [Memory.read, Memory.find?_insert]
    by_cases hab : a = b
    · simp [hab]
    · simp [hab]

/-! ### Canonical form -/

theorem Memory.wf_nil : Memory.Wf [] := ⟨List.Pairwise.nil, by simp⟩

theorem Memory.mem_insert {m : List Host.Cell} {a : Nat} {v : Byte} {c : Host.Cell}
    (h : c ∈ Memory.insert m a v) : c = (a, v) ∨ c ∈ m := by
  induction m with
  | nil => simpa [Memory.insert] using h
  | cons d m ih =>
    obtain ⟨k, w⟩ := d
    simp only [Memory.insert] at h
    split at h
    · simpa using h
    · split at h
      · rcases List.mem_cons.1 h with h | h
        · exact .inl h
        · exact .inr (List.mem_cons_of_mem _ h)
      · rcases List.mem_cons.1 h with h | h
        · exact .inr (h ▸ List.mem_cons_self ..)
        · exact (ih h).imp id (List.mem_cons_of_mem _)

theorem Memory.mem_erase {m : List Host.Cell} {a : Nat} {c : Host.Cell}
    (h : c ∈ Memory.erase m a) : c ∈ m := by
  induction m with
  | nil => simp [Memory.erase] at h
  | cons d m ih =>
    obtain ⟨k, w⟩ := d
    simp only [Memory.erase] at h
    split at h
    · exact List.mem_cons_of_mem _ h
    · rcases List.mem_cons.1 h with h | h
      · exact h ▸ List.mem_cons_self ..
      · exact List.mem_cons_of_mem _ (ih h)

theorem Memory.rising_insert {m : List Host.Cell} (a : Nat) (v : Byte)
    (h : m.Pairwise (fun c d => c.1 < d.1)) :
    (Memory.insert m a v).Pairwise (fun c d => c.1 < d.1) := by
  induction m with
  | nil => simp [Memory.insert]
  | cons d m ih =>
    obtain ⟨k, w⟩ := d
    have hc := List.pairwise_cons.1 h
    simp only [Memory.insert]
    split
    · rename_i hak
      refine List.pairwise_cons.2 ⟨fun c hcm => ?_, h⟩
      rcases List.mem_cons.1 hcm with rfl | hcm
      · exact hak
      · have := hc.1 c hcm; simp at this ⊢; omega
    · split
      · rename_i hak; subst hak
        exact List.pairwise_cons.2 ⟨hc.1, hc.2⟩
      · refine List.pairwise_cons.2 ⟨fun c hcm => ?_, ih hc.2⟩
        rcases Memory.mem_insert hcm with rfl | hcm
        · simp; omega
        · exact hc.1 c hcm

theorem Memory.rising_erase {m : List Host.Cell} (a : Nat)
    (h : m.Pairwise (fun c d => c.1 < d.1)) :
    (Memory.erase m a).Pairwise (fun c d => c.1 < d.1) := by
  induction m with
  | nil => simp [Memory.erase]
  | cons d m ih =>
    obtain ⟨k, w⟩ := d
    have hc := List.pairwise_cons.1 h
    simp only [Memory.erase]
    split
    · exact hc.2
    · exact List.pairwise_cons.2 ⟨fun c hcm => hc.1 c (Memory.mem_erase hcm), ih hc.2⟩

/-- A write keeps the canonical form. -/
theorem Memory.wf_write {m : List Host.Cell} (a : Nat) (v : Byte) (h : Memory.Wf m) :
    Memory.Wf (Memory.write m a v) := by
  unfold Memory.write
  split
  · exact ⟨Memory.rising_erase a h.1, fun c hc => h.2 c (Memory.mem_erase hc)⟩
  · rename_i hu
    refine ⟨Memory.rising_insert a v h.1, fun c hc => ?_⟩
    rcases Memory.mem_insert hc with rfl | hc
    · exact hu
    · exact h.2 c hc

/-- Dropping the record memory keeps the canonical form. -/
theorem Memory.wf_ram {m : List Host.Cell} (h : Memory.Wf m) : Memory.Wf (Memory.ram m) :=
  ⟨h.1.filter _, fun c hc => h.2 c (List.mem_filter.1 hc).1⟩

theorem cellsFrom_le {a : Nat} {bs : List Byte} {c : Host.Cell} (h : c ∈ cellsFrom a bs) : a ≤ c.1 := by
  induction bs generalizing a with
  | nil => simp [cellsFrom] at h
  | cons b bs ih =>
    rcases List.mem_cons.1 h with rfl | h
    · exact le_refl _
    · exact le_trans (Nat.le_succ a) (ih h)

theorem cellsFrom_lt {a : Nat} {bs : List Byte} {c : Host.Cell} (h : c ∈ cellsFrom a bs) :
    c.1 < a + bs.length := by
  induction bs generalizing a with
  | nil => simp [cellsFrom] at h
  | cons b bs ih =>
    rcases List.mem_cons.1 h with rfl | h
    · simp
    · have := ih h; simp; omega

theorem cellsFrom_rising (a : Nat) (bs : List Byte) :
    (cellsFrom a bs).Pairwise (fun c d => c.1 < d.1) := by
  induction bs generalizing a with
  | nil => exact List.Pairwise.nil
  | cons b bs ih =>
    exact List.pairwise_cons.2 ⟨fun c hc => Nat.lt_of_succ_le (cellsFrom_le hc), ih (a + 1)⟩

/-- The byte of consecutive cells at an offset. -/
theorem find?_cellsFrom (a i : Nat) (bs : List Byte) (h : i < bs.length) :
    Memory.find? (cellsFrom a bs) (a + i) = some bs[i] := by
  induction bs generalizing a i with
  | nil => simp at h
  | cons b bs ih =>
    cases i with
    | zero => simp [cellsFrom, Memory.find?]
    | succ i =>
      have := ih (a + 1) i (by simpa using h)
      simp only [cellsFrom, Memory.find?]
      rw [if_neg (by omega), show a + (i + 1) = a + 1 + i by omega, this]
      rfl

/-- Publishing records above the kept memory keeps the canonical form. -/
theorem Memory.wf_publish {m : List Host.Cell} (recs : List Record) (h : Memory.Wf m) :
    Memory.Wf (Memory.ram m ++ recCells recs) := by
  refine ⟨List.pairwise_append.2 ⟨(Memory.wf_ram h).1, cellsFrom_rising _ _, fun c hc d hd => ?_⟩,
    fun c hc => ?_⟩
  · have h1 : c.1 < recBase := by simpa using (List.mem_filter.1 hc).2
    exact lt_of_lt_of_le h1 (cellsFrom_le hd)
  · rcases List.mem_append.1 hc with hc | hc
    · exact (Memory.wf_ram h).2 c hc
    · have h1 := cellsFrom_le hc
      have h2 : ¬ c.1 < 512 := by simp only [recBase] at h1; omega
      simp [Memory.unlisted, isHdr, hdrBase, h2]

/-- The kept memory lists every offset below the record memory as before, and none above. -/
theorem Memory.find?_ram (m : List Host.Cell) (a : Nat) :
    Memory.find? (Memory.ram m) a = if a < recBase then Memory.find? m a else none := by
  induction m with
  | nil => simp [Memory.ram, Memory.find?]
  | cons c m ih =>
    obtain ⟨k, w⟩ := c
    simp only [Memory.ram, List.filter_cons] at ih ⊢
    by_cases hk : k < recBase
    · simp only [hk, decide_true, if_true, Memory.find?, ih]
      by_cases hka : k = a
      · subst hka; simp [hk]
      · simp [hka]
    · simp only [hk, decide_false, Bool.false_eq_true, if_false, ih, Memory.find?]
      by_cases hka : k = a
      · subst hka; simp [hk]
      · simp [hka]

/-- One lane of a host write keeps the canonical form. -/
theorem State.wf_writeByte {s : State} (a : Nat) (b : Byte) (h : Memory.Wf s.mem) :
    Memory.Wf (s.writeByte a b).mem := by
  unfold State.writeByte
  repeat' split
  all_goals first | exact h | exact Memory.wf_write a b h

theorem State.wf_writeLane {s : State} (off : Nat) (data : Word) (be : BitVec 4) (k : Nat)
    (h : Memory.Wf s.mem) : Memory.Wf (s.writeLane off data be k).mem := by
  unfold State.writeLane
  split
  · exact State.wf_writeByte _ _ h
  · exact h

/-- A host write keeps the canonical form. -/
theorem State.wf_hostWrite {s : State} (idx : Nat) (data : Word) (be : BitVec 4)
    (h : Memory.Wf s.mem) : Memory.Wf (s.hostWrite idx data be).mem := by
  have hw := State.wf_writeLane (4 * idx) data be 3 (State.wf_writeLane (4 * idx) data be 2
    (State.wf_writeLane (4 * idx) data be 1 (State.wf_writeLane (4 * idx) data be 0 h)))
  unfold State.hostWrite
  dsimp only
  split
  · exact hw
  · exact hw

/-- `complete` keeps the canonical form. -/
theorem State.wf_complete {s : State} (h : Memory.Wf s.mem) : Memory.Wf s.complete.mem := by
  unfold State.complete
  split
  · exact Memory.wf_publish [] h
  · exact Memory.wf_publish _ h

/-- An accepted START keeps the canonical form, in memory and in what it latches. -/
theorem State.wf_accept {s : State} (h : Memory.Wf s.mem) :
    Memory.Wf s.accept.mem ∧ Memory.Wf s.accept.eng.latch.mem := ⟨Memory.wf_ram h, Memory.wf_ram h⟩

/-- Memory at reset is canonical: nothing is listed. -/
theorem State.wf_reset : Memory.Wf State.reset.mem := Memory.wf_nil

/-- An entry of the record memory has 64 bytes (R48). -/
@[simp] theorem Record.bytes_length (r : Record) : r.bytes.length = 64 := by
  simp [Record.bytes, wordBytes, chainField]

end Sys2Proof.Machine
end

