-- ==== Sys2Proof/Laws/State.lean ====
section
/-! SUPPORT. What each update of the state leaves in each field: one lemma per field per update, all by
unfolding once, so that no later proof unfolds a record update. -/

namespace Sys2Proof.Machine

/-! ### `State.onEngine` -/

@[simp] theorem State.onEngine_params (s : State) (f : Engine → Engine) : (s.onEngine f).params = s.params := rfl
@[simp] theorem State.onEngine_cfg (s : State) (f : Engine → Engine) : (s.onEngine f).cfg = s.cfg := rfl
@[simp] theorem State.onEngine_len (s : State) (f : Engine → Engine) : (s.onEngine f).len = s.len := rfl
@[simp] theorem State.onEngine_busy (s : State) (f : Engine → Engine) : (s.onEngine f).busy = s.busy := rfl
@[simp] theorem State.onEngine_done (s : State) (f : Engine → Engine) : (s.onEngine f).done = s.done := rfl
@[simp] theorem State.onEngine_res (s : State) (f : Engine → Engine) : (s.onEngine f).res = s.res := rfl
@[simp] theorem State.onEngine_mem (s : State) (f : Engine → Engine) : (s.onEngine f).mem = s.mem := rfl
@[simp] theorem State.onEngine_eng (s : State) (f : Engine → Engine) : (s.onEngine f).eng = f s.eng := rfl
@[simp] theorem State.onEngine_hazard (s : State) (f : Engine → Engine) : (s.onEngine f).hazard = s.hazard := rfl
@[simp] theorem State.onEngine_rdata (s : State) (f : Engine → Engine) : (s.onEngine f).rdata = s.rdata := rfl
@[simp] theorem State.onEngine_inEpoch (s : State) (f : Engine → Engine) : (s.onEngine f).inEpoch = s.inEpoch := rfl
@[simp] theorem State.onEngine_recEpoch (s : State) (f : Engine → Engine) : (s.onEngine f).recEpoch = s.recEpoch := rfl
@[simp] theorem State.onEngine_draws (s : State) (f : Engine → Engine) : (s.onEngine f).draws = s.draws := rfl
@[simp] theorem State.onEngine_turns (s : State) (f : Engine → Engine) : (s.onEngine f).turns = s.turns := rfl

/-! ### `State.accept` -/

@[simp] theorem State.accept_params (s : State) : (s.accept).params = s.params := rfl
@[simp] theorem State.accept_cfg (s : State) : (s.accept).cfg = s.cfg := rfl
@[simp] theorem State.accept_len (s : State) : (s.accept).len = s.len := rfl
@[simp] theorem State.accept_busy (s : State) : (s.accept).busy = true := rfl
@[simp] theorem State.accept_done (s : State) : (s.accept).done = false := rfl
@[simp] theorem State.accept_res (s : State) : (s.accept).res = Results.zero := rfl
@[simp] theorem State.accept_mem (s : State) : (s.accept).mem = Memory.ram s.mem := rfl
@[simp] theorem State.accept_eng (s : State) : (s.accept).eng = s.beginEngine := rfl
@[simp] theorem State.accept_hazard (s : State) : (s.accept).hazard = s.hazard := rfl
@[simp] theorem State.accept_rdata (s : State) : (s.accept).rdata = s.rdata := rfl
@[simp] theorem State.accept_inEpoch (s : State) : (s.accept).inEpoch = s.inEpoch := rfl
@[simp] theorem State.accept_recEpoch (s : State) : (s.accept).recEpoch = s.recEpoch + 1 := rfl
@[simp] theorem State.accept_draws (s : State) : (s.accept).draws = s.draws := rfl
@[simp] theorem State.accept_turns (s : State) : (s.accept).turns = s.turns := rfl

/-! ### `State.publish` -/

@[simp] theorem State.publish_params (s : State) (r : Results) (recs : List Record) : (s.publish r recs).params = s.params := rfl
@[simp] theorem State.publish_cfg (s : State) (r : Results) (recs : List Record) : (s.publish r recs).cfg = s.cfg := rfl
@[simp] theorem State.publish_len (s : State) (r : Results) (recs : List Record) : (s.publish r recs).len = s.len := rfl
@[simp] theorem State.publish_busy (s : State) (r : Results) (recs : List Record) : (s.publish r recs).busy = false := rfl
@[simp] theorem State.publish_done (s : State) (r : Results) (recs : List Record) : (s.publish r recs).done = true := rfl
@[simp] theorem State.publish_res (s : State) (r : Results) (recs : List Record) : (s.publish r recs).res = r := rfl
@[simp] theorem State.publish_mem (s : State) (r : Results) (recs : List Record) : (s.publish r recs).mem = Memory.ram s.mem ++ recCells recs := rfl
@[simp] theorem State.publish_eng (s : State) (r : Results) (recs : List Record) : (s.publish r recs).eng = s.eng := rfl
@[simp] theorem State.publish_hazard (s : State) (r : Results) (recs : List Record) : (s.publish r recs).hazard = s.hazard := rfl
@[simp] theorem State.publish_rdata (s : State) (r : Results) (recs : List Record) : (s.publish r recs).rdata = s.rdata := rfl
@[simp] theorem State.publish_inEpoch (s : State) (r : Results) (recs : List Record) : (s.publish r recs).inEpoch = s.inEpoch := rfl
@[simp] theorem State.publish_recEpoch (s : State) (r : Results) (recs : List Record) : (s.publish r recs).recEpoch = s.recEpoch + 1 := rfl
@[simp] theorem State.publish_draws (s : State) (r : Results) (recs : List Record) : (s.publish r recs).draws = s.draws := rfl
@[simp] theorem State.publish_turns (s : State) (r : Results) (recs : List Record) : (s.publish r recs).turns = s.turns := rfl

/-! ### `State.markHazard` -/

@[simp] theorem State.markHazard_params (s : State) : (s.markHazard).params = s.params := rfl
@[simp] theorem State.markHazard_cfg (s : State) : (s.markHazard).cfg = s.cfg := rfl
@[simp] theorem State.markHazard_len (s : State) : (s.markHazard).len = s.len := rfl
@[simp] theorem State.markHazard_busy (s : State) : (s.markHazard).busy = s.busy := rfl
@[simp] theorem State.markHazard_done (s : State) : (s.markHazard).done = s.done := rfl
@[simp] theorem State.markHazard_res (s : State) : (s.markHazard).res = s.res := rfl
@[simp] theorem State.markHazard_mem (s : State) : (s.markHazard).mem = s.mem := rfl
@[simp] theorem State.markHazard_eng (s : State) : (s.markHazard).eng = { s.eng with tainted := true } := rfl
@[simp] theorem State.markHazard_hazard (s : State) : (s.markHazard).hazard = true := rfl
@[simp] theorem State.markHazard_rdata (s : State) : (s.markHazard).rdata = s.rdata := rfl
@[simp] theorem State.markHazard_inEpoch (s : State) : (s.markHazard).inEpoch = s.inEpoch := rfl
@[simp] theorem State.markHazard_recEpoch (s : State) : (s.markHazard).recEpoch = s.recEpoch := rfl
@[simp] theorem State.markHazard_draws (s : State) : (s.markHazard).draws = s.draws := rfl
@[simp] theorem State.markHazard_turns (s : State) : (s.markHazard).turns = s.turns := rfl

/-! ### `State.hostRead` -/

@[simp] theorem State.hostRead_params (s : State) (idx : Nat) : (s.hostRead idx).params = s.params := rfl
@[simp] theorem State.hostRead_cfg (s : State) (idx : Nat) : (s.hostRead idx).cfg = s.cfg := rfl
@[simp] theorem State.hostRead_len (s : State) (idx : Nat) : (s.hostRead idx).len = s.len := rfl
@[simp] theorem State.hostRead_busy (s : State) (idx : Nat) : (s.hostRead idx).busy = s.busy := rfl
@[simp] theorem State.hostRead_done (s : State) (idx : Nat) : (s.hostRead idx).done = s.done := rfl
@[simp] theorem State.hostRead_res (s : State) (idx : Nat) : (s.hostRead idx).res = s.res := rfl
@[simp] theorem State.hostRead_mem (s : State) (idx : Nat) : (s.hostRead idx).mem = s.mem := rfl
@[simp] theorem State.hostRead_eng (s : State) (idx : Nat) : (s.hostRead idx).eng = s.eng := rfl
@[simp] theorem State.hostRead_hazard (s : State) (idx : Nat) : (s.hostRead idx).hazard = s.hazard := rfl
@[simp] theorem State.hostRead_rdata (s : State) (idx : Nat) : (s.hostRead idx).rdata = s.readWord idx := rfl
@[simp] theorem State.hostRead_inEpoch (s : State) (idx : Nat) : (s.hostRead idx).inEpoch = s.inEpoch := rfl
@[simp] theorem State.hostRead_recEpoch (s : State) (idx : Nat) : (s.hostRead idx).recEpoch = s.recEpoch := rfl
@[simp] theorem State.hostRead_draws (s : State) (idx : Nat) : (s.hostRead idx).draws = if s.busy && s.isResultWord idx then s.draws + 1 else s.draws := rfl
@[simp] theorem State.hostRead_turns (s : State) (idx : Nat) : (s.hostRead idx).turns = s.turns := rfl

/-! ### `State.resetAll` -/

@[simp] theorem State.resetAll_params (s : State) : (s.resetAll).params = s.params := rfl
@[simp] theorem State.resetAll_cfg (s : State) : (s.resetAll).cfg = Cfg.reset := rfl
@[simp] theorem State.resetAll_len (s : State) : (s.resetAll).len = 0 := rfl
@[simp] theorem State.resetAll_busy (s : State) : (s.resetAll).busy = false := rfl
@[simp] theorem State.resetAll_done (s : State) : (s.resetAll).done = false := rfl
@[simp] theorem State.resetAll_res (s : State) : (s.resetAll).res = Results.zero := rfl
@[simp] theorem State.resetAll_mem (s : State) : (s.resetAll).mem = [] := rfl
@[simp] theorem State.resetAll_eng (s : State) : (s.resetAll).eng = Engine.reset := rfl
@[simp] theorem State.resetAll_hazard (s : State) : (s.resetAll).hazard = false := rfl
@[simp] theorem State.resetAll_rdata (s : State) : (s.resetAll).rdata = s.rdata := rfl
@[simp] theorem State.resetAll_inEpoch (s : State) : (s.resetAll).inEpoch = s.inEpoch + 1 := rfl
@[simp] theorem State.resetAll_recEpoch (s : State) : (s.resetAll).recEpoch = s.recEpoch + 1 := rfl
@[simp] theorem State.resetAll_draws (s : State) : (s.resetAll).draws = s.draws := rfl
@[simp] theorem State.resetAll_turns (s : State) : (s.resetAll).turns = s.turns := rfl

/-! ### `State.beginEngine` -/

@[simp] theorem State.beginEngine_phase (s : State) : (s.beginEngine).phase = .frameStart := rfl
@[simp] theorem State.beginEngine_latch (s : State) : (s.beginEngine).latch = ⟨Memory.ram s.mem, s.inEpoch, s.len, s.cfg⟩ := rfl
@[simp] theorem State.beginEngine_tainted (s : State) : (s.beginEngine).tainted = false := rfl
@[simp] theorem State.beginEngine_pos (s : State) : (s.beginEngine).pos = 0 := rfl
@[simp] theorem State.beginEngine_lim (s : State) : (s.beginEngine).lim = s.len.toNat := rfl
@[simp] theorem State.beginEngine_rs (s : State) : (s.beginEngine).rs = 0 := rfl
@[simp] theorem State.beginEngine_acc (s : State) : (s.beginEngine).acc = 0 := rfl
@[simp] theorem State.beginEngine_dif (s : State) : (s.beginEngine).dif = 0 := rfl
@[simp] theorem State.beginEngine_vif (s : State) : (s.beginEngine).vif = 0 := rfl
@[simp] theorem State.beginEngine_lvar (s : State) : (s.beginEngine).lvar = 0 := rfl
@[simp] theorem State.beginEngine_dife (s : State) : (s.beginEngine).dife = [] := rfl
@[simp] theorem State.beginEngine_vife (s : State) : (s.beginEngine).vife = [] := rfl
@[simp] theorem State.beginEngine_recs (s : State) : (s.beginEngine).recs = [] := rfl
@[simp] theorem State.beginEngine_res (s : State) : (s.beginEngine).res = Results.zero := rfl

/-! ### `Engine.stop` -/

@[simp] theorem Engine.stop_phase (e : Engine) (code : Code) (off : Nat) : (e.stop code off).phase = .stopped := rfl
@[simp] theorem Engine.stop_latch (e : Engine) (code : Code) (off : Nat) : (e.stop code off).latch = e.latch := rfl
@[simp] theorem Engine.stop_tainted (e : Engine) (code : Code) (off : Nat) : (e.stop code off).tainted = e.tainted := rfl
@[simp] theorem Engine.stop_pos (e : Engine) (code : Code) (off : Nat) : (e.stop code off).pos = e.pos := rfl
@[simp] theorem Engine.stop_lim (e : Engine) (code : Code) (off : Nat) : (e.stop code off).lim = e.lim := rfl
@[simp] theorem Engine.stop_rs (e : Engine) (code : Code) (off : Nat) : (e.stop code off).rs = e.rs := rfl
@[simp] theorem Engine.stop_acc (e : Engine) (code : Code) (off : Nat) : (e.stop code off).acc = e.acc := rfl
@[simp] theorem Engine.stop_dif (e : Engine) (code : Code) (off : Nat) : (e.stop code off).dif = e.dif := rfl
@[simp] theorem Engine.stop_vif (e : Engine) (code : Code) (off : Nat) : (e.stop code off).vif = e.vif := rfl
@[simp] theorem Engine.stop_lvar (e : Engine) (code : Code) (off : Nat) : (e.stop code off).lvar = e.lvar := rfl
@[simp] theorem Engine.stop_dife (e : Engine) (code : Code) (off : Nat) : (e.stop code off).dife = e.dife := rfl
@[simp] theorem Engine.stop_vife (e : Engine) (code : Code) (off : Nat) : (e.stop code off).vife = e.vife := rfl
@[simp] theorem Engine.stop_recs (e : Engine) (code : Code) (off : Nat) : (e.stop code off).recs = if code.keepsRecords then e.recs else [] := rfl
@[simp] theorem Engine.stop_res (e : Engine) (code : Code) (off : Nat) : (e.stop code off).res = stopResults code off e.recs.length e.res := rfl

/-! ### `Engine.setKind` -/

@[simp] theorem Engine.setKind_phase (e : Engine) (k : BitVec 3) : (e.setKind k).phase = e.phase := rfl
@[simp] theorem Engine.setKind_latch (e : Engine) (k : BitVec 3) : (e.setKind k).latch = e.latch := rfl
@[simp] theorem Engine.setKind_tainted (e : Engine) (k : BitVec 3) : (e.setKind k).tainted = e.tainted := rfl
@[simp] theorem Engine.setKind_pos (e : Engine) (k : BitVec 3) : (e.setKind k).pos = e.pos := rfl
@[simp] theorem Engine.setKind_lim (e : Engine) (k : BitVec 3) : (e.setKind k).lim = e.lim := rfl
@[simp] theorem Engine.setKind_rs (e : Engine) (k : BitVec 3) : (e.setKind k).rs = e.rs := rfl
@[simp] theorem Engine.setKind_acc (e : Engine) (k : BitVec 3) : (e.setKind k).acc = e.acc := rfl
@[simp] theorem Engine.setKind_dif (e : Engine) (k : BitVec 3) : (e.setKind k).dif = e.dif := rfl
@[simp] theorem Engine.setKind_vif (e : Engine) (k : BitVec 3) : (e.setKind k).vif = e.vif := rfl
@[simp] theorem Engine.setKind_lvar (e : Engine) (k : BitVec 3) : (e.setKind k).lvar = e.lvar := rfl
@[simp] theorem Engine.setKind_dife (e : Engine) (k : BitVec 3) : (e.setKind k).dife = e.dife := rfl
@[simp] theorem Engine.setKind_vife (e : Engine) (k : BitVec 3) : (e.setKind k).vife = e.vife := rfl
@[simp] theorem Engine.setKind_recs (e : Engine) (k : BitVec 3) : (e.setKind k).recs = e.recs := rfl
@[simp] theorem Engine.setKind_res (e : Engine) (k : BitVec 3) : (e.setKind k).res = { e.res with kind := k } := rfl

/-! ### Updates that are projections of one another -/

/-- Applying an engine operation twice is applying the composition. -/
@[simp] theorem State.onEngine_onEngine (s : State) (f g : Engine → Engine) :
    (s.onEngine f).onEngine g = s.onEngine (g ∘ f) := rfl

/-- An engine operation changes the engine only. -/
theorem State.onEngine_eq (s : State) (f : Engine → Engine) : s.onEngine f = { s with eng := f s.eng } :=
  rfl

end Sys2Proof.Machine
end

