-- ==== Sys2Proof/Laws/Ops.lean ====
section
/-! SUPPORT. What each shared operation can do, said once: the lemmas a proof cites instead of unfolding
the operation. -/

namespace Sys2Proof.Machine

/-! ### The cursor -/

@[simp] theorem Latch.slice_length (l : Latch) (a n : Nat) : (l.slice a n).length = n := by
  induction n generalizing a with
  | zero => rfl
  | succ n ih => simp [Latch.slice, ih]

theorem Latch.slice_getElem (l : Latch) (a n i : Nat) (h : i < n) :
    (l.slice a n)[i]'(by simpa using h) = l.byte (a + i) := by
  induction n generalizing a i with
  | zero => omega
  | succ n ih =>
    cases i with
    | zero => rfl
    | succ i =>
      have := ih (a + 1) i (by omega)
      simp only [Latch.slice, List.getElem_cons_succ, this]
      congr 1
      omega

/-- `take n` succeeds exactly when `n` bytes remain, and then reads them and advances by `n` (R173). -/
theorem Engine.take?_eq_some {e : Engine} {n : Nat} {bs : List Byte} {e' : Engine} :
    e.take? n = some (bs, e') ↔
      n ≤ e.lim - e.pos ∧ bs = e.latch.slice e.pos n ∧ e' = { e with pos := e.pos + n } := by
  unfold Engine.take? Engine.remaining
  by_cases h : e.lim - e.pos < n
  · simp [h]
  · simp only [h, if_false, Option.some.injEq, Prod.mk.injEq]
    constructor
    · rintro ⟨h1, h2⟩; exact ⟨by omega, h1.symm, h2.symm⟩
    · rintro ⟨_, h1, h2⟩; exact ⟨h1.symm, h2.symm⟩

/-- `take n` is OutOfBounds exactly when fewer than `n` bytes remain (R173). -/
theorem Engine.take?_eq_none {e : Engine} {n : Nat} : e.take? n = none ↔ e.lim - e.pos < n := by
  unfold Engine.take? Engine.remaining
  by_cases h : e.lim - e.pos < n <;> simp [h]

/-! ### Ending a parse -/

/-- A stop that keeps the records (R304). -/
theorem Engine.stop_of_keeps {e : Engine} {code : Code} {off : Nat} (h : code.keepsRecords = true) :
    e.stop code off = e.stoppedKeeping code off := by
  cases code <;> first | rfl | cases h

/-- MalformedDIFChain (R219). -/
theorem Engine.stop_malformed (e : Engine) (off : Nat) :
    e.stop .malformedDIFChain off = e.stoppedMalformed off := rfl

/-- A frame-level failure (R154). -/
theorem Engine.stop_of_frameLevel {e : Engine} {code : Code} {off : Nat}
    (h : code.frameLevel = true) : e.stop code off = e.stoppedFrame code off e.res.kind := by
  cases code <;> first | rfl | cases h

/-- Every code is of exactly one class (R301). -/
theorem Code.class_cases (code : Code) :
    (code.frameLevel = true ∧ code.keepsRecords = false) ∨
      (code.frameLevel = false ∧ code.keepsRecords = true) ∨ code = .malformedDIFChain := by
  cases code <;> simp [Code.frameLevel, Code.keepsRecords]

/-- Codes are told apart by their numbers (R301). -/
theorem Code.num_injective {c d : Code} (h : c.num = d.num) : c = d := by
  cases c <;> cases d <;> first | rfl | cases h

/-! ### Emitting a record -/

/-- `emit` with room goes on with the record appended (R217). -/
theorem Engine.emit_of_room {p : Params} {r : Record} {next : Engine → Engine} {e : Engine}
    (h : e.recs.length ≠ p.maxRecords) :
    e.emit p r next = next { e with recs := e.recs ++ [r] } := by
  unfold Engine.emit; rw [if_neg h]

/-- `emit` without room is RecordLimit at the record's offset (R217). -/
theorem Engine.emit_of_full {p : Params} {r : Record} {next : Engine → Engine} {e : Engine}
    (h : e.recs.length = p.maxRecords) :
    e.emit p r next = e.stoppedKeeping .recordLimit r.recOff.toNat := by
  unfold Engine.emit; rw [if_pos h, Engine.stop_of_keeps rfl]

/-! ### UNPACK's common part -/

/-- The value bytes are there and the record memory has room: the record is appended (R260). -/
theorem Engine.unpack_of_room {p : Params} {kind : ValueKind} {n : Nat} {dec : List Byte → Decoded}
    {e : Engine} (h : n ≤ e.lim - e.pos) (hr : e.recs.length ≠ p.maxRecords) :
    e.unpack p kind n dec =
      { e with
        pos := e.pos + n, phase := .loopHead
        recs := e.recs ++ [e.mkRecord p kind n (dec (e.latch.slice e.pos n))] } := by
  unfold Engine.unpack
  rw [Engine.take?_eq_some.2 ⟨h, rfl, rfl⟩]
  exact Engine.emit_of_room hr

/-- The value bytes are not all there: TruncatedRecord at the record's DIF (R218). -/
theorem Engine.unpack_of_short {p : Params} {kind : ValueKind} {n : Nat} {dec : List Byte → Decoded}
    {e : Engine} (h : e.lim - e.pos < n) :
    e.unpack p kind n dec = e.stoppedKeeping .truncatedRecord e.rs := by
  unfold Engine.unpack
  rw [Engine.take?_eq_none.2 h]
  exact Engine.stop_of_keeps rfl

/-- The value bytes are there but the record memory is full: RecordLimit (R217). -/
theorem Engine.unpack_of_full {p : Params} {kind : ValueKind} {n : Nat} {dec : List Byte → Decoded}
    {e : Engine} (h : n ≤ e.lim - e.pos) (hr : e.recs.length = p.maxRecords) :
    e.unpack p kind n dec =
      { e with pos := e.pos + n }.stoppedKeeping .recordLimit (BitVec.ofNat 16 e.rs).toNat := by
  unfold Engine.unpack
  rw [Engine.take?_eq_some.2 ⟨h, rfl, rfl⟩]
  exact Engine.emit_of_full hr

/-! ### The chains -/

/-- After a DIF or DIFE: the VIF, another DIFE, or an over-long chain (R241). -/
theorem Engine.afterDif_cases (e : Engine) (more : Bool) :
    (more = false ∧ e.afterDif more = { e with phase := .vif }) ∨
      (more = true ∧ e.dife.length ≠ Config.chainMax ∧ e.afterDif more = { e with phase := .dife }) ∨
      (more = true ∧ e.dife.length = Config.chainMax ∧
        e.afterDif more = e.stoppedMalformed (e.pos - 1)) := by
  unfold Engine.afterDif
  cases more
  · exact .inl ⟨rfl, rfl⟩
  · by_cases h : e.dife.length = Config.chainMax
    · exact .inr (.inr ⟨rfl, h, by simp only [h, if_true]; rfl⟩)
    · exact .inr (.inl ⟨rfl, h, by simp only [h, if_true, if_false]⟩)

/-- After a VIF or VIFE: the value, another VIFE, or an over-long chain (R246). -/
theorem Engine.afterVif_cases (e : Engine) (more : Bool) :
    (more = false ∧ e.afterVif more = { e with phase := .value }) ∨
      (more = true ∧ e.vife.length ≠ Config.chainMax ∧ e.afterVif more = { e with phase := .vife }) ∨
      (more = true ∧ e.vife.length = Config.chainMax ∧
        e.afterVif more = e.stoppedMalformed (e.pos - 1)) := by
  unfold Engine.afterVif
  cases more
  · exact .inl ⟨rfl, rfl⟩
  · by_cases h : e.vife.length = Config.chainMax
    · exact .inr (.inr ⟨rfl, h, by simp only [h, if_true]; rfl⟩)
    · exact .inr (.inl ⟨rfl, h, by simp only [h, if_true, if_false]⟩)

/-! ### The start of the walk -/

/-- The header skip: TruncatedRecord at 7, or the loop head behind the data header (R210). -/
theorem Engine.startWalk_cases (e : Engine) (l : Byte) :
    (l.toNat + 4 - 7 < e.latch.hdr e.res.ci ∧
        e.startWalk l = { e with lim := l.toNat + 4 }.stoppedKeeping .truncatedRecord 7) ∨
      (e.latch.hdr e.res.ci ≤ l.toNat + 4 - 7 ∧
        e.startWalk l = { e with
          lim := l.toNat + 4, phase := .loopHead, pos := 7 + e.latch.hdr e.res.ci }) := by
  unfold Engine.startWalk
  by_cases h : l.toNat + 4 - 7 < e.latch.hdr e.res.ci
  · exact .inl ⟨h, by simp only [h, if_true]; exact Engine.stop_of_keeps rfl⟩
  · exact .inr ⟨by omega, by simp only [h, if_false]⟩

/-! ### Fetching -/

/-- Taking a byte for a dispatch: the byte at the cursor, or TruncatedRecord (R218). -/
theorem State.fetchByte_cases (s : State) (c : Context) :
    (s.eng.pos < s.eng.lim ∧
        s.fetchByte c = .code c [s.eng.latch.byte s.eng.pos]
          { s with eng := { s.eng with pos := s.eng.pos + 1 } }) ∨
      (s.eng.lim ≤ s.eng.pos ∧
        s.fetchByte c = .ended { s with eng := s.eng.stoppedKeeping .truncatedRecord s.eng.rs }) := by
  unfold State.fetchByte
  by_cases h : s.eng.pos < s.eng.lim
  · refine .inl ⟨h, ?_⟩
    rw [Engine.take?_eq_some.2 ⟨by omega, rfl, rfl⟩]
    rfl
  · refine .inr ⟨by omega, ?_⟩
    rw [Engine.take?_eq_none.2 (by omega)]
    rfl

/-! ### Host accesses -/

/-- A host write marks the hazard or nothing, over the four lanes (R343). -/
theorem State.hostWrite_cases (s : State) (idx : Nat) (data : Word) (be : BitVec 4) :
    let t := (((s.writeLane (4 * idx) data be 0).writeLane (4 * idx) data be 1).writeLane
      (4 * idx) data be 2).writeLane (4 * idx) data be 3
    ((s.busy && touchesInput s.params (4 * idx) be) = true ∧ s.hostWrite idx data be = t.markHazard) ∨
      ((s.busy && touchesInput s.params (4 * idx) be) = false ∧ s.hostWrite idx data be = t) := by
  unfold State.hostWrite
  dsimp only
  by_cases h : (s.busy && touchesInput s.params (4 * idx) be) = true
  · exact .inl ⟨h, by rw [if_pos h]⟩
  · exact .inr ⟨by simpa using h, by rw [if_neg h]⟩

/-- One lane of a host write changes an input only: CFG, LEN, or a byte of HDR_TABLE or IN (R72). -/
theorem State.writeByte_cases (s : State) (a : Nat) (b : Byte) :
    (a = 4 ∧ s.writeByte a b = { s with cfg := ⟨b.extractLsb' 0 4, b.getLsbD 4⟩ }) ∨
      (a = 8 ∧ s.writeByte a b = { s with len := s.len.extractLsb' 8 8 ++ b }) ∨
      (a = 9 ∧ s.writeByte a b = { s with len := b ++ s.len.extractLsb' 0 8 }) ∨
      ((isHdr a || isIn s.params a) = true ∧
        s.writeByte a b = { s with mem := Memory.write s.mem a b }) ∨
      ((isHdr a || isIn s.params a) = false ∧ s.writeByte a b = s) := by
  unfold State.writeByte
  by_cases h4 : a = 4
  · exact .inl ⟨h4, by rw [if_pos h4]⟩
  by_cases h8 : a = 8
  · exact .inr (.inl ⟨h8, by rw [if_neg h4, if_pos h8]⟩)
  by_cases h9 : a = 9
  · exact .inr (.inr (.inl ⟨h9, by rw [if_neg h4, if_neg h8, if_pos h9]⟩))
  by_cases h : (isHdr a || isIn s.params a) = true
  · exact .inr (.inr (.inr (.inl ⟨h, by rw [if_neg h4, if_neg h8, if_neg h9, if_pos h]⟩)))
  · exact .inr (.inr (.inr (.inr
      ⟨by simpa using h, by rw [if_neg h4, if_neg h8, if_neg h9, if_neg h]⟩)))

/-- `complete` publishes any value after an input write, else what PARSE found (R153, R343). -/
theorem State.complete_cases (s : State) :
    (s.eng.tainted = true ∧
        s.complete = { s.publish (anyResults s.draws) [] with draws := s.draws + 1 }) ∨
      (s.eng.tainted = false ∧ s.complete = s.publish s.eng.res s.eng.recs) := by
  unfold State.complete
  cases h : s.eng.tainted
  · exact .inr ⟨rfl, rfl⟩
  · exact .inl ⟨rfl, rfl⟩

end Sys2Proof.Machine
end

