-- ==== Sys2Proof/Laws/PerInstr.lean ====
section
/-! SUPPORT. Statements made per dispatch code: one lemma for each constructor of `Instr`. -/

namespace Sys2Proof.Laws

/-- How many bytes of a frame, or of a bus word, a dispatch code is (spec/30_encoding.md R100 to R110,
R150): none for the empty buffer, two for the 0x68 frame starts, four for the CTRL word, else one. -/
def EncodedLength.bytes : Instr → Nat
  | .empty => 0
  | .control | .long _ => 2
  | .start _ => 4
  | .ack | .short | .unknownStart _ | .filler | .mfrBlock | .mfrBlock0F | .endOfUserData
  | .specialOther _ | .nodata _ | .int8 _ | .int16 _ | .date _ | .int24 _ | .int32 _
  | .datetime _ | .real32 _ | .int48 _ | .int64 _ | .selection _ | .bcd2 _ | .bcd4 _ | .bcd6 _
  | .bcd8 _ | .lvar _ | .bcd12 _ | .dife _ _ _ _ | .vif _ _ | .vifPlaintext _ _ | .vife _ _
  | .lvarTextLow _ | .lvarTextHigh _ | .lvarBcd _ | .lvarUnsupportedD _ | .lvarUnsupportedE _ => 1

/-- The encoder writes that many bytes. -/
def EncodedLength.Statement (i : Instr) : Prop := (encode i).length = EncodedLength.bytes i

theorem EncodedLength.empty : EncodedLength.Statement .empty := rfl
theorem EncodedLength.ack : EncodedLength.Statement .ack := rfl
theorem EncodedLength.short : EncodedLength.Statement .short := rfl
theorem EncodedLength.control : EncodedLength.Statement .control := rfl
theorem EncodedLength.long (x0 : Byte) :
    EncodedLength.Statement (.long x0) := rfl
theorem EncodedLength.unknownStart (x0 : Byte) :
    EncodedLength.Statement (.unknownStart x0) := rfl
theorem EncodedLength.filler : EncodedLength.Statement .filler := rfl
theorem EncodedLength.mfrBlock : EncodedLength.Statement .mfrBlock := rfl
theorem EncodedLength.mfrBlock0F : EncodedLength.Statement .mfrBlock0F := rfl
theorem EncodedLength.endOfUserData : EncodedLength.Statement .endOfUserData := rfl
theorem EncodedLength.specialOther (x0 : DifBits) :
    EncodedLength.Statement (.specialOther x0) := rfl
theorem EncodedLength.nodata (x0 : DifBits) :
    EncodedLength.Statement (.nodata x0) := rfl
theorem EncodedLength.int8 (x0 : DifBits) :
    EncodedLength.Statement (.int8 x0) := rfl
theorem EncodedLength.int16 (x0 : DifBits) :
    EncodedLength.Statement (.int16 x0) := rfl
theorem EncodedLength.date (x0 : DifBits) :
    EncodedLength.Statement (.date x0) := rfl
theorem EncodedLength.int24 (x0 : DifBits) :
    EncodedLength.Statement (.int24 x0) := rfl
theorem EncodedLength.int32 (x0 : DifBits) :
    EncodedLength.Statement (.int32 x0) := rfl
theorem EncodedLength.datetime (x0 : DifBits) :
    EncodedLength.Statement (.datetime x0) := rfl
theorem EncodedLength.real32 (x0 : DifBits) :
    EncodedLength.Statement (.real32 x0) := rfl
theorem EncodedLength.int48 (x0 : DifBits) :
    EncodedLength.Statement (.int48 x0) := rfl
theorem EncodedLength.int64 (x0 : DifBits) :
    EncodedLength.Statement (.int64 x0) := rfl
theorem EncodedLength.selection (x0 : DifBits) :
    EncodedLength.Statement (.selection x0) := rfl
theorem EncodedLength.bcd2 (x0 : DifBits) :
    EncodedLength.Statement (.bcd2 x0) := rfl
theorem EncodedLength.bcd4 (x0 : DifBits) :
    EncodedLength.Statement (.bcd4 x0) := rfl
theorem EncodedLength.bcd6 (x0 : DifBits) :
    EncodedLength.Statement (.bcd6 x0) := rfl
theorem EncodedLength.bcd8 (x0 : DifBits) :
    EncodedLength.Statement (.bcd8 x0) := rfl
theorem EncodedLength.lvar (x0 : DifBits) :
    EncodedLength.Statement (.lvar x0) := rfl
theorem EncodedLength.bcd12 (x0 : DifBits) :
    EncodedLength.Statement (.bcd12 x0) := rfl
theorem EncodedLength.dife (x0 : Bool) (x1 : Bool) (x2 : BitVec 2) (x3 : BitVec 4) :
    EncodedLength.Statement (.dife x0 x1 x2 x3) := rfl
theorem EncodedLength.vif (x0 : Bool) (x1 : BitVec 7) :
    EncodedLength.Statement (.vif x0 x1) := rfl
theorem EncodedLength.vifPlaintext (x0 : Bool) (x1 : BitVec 7) :
    EncodedLength.Statement (.vifPlaintext x0 x1) := rfl
theorem EncodedLength.vife (x0 : Bool) (x1 : BitVec 7) :
    EncodedLength.Statement (.vife x0 x1) := rfl
theorem EncodedLength.lvarTextLow (x0 : BitVec 7) :
    EncodedLength.Statement (.lvarTextLow x0) := rfl
theorem EncodedLength.lvarTextHigh (x0 : BitVec 6) :
    EncodedLength.Statement (.lvarTextHigh x0) := rfl
theorem EncodedLength.lvarBcd (x0 : BitVec 4) :
    EncodedLength.Statement (.lvarBcd x0) := rfl
theorem EncodedLength.lvarUnsupportedD (x0 : BitVec 4) :
    EncodedLength.Statement (.lvarUnsupportedD x0) := rfl
theorem EncodedLength.lvarUnsupportedE (x0 : BitVec 5) :
    EncodedLength.Statement (.lvarUnsupportedE x0) := rfl
theorem EncodedLength.start (x0 : BitVec 31) :
    EncodedLength.Statement (.start x0) := rfl

end Sys2Proof.Laws
end

