-- ==== Sys2Proof/Laws/Step.lean ====
section
/-! SUPPORT. What a step can be: the inversions a proof about `step` starts from. -/

namespace Sys2Proof.Machine

/-- A step is an engine turn or a host turn of the schedule. -/
theorem step_cases (s : State) :
    (s.turns = [] ∧ step s = s.engineTurn) ∨
      (∃ ts, s.turns = .engine :: ts ∧ step s = State.engineTurn { s with turns := ts }) ∨
      (∃ op ts, s.turns = .host op :: ts ∧ step s = State.hostTurn { s with turns := ts } op) := by
  unfold step
  match h : s.turns with
  | [] => exact .inl ⟨rfl, rfl⟩
  | .engine :: ts => exact .inr (.inl ⟨ts, rfl, rfl⟩)
  | .host op :: ts => exact .inr (.inr ⟨op, ts, rfl, rfl⟩)

/-- An engine turn, listed in the schedule or with none listed. -/
theorem step_of_engineNext {s : State} {ts : List Turn} (h : s.EngineNext ts) :
    step s = State.engineTurn { s with turns := ts } := by
  rcases h with ⟨h, rfl⟩ | h <;> unfold step <;> simp only [h]
  congr 1
  cases s
  exact congrArg _ h

/-- Every word of the window is decoded at its own address. -/
@[simp] theorem Params.wordIndex?_base_add (p : Params) (idx : BitVec 12) :
    p.wordIndex? (p.baseWord + idx.toNat) = some idx := by
  have := idx.isLt
  unfold Params.wordIndex? windowWords
  rw [if_pos (by omega), Nat.add_sub_cancel_left, BitVec.ofNat_toNat, BitVec.setWidth_eq]

/-- CTRL is decoded at the base. -/
@[simp] theorem Params.wordIndex?_base (p : Params) : p.wordIndex? p.baseWord = some 0 :=
  p.wordIndex?_base_add 0

/-- An address selects a word exactly when it is that word's. -/
theorem Params.wordIndex?_eq_some {p : Params} {addr : Nat} {idx : BitVec 12} :
    p.wordIndex? addr = some idx ↔ addr = p.baseWord + idx.toNat := by
  constructor
  · unfold Params.wordIndex? windowWords
    split
    · intro h
      rw [← Option.some.inj h, BitVec.toNat_ofNat]
      omega
    · nofun
  · rintro rfl
    exact p.wordIndex?_base_add idx

/-- An address selects no word exactly when it lies outside the window. -/
theorem Params.wordIndex?_eq_none {p : Params} {addr : Nat} :
    p.wordIndex? addr = none ↔ addr < p.baseWord ∨ p.baseWord + windowWords ≤ addr := by
  unfold Params.wordIndex?
  split <;> simp <;> omega

/-- A host turn: an access outside the window, a read, a CTRL write, another write, or a reset. -/
theorem State.hostTurn_cases (s : State) (op : HostOp) :
    (s.hostTurn op = .next s) ∨
      (∃ idx : BitVec 12, op = .read (s.params.baseWord + idx.toNat) ∧
        s.hostTurn op = .next (s.hostRead idx.toNat)) ∨
      (∃ data be, op = .write s.params.baseWord data be ∧ s.hostTurn op = s.ctrlWrite data be) ∨
      (∃ (idx : BitVec 12) (data : Word) (be : BitVec 4), idx ≠ 0 ∧
        op = .write (s.params.baseWord + idx.toNat) data be ∧
        s.hostTurn op = .next (s.hostWrite idx.toNat data be)) ∨
      (op = .reset ∧ s.hostTurn op = .next s.resetAll) := by
  unfold State.hostTurn
  match op with
  | .read addr =>
    cases h : s.params.wordIndex? addr with
    | none => exact .inl (by simp [h])
    | some idx =>
      exact .inr (.inl ⟨idx, by rw [Params.wordIndex?_eq_some.1 h], by simp [h, State.windowRead]⟩)
  | .write addr data be =>
    cases h : s.params.wordIndex? addr with
    | none => exact .inl (by simp [h])
    | some idx =>
      have ha := Params.wordIndex?_eq_some.1 h
      by_cases h0 : idx = 0
      · subst h0
        exact .inr (.inr (.inl ⟨data, be, by rw [ha]; rfl, by simp [h, State.windowWrite]⟩))
      · exact .inr (.inr (.inr (.inl ⟨idx, data, be, h0, by rw [ha], by simp only [h, State.windowWrite, if_neg h0]⟩)))
  | .reset => exact .inr (.inr (.inr (.inr ⟨rfl, rfl⟩)))

/-- An engine turn of a busy machine: `complete`, the end of PARSE, a dispatch, or no code. -/
theorem State.engineTurn_cases (s : State) :
    (s.busy = false ∧ s.engineTurn = .next s) ∨
      (s.busy = true ∧ s.eng.phase = .stopped ∧ s.engineTurn = .next s.complete) ∨
      (s.busy = true ∧ s.eng.phase ≠ .stopped ∧ ∃ t, s.fetch = .ended t ∧ s.engineTurn = .next t) ∨
      (s.busy = true ∧ s.eng.phase ≠ .stopped ∧ ∃ c bytes t i rest, s.fetch = .code c bytes t ∧
        decode c bytes = .ok (i, rest) ∧ s.engineTurn = exec i t) ∨
      (s.busy = true ∧ s.eng.phase ≠ .stopped ∧ ∃ c bytes t err, s.fetch = .code c bytes t ∧
        decode c bytes = .error err ∧ s.engineTurn = t.noCode err bytes) := by
  unfold State.engineTurn State.engineStep
  cases hb : s.busy
  · exact .inl ⟨rfl, rfl⟩
  · by_cases hp : s.eng.phase = .stopped
    · exact .inr (.inl ⟨rfl, hp, by simp [hp]⟩)
    · simp only [hp, if_true, if_false]
      cases hf : s.fetch with
      | ended t => exact .inr (.inr (.inl ⟨trivial, hp, t, rfl, rfl⟩))
      | code c bytes t =>
        cases hd : decode c bytes with
        | ok r =>
          exact .inr (.inr (.inr (.inl ⟨trivial, hp, c, bytes, t, r.1, r.2, rfl, hd, by simp [hd]⟩)))
        | error err =>
          exact .inr (.inr (.inr (.inr ⟨trivial, hp, c, bytes, t, err, rfl, hd, by simp [hd]⟩)))

end Sys2Proof.Machine
end

