-- ==== Sys2Proof/Tests/Slice0.lean ====
section
/-! SUPPORT. The model's own tests: ill-formed terms refused, every dispatch code decoded from a word
written out from the spec's encoding, one or two single steps per code against the vectors of
spec/95_test_vectors.md, and a witness for the hypotheses of each statement. -/

namespace Sys2Proof.Tests

open Sys2Proof Sys2Proof.Machine

/-! ### Well-formedness: one ill-formed term per check -/

theorem test_wf_refuses_frame_starts :
    [Instr.ack.wellFormed (.difHead false), Instr.empty.wellFormed .lvar, Instr.short.wellFormed .vife,
      Instr.control.wellFormed .dife, (Instr.long 3).wellFormed .frameStart,
      (Instr.long 4).wellFormed .ctrl, (Instr.unknownStart 0xE5).wellFormed .frameStart,
      (Instr.unknownStart 0x10).wellFormed .frameStart,
      (Instr.unknownStart 0x68).wellFormed .frameStart,
      (Instr.unknownStart 0).wellFormed .lvar] = List.replicate 10 false := by decide

theorem test_wf_refuses_special_difs :
    [Instr.filler.wellFormed .frameStart, Instr.mfrBlock.wellFormed (.value .normal),
      Instr.mfrBlock0F.wellFormed (.difHead true), Instr.endOfUserData.wellFormed (.difHead false),
      (Instr.specialOther ⟨false, false, 0⟩).wellFormed (.difHead false),
      (Instr.specialOther ⟨false, false, 1⟩).wellFormed (.difHead false),
      (Instr.specialOther ⟨false, false, 2⟩).wellFormed (.difHead false),
      (Instr.specialOther ⟨true, false, 2⟩).wellFormed .dife] = List.replicate 8 false := by decide

theorem test_wf_refuses_data_fields :
    [(Instr.int8 ⟨false, false, 0⟩).wellFormed (.difHead false),
      (Instr.int16 ⟨false, false, 0⟩).wellFormed (.value .date),
      (Instr.date ⟨false, false, 0⟩).wellFormed (.value .normal),
      (Instr.int32 ⟨false, false, 0⟩).wellFormed (.value .dateTime),
      (Instr.datetime ⟨false, false, 0⟩).wellFormed (.value .date)] = List.replicate 5 false := by decide

theorem test_wf_refuses_chain_bytes :
    [(Instr.dife false false 0 0).wellFormed .vife, (Instr.vife false 0).wellFormed .dife,
      (Instr.vif false 0x7C).wellFormed (.vif defaultVifTable),
      (Instr.vifPlaintext false 0x13).wellFormed (.vif defaultVifTable),
      (Instr.vif false 0x13).wellFormed .lvar] = List.replicate 5 false := by decide

theorem test_wf_refuses_lvar_and_start :
    [(Instr.lvarTextLow 0).wellFormed .ctrl, (Instr.lvarTextHigh 0).wellFormed (.value .normal),
      (Instr.lvarBcd 0).wellFormed .vife, (Instr.lvarUnsupportedD 0).wellFormed .dife,
      (Instr.lvarUnsupportedE 0).wellFormed .frameStart,
      (Instr.start 0).wellFormed .lvar] = List.replicate 6 false := by decide

/-! ### Decoding: every code from a word of the spec's tables -/

theorem test_decode_empty : decode .frameStart [] = .ok (.empty, []) := rfl
theorem test_decode_ack : decode .frameStart [0xE5] = .ok (.ack, []) := rfl
theorem test_decode_short : decode .frameStart [0x10, 0x7B] = .ok (.short, [0x7B]) := rfl
theorem test_decode_control : decode .frameStart [0x68, 0x03] = .ok (.control, []) := rfl
theorem test_decode_long : decode .frameStart [0x68, 0x06] = .ok (.long 0x06, []) := rfl
theorem test_decode_long_needs_second : decode .frameStart [0x68] = .error .needSecondByte := rfl
theorem test_decode_unknownStart : decode .frameStart [0x16] = .ok (.unknownStart 0x16, []) := rfl
theorem test_decode_filler : decode (.difHead false) [0b00101111] = .ok (.filler, []) := rfl
theorem test_decode_mfrBlock : decode (.difHead true) [0b00011111] = .ok (.mfrBlock, []) := rfl
theorem test_decode_mfrBlock0F : decode (.difHead false) [0x0F] = .ok (.mfrBlock0F, []) := rfl
theorem test_decode_endOfUserData : decode (.difHead true) [0x0F] = .ok (.endOfUserData, []) := rfl
theorem test_decode_specialOther :
    decode (.difHead false) [0b1_0_00_1111] = .ok (.specialOther ⟨true, false, 0⟩, []) := rfl
theorem test_decode_ordinary_dif : decode (.difHead false) [0x01] = .error .recordDif := rfl
theorem test_decode_nodata : decode (.value .normal) [0b0_1_00_0000] = .ok (.nodata ⟨false, true, 0⟩, []) := rfl
theorem test_decode_int8 : decode (.value .normal) [0b1_0_01_0001] = .ok (.int8 ⟨true, false, 1⟩, []) := rfl
theorem test_decode_int16 : decode (.value .dateTime) [0b0_0_10_0010] = .ok (.int16 ⟨false, false, 2⟩, []) := rfl
theorem test_decode_date : decode (.value .date) [0b0_0_11_0010] = .ok (.date ⟨false, false, 3⟩, []) := rfl
theorem test_decode_int24 : decode (.value .normal) [0b0_1_01_0011] = .ok (.int24 ⟨false, true, 1⟩, []) := rfl
theorem test_decode_int32 : decode (.value .date) [0b1_1_00_0100] = .ok (.int32 ⟨true, true, 0⟩, []) := rfl
theorem test_decode_datetime : decode (.value .dateTime) [0b0_0_00_0100] = .ok (.datetime ⟨false, false, 0⟩, []) := rfl
theorem test_decode_real32 : decode (.value .normal) [0b0_0_10_0101] = .ok (.real32 ⟨false, false, 2⟩, []) := rfl
theorem test_decode_int48 : decode (.value .normal) [0b0_1_11_0110] = .ok (.int48 ⟨false, true, 3⟩, []) := rfl
theorem test_decode_int64 : decode (.value .normal) [0b1_0_00_0111] = .ok (.int64 ⟨true, false, 0⟩, []) := rfl
theorem test_decode_selection : decode (.value .ext) [0b0_1_11_1000] = .ok (.selection ⟨false, true, 3⟩, []) := rfl
theorem test_decode_bcd2 : decode (.value .normal) [0b0_0_01_1001] = .ok (.bcd2 ⟨false, false, 1⟩, []) := rfl
theorem test_decode_bcd4 : decode (.value .any) [0b1_0_00_1010] = .ok (.bcd4 ⟨true, false, 0⟩, []) := rfl
theorem test_decode_bcd6 : decode (.value .mfr) [0b0_1_00_1011] = .ok (.bcd6 ⟨false, true, 0⟩, []) := rfl
theorem test_decode_bcd8 : decode (.value .normal) [0b0_0_10_1100] = .ok (.bcd8 ⟨false, false, 2⟩, []) := rfl
theorem test_decode_lvar : decode (.value .normal) [0b1_1_11_1101] = .ok (.lvar ⟨true, true, 3⟩, []) := rfl
theorem test_decode_bcd12 : decode (.value .normal) [0b0_0_00_1110] = .ok (.bcd12 ⟨false, false, 0⟩, []) := rfl
theorem test_decode_value_special : decode (.value .normal) [0x3F] = .error .dataFieldF := rfl
theorem test_decode_dife : decode .dife [0b1_0_10_0111] = .ok (.dife true false 2 7, []) := rfl
theorem test_decode_vif : decode (.vif defaultVifTable) [0b1_1101101] = .ok (.vif true 0x6D, []) := rfl
theorem test_decode_vifPlaintext :
    decode (.vif defaultVifTable) [0b0_1111100] = .ok (.vifPlaintext false 0x7C, []) := rfl
theorem test_decode_vife : decode .vife [0b0_0111100] = .ok (.vife false 0x3C, []) := rfl
theorem test_decode_lvarTextLow : decode .lvar [0b0_1111111] = .ok (.lvarTextLow 0x7F, []) := rfl
theorem test_decode_lvarTextHigh : decode .lvar [0b10_111111] = .ok (.lvarTextHigh 0x3F, []) := rfl
theorem test_decode_lvarBcd : decode .lvar [0b1100_1010] = .ok (.lvarBcd 0xA, []) := rfl
theorem test_decode_lvarUnsupportedD : decode .lvar [0b1101_0001] = .ok (.lvarUnsupportedD 1, []) := rfl
theorem test_decode_lvarUnsupportedE : decode .lvar [0b111_10010] = .ok (.lvarUnsupportedE 0x12, []) := rfl
theorem test_decode_start : decode .ctrl [0x01, 0, 0, 0] = .ok (.start 0, []) := rfl
theorem test_decode_ctrl_without_start : decode .ctrl [0xFE, 0xFF, 0, 0] = .error .noStart := rfl

/-! ### Small states -/

/-- A running parse whose buffer holds `bytes`, with the cursor, limit and stage given. -/
def running (phase : Phase) (bytes : List Byte) (pos lim : Nat) : State :=
  { State.reset with
    busy := true
    eng := { Engine.reset with
      phase := phase, latch := ⟨cellsFrom inBase bytes, 0, BitVec.ofNat 16 bytes.length, Cfg.reset⟩
      pos := pos, lim := lim } }

/-- A parse at the value of a record with VIF 0x13 whose DIF stood at 7. -/
def atValue (cfg : Cfg) (vif : Byte) (value : List Byte) : State :=
  let s := running .value (List.replicate 9 0 ++ value) 9 (9 + value.length)
  { s with eng := { s.eng with rs := 7, vif := vif, latch := { s.eng.latch with cfg := cfg } } }

/-- What the next state's engine shows of a stop: stage, code, offset, RECS_VALID, REC_COUNT. -/
def stopOf : Host.Outcome State Fault Refusal → Option (Phase × BitVec 4 × Half × Bool × Half)
  | .next t =>
    some (t.eng.phase, t.eng.res.code, t.eng.res.errOffset, t.eng.res.recsValid, t.eng.res.recCount)
  | _ => none

/-- What the next state's last record shows: kind, VALUE, BCD_BAD, VAL_WIDE, SIGNED. -/
def valueOf : Host.Outcome State Fault Refusal →
    Option (ValueKind × BitVec 64 × Bool × Bool × Bool)
  | .next t => t.eng.recs.getLast?.map fun r => (r.kind, r.value, r.bcdBad, r.valWide, r.signed)
  | _ => none

/-- Where the next state's last record lies: REC_OFF, VALUE_OFF, VALUE_LEN, and the cursor. -/
def placeOf : Host.Outcome State Fault Refusal → Option (Half × Half × Half × Nat)
  | .next t => t.eng.recs.getLast?.map fun r => (r.recOff, r.valueOff, r.valueLen, t.eng.pos)
  | _ => none

/-- The next state's stage and chains. -/
def chainOf : Host.Outcome State Fault Refusal → Option (Phase × Byte × List Byte × List Byte)
  | .next t => some (t.eng.phase, t.eng.vif, t.eng.dife, t.eng.vife)
  | _ => none

/-- The next state's captured frame fields: KIND, L, FRAME_LEN, C, A, CI, CS_RX, CS_CALC. -/
def frameOf : Host.Outcome State Fault Refusal →
    Option (BitVec 3 × Byte × Half × Byte × Byte × Byte × Byte × Byte)
  | .next t =>
    let r := t.eng.res
    some (r.kind, r.frameL, r.frameLen, r.c, r.a, r.ci, r.csRx, r.csCalc)
  | _ => none

/-- No DIF bits set. -/
def d0 : DifBits := ⟨false, false, 0⟩

/-! ### Frame starts (vectors S1, S2, V1 to V27) -/

theorem test_exec_empty : stopOf (exec .empty (running .frameStart [] 0 0)) =
    some (.stopped, 4, 0, false, 0) := by decide
theorem test_exec_ack : stopOf (exec .ack (running .frameStart [0xE5] 0 1)) =
    some (.stopped, 0, 0, true, 0) := by decide
theorem test_exec_ack_frame : frameOf (exec .ack (running .frameStart [0xE5] 0 1)) =
    some (1, 0, 1, 0, 0, 0, 0, 0) := by decide
theorem test_exec_short_S2 :
    frameOf (exec .short (running .frameStart [0x10, 0x7B, 0x8B, 0x06, 0x16] 0 5)) =
      some (2, 0, 5, 0x7B, 0x8B, 0, 0x06, 0x06) := by decide
theorem test_exec_short_V14 :
    stopOf (exec .short (running .frameStart [0x10, 0x7B, 0x8B, 0x07, 0x17] 0 5)) =
      some (.stopped, 5, 3, false, 0) := by decide
theorem test_exec_control_V27 :
    frameOf (exec .control
      (running .frameStart [0x68, 3, 3, 0x68, 0x53, 0xFE, 0x51, 0xA2, 0x16] 0 9)) =
      some (4, 3, 9, 0x53, 0xFE, 0x51, 0xA2, 0xA2) := by decide
theorem test_exec_control_V26 :
    stopOf (exec .control
      (running .frameStart [0x68, 3, 3, 0x68, 0x53, 0xFE, 0x51, 0xA2, 0x17] 0 9)) =
      some (.stopped, 2, 8, false, 0) := by decide
theorem test_exec_long_S4 :
    frameOf (exec (.long 6) (running .frameStart
      [0x68, 6, 6, 0x68, 8, 1, 0x72, 1, 0x13, 0x2A, 0xB9, 0x16] 0 12)) =
      some (3, 6, 12, 8, 1, 0x72, 0xB9, 0xB9) := by decide
theorem test_exec_long_S6 :
    stopOf (exec (.long 6) (running .frameStart
      [0x68, 6, 6, 0x68, 8, 1, 0x72, 1, 0x13, 0x2B, 0xB9, 0x16] 0 12)) =
      some (.stopped, 5, 10, false, 0) := by decide
theorem test_exec_unknownStart : stopOf (exec (.unknownStart 0x16) (running .frameStart [0x16] 0 1)) =
    some (.stopped, 1, 0, false, 0) := by decide
theorem test_step_lone_68 : stopOf (step (running .frameStart [0x68] 0 1)) =
    some (.stopped, 4, 1, false, 0) := by decide

/-! ### Record heads (vectors V101 to V110) -/

theorem test_step_filler : chainOf (step (running .loopHead [0x2F, 1] 0 2)) =
    some (.loopHead, 0, [], []) := by decide
theorem test_exec_mfrBlock : placeOf (exec .mfrBlock (running .loopHead [0x1F, 0xAA] 1 2)) =
    some (0, 1, 1, 2) := by decide
theorem test_exec_mfrBlock_full :
    stopOf (exec .mfrBlock { running .loopHead [0x1F] 1 1 with params := ⟨512, 0, [], 0⟩ }) =
      some (.stopped, 10, 0, true, 0) := by decide
theorem test_step_mfrBlock0F : valueOf (step (running .loopHead [0x0F, 0xAA, 0xBB] 0 3)) =
    some (.manufacturer, 0, false, false, false) := by decide
theorem test_exec_endOfUserData_V103 :
    stopOf (exec .endOfUserData (running .loopHead [0x0F, 0xAA, 0xBB] 1 3)) =
      some (.stopped, 8, 1, true, 0) := by decide
theorem test_exec_endOfUserData_V104 : stopOf (exec .endOfUserData (running .loopHead [0x0F] 1 1)) =
    some (.stopped, 0, 0, true, 0) := by decide
theorem test_step_specialOther_V110 : stopOf (step (running .loopHead [0, 0x8F, 0] 1 3)) =
    some (.stopped, 9, 1, true, 0) := by decide
theorem test_step_ordinary_dif : chainOf (step (running .loopHead [0x84, 0x10] 0 2)) =
    some (.dife, 0, [], []) := by decide

/-! ### Header chains (vectors V80 to V96) -/

theorem test_exec_dife_last : chainOf (exec (.dife false true 1 0xA) (running .dife [] 9 20)) =
    some (.vif, 0, [0x5A], []) := by decide
theorem test_exec_dife_tenth :
    stopOf (exec (.dife true false 0 0)
      { running .dife [] 18 22 with
        eng := { (running .dife [] 18 22).eng with dife := List.replicate 9 0x80 } }) =
      some (.stopped, 6, 17, false, 0) := by decide
theorem test_exec_vif : chainOf (exec (.vif true 0x13) (running .vif [] 9 20)) =
    some (.vife, 0x93, [], []) := by decide
theorem test_exec_vifPlaintext_V74 :
    stopOf (exec (.vifPlaintext false 0x7C) (running .vif [] 9 20)) =
      some (.stopped, 9, 8, true, 0) := by decide
theorem test_exec_vife : chainOf (exec (.vife false 0x3C) (running .vife [] 10 20)) =
    some (.value, 0, [], [0x3C]) := by decide
theorem test_step_missing_vif : stopOf (step { running .vif [0] 8 8 with
    eng := { (running .vif [0] 8 8).eng with rs := 7 } }) = some (.stopped, 7, 7, true, 0) := by decide

/-! ### Data fields (vectors V40 to V79) -/

theorem test_exec_nodata_V40 : valueOf (exec (.nodata d0) (atValue Cfg.reset 0x13 [])) =
    some (.noData, 0, false, false, false) := by decide
theorem test_exec_int8_V41 : valueOf (exec (.int8 d0) (atValue Cfg.reset 0x13 [0xFF])) =
    some (.integer, 0xFFFFFFFFFFFFFFFF, false, false, true) := by decide
theorem test_exec_int8_V76 :
    valueOf (exec (.int8 ⟨false, false, 1⟩) (atValue ⟨0xD, false⟩ 0x13 [0xFF])) =
      some (.integer, 0xFF, false, false, false) := by decide
theorem test_exec_int16_V73 : valueOf (exec (.int16 d0) (atValue Cfg.reset 0x13 [0x5F, 0x1C])) =
    some (.integer, 0x1C5F, false, false, true) := by decide
theorem test_exec_int16_V79 : stopOf (exec (.int16 d0) (atValue Cfg.reset 0x13 [0xFF])) =
    some (.stopped, 7, 7, true, 0) := by decide
theorem test_exec_date_V71 : valueOf (exec (.date d0) (atValue Cfg.reset 0x6C [0x5F, 0x1C])) =
    some (.date, 0x1C5F, false, false, false) := by decide
theorem test_exec_int24_V44 : valueOf (exec (.int24 d0) (atValue Cfg.reset 0x13 [0, 0, 0x80])) =
    some (.integer, 0xFFFFFFFFFF800000, false, false, true) := by decide
theorem test_exec_int32_V45 :
    valueOf (exec (.int32 d0) (atValue Cfg.reset 0x13 [0x78, 0x56, 0x34, 0x12])) =
      some (.integer, 0x12345678, false, false, true) := by decide
theorem test_exec_datetime_V72 :
    valueOf (exec (.datetime d0) (atValue Cfg.reset 0x6D [0x1E, 0x0C, 0x5F, 0x1C])) =
      some (.dateTime, 0x1C5F0C1E, false, false, false) := by decide
theorem test_exec_real32_V46 :
    valueOf (exec (.real32 d0) (atValue Cfg.reset 0x13 [0, 0, 0x80, 0x3F])) =
      some (.real, 0x3F800000, false, false, false) := by decide
theorem test_exec_int48_V47 :
    valueOf (exec (.int48 d0) (atValue Cfg.reset 0x13 [1, 2, 3, 4, 5, 6])) =
      some (.integer, 0x060504030201, false, false, true) := by decide
theorem test_exec_int64_V48 :
    valueOf (exec (.int64 d0) (atValue ⟨0, false⟩ 0x13 (List.replicate 8 0xFF))) =
      some (.integer, 0xFFFFFFFFFFFFFFFF, false, false, false) := by decide
theorem test_exec_selection_V49 : placeOf (exec (.selection d0) (atValue Cfg.reset 0x13 [1])) =
    some (7, 9, 0, 9) := by decide
theorem test_exec_bcd2_V57 : valueOf (exec (.bcd2 d0) (atValue Cfg.reset 0x13 [0x0A])) =
    some (.bcd, 0, true, false, false) := by decide
theorem test_exec_bcd4_V52 : valueOf (exec (.bcd4 d0) (atValue Cfg.reset 0x13 [0x34, 0x12])) =
    some (.bcd, 1234, false, false, false) := by decide
theorem test_exec_bcd6_V53 : valueOf (exec (.bcd6 d0) (atValue Cfg.reset 0x13 [0x56, 0x34, 0x12])) =
    some (.bcd, 123456, false, false, false) := by decide
theorem test_exec_bcd8_V58 :
    valueOf (exec (.bcd8 d0) (atValue Cfg.reset 0x13 [0x78, 0x56, 0x34, 0xF2])) =
      some (.bcd, 0, true, false, false) := by decide
theorem test_exec_bcd12_V55 :
    valueOf (exec (.bcd12 d0) (atValue Cfg.reset 0x13 [0x12, 0x90, 0x78, 0x56, 0x34, 0x12])) =
      some (.bcd, 123456789012, false, false, false) := by decide
theorem test_exec_lvar : chainOf (exec (.lvar d0) (atValue Cfg.reset 0x13 [3])) =
    some (.lvar, 0x13, [], []) := by decide
theorem test_exec_lvarTextLow_V59 :
    placeOf (exec (.lvarTextLow 3) (atValue Cfg.reset 0x13 [0x41, 0x42, 0x43])) =
      some (7, 9, 3, 12) := by decide
theorem test_exec_lvarTextHigh :
    placeOf (exec (.lvarTextHigh 1) (running .lvar [0x0D, 0x13, 0x81] 3 140)) =
      some (0, 3, 129, 132) := by decide
theorem test_exec_lvarBcd_V67 :
    valueOf (exec (.lvarBcd 9) (atValue Cfg.reset 0x13 (List.replicate 9 0x11))) =
      some (.lvarBcd, 0x18ABEF7846071C7, false, false, false) := by decide
theorem test_exec_lvarBcd_V68 :
    valueOf (exec (.lvarBcd 10) (atValue Cfg.reset 0x13 (List.replicate 10 0x11))) =
      some (.lvarBcd, 0, false, true, false) := by decide
theorem test_exec_lvarUnsupportedD_V70 : stopOf (exec (.lvarUnsupportedD 0) (atValue Cfg.reset 0x13 [])) =
    some (.stopped, 9, 8, true, 0) := by decide
theorem test_exec_lvarUnsupportedE_V69 : stopOf (exec (.lvarUnsupportedE 2) (atValue Cfg.reset 0x13 [])) =
    some (.stopped, 9, 8, true, 0) := by decide

/-! ### START, the register window, `complete` -/

/-- The step's STATUS word and HAZARD. -/
def statusOf : Host.Outcome State Fault Refusal → Option (Word × Bool)
  | .next t => some (t.status, t.hazard)
  | _ => none

/-- The step's LEN, CFG and known memory. -/
def inputsOf : Host.Outcome State Fault Refusal → Option (Half × Cfg × List Host.Cell)
  | .next t => some (t.len, t.cfg, t.mem)
  | _ => none

theorem test_exec_start_idle : statusOf (exec (.start 0) { State.reset with done := true }) =
    some (0x00000001, false) := by decide
theorem test_exec_start_busy : statusOf (exec (.start 0) (running .stopped [] 0 0)) =
    some (0x00000001, false) := by decide
theorem test_step_write_hdr_P2 :
    inputsOf (step { State.reset with turns := [.host (.write 0x5C 0x000C0000 0b0100)] }) =
      some (0, Cfg.reset, [(0x172, 0x0C)]) := by decide
theorem test_step_write_cfg :
    inputsOf (step { State.reset with turns := [.host (.write 1 0xFFFFFF13 0b1111)] }) =
      some (0, ⟨3, true⟩, []) := by decide
theorem test_step_write_status_ignored :
    statusOf (step { State.reset with turns := [.host (.write 3 0xFFFFFFFF 0b1111)] }) =
      some (0, false) := by decide
theorem test_step_write_len_while_busy :
    statusOf (step { running .stopped [] 0 0 with turns := [.host (.write 2 1 0b0011)] }) =
      some (1, true) := by decide
theorem test_step_complete_P3 :
    statusOf (step { running .stopped [] 0 0 with
      eng := { Engine.reset with
        phase := .stopped, res := { Results.zero with code := 7, recsValid := true } } }) =
      some (0x00000706, false) := by decide
theorem test_read_params : State.reset.readWord 10 = 0x00800200 := by decide
theorem test_vif_litre : vifLookup defaultVifTable 0x13 = ⟨0x03, 0xFD, .normal⟩ := by decide
theorem test_date_view : dateView 0x1C5F = ⟨31, 12, 10⟩ := by decide
theorem test_build_short : buildShort 0x7B 0x8B = [0x10, 0x7B, 0x8B, 0x06, 0x16] := by decide
theorem test_build_long : buildLong 8 1 0x72 [1, 0x13, 0x2A] =
    [0x68, 6, 6, 0x68, 8, 1, 0x72, 1, 0x13, 0x2A, 0xB9, 0x16] := by decide

/-! ### Opcode-table words -/

theorem test_table_word_control : decodeTableWord 16 0x0368 = some .control := rfl
theorem test_table_word_int8 : decodeTableWord 8 0x01 = some (.int8 d0) := rfl
theorem test_table_word_start : decodeTableWord 32 0x00000001 = some (.start 0) := rfl
theorem test_placed_word_runs : stopOf (step (State.reset.withFetchWord 8 0xD0)) =
    some (.stopped, 9, 0, true, 0) := by decide

/-! ### Witnesses: a state and operands that meet the hypotheses of each statement -/

/-- The bytes of vector S4: one long frame with one record. -/
def s4 : List Byte := [0x68, 6, 6, 0x68, 8, 1, 0x72, 1, 0x13, 0x2A, 0xB9, 0x16]

/-- Latched inputs holding some bytes, LEN covering them. -/
def latchOf (bs : List Byte) : Latch := ⟨cellsFrom inBase bs, 0, BitVec.ofNat 16 bs.length, Cfg.reset⟩

/-- A state after reset with one turn to come. -/
def oneTurn (t : Turn) : State := { State.reset with turns := [t] }

/-- The default parameters lie in the ranges of R6. -/
theorem witness_default_params : Params.default.Wf where
  maxLen_ge := by rw [show Params.default.maxLen = 512 from rfl]; omega
  maxLen_le := by rw [show Params.default.maxLen = 512 from rfl]; omega
  maxRecords_ge := by rw [show Params.default.maxRecords = 128 from rfl]; omega
  maxRecords_le := by rw [show Params.default.maxRecords = 128 from rfl]
  vifTable_length := rfl

/-- The results after reset. -/
theorem witness_zero_results : Results.zero.Wf Params.default :=
  ⟨Nat.zero_le _, Nat.zero_le _, fun _ => rfl, Nat.zero_le _⟩

/-- The working registers after reset. -/
theorem witness_reset_engine : Engine.reset.Inv Params.default where
  latch_wf := Memory.wf_nil
  pos_le := Nat.le_refl _
  lim_le := Nat.le_refl _
  len_le := fun h => absurd rfl h
  start := fun _ => ⟨rfl, rfl, rfl, rfl⟩
  record := nofun
  dife_le := Nat.zero_le _
  vife_le := Nat.zero_le _
  dife_room := nofun
  vife_room := nofun
  recs_le := Nat.zero_le _
  res_wf := witness_zero_results
  count := nofun

/-- An idle state with one turn to come meets the invariant. -/
theorem witness_inv_idle (t : Turn) : (oneTurn t).Inv where
  params_wf := witness_default_params
  mem_wf := Memory.wf_nil
  mem_place := nofun
  not_both := nofun
  engine := witness_reset_engine
  untainted := fun _ => rfl
  cleared := fun _ => rfl
  res_wf := fun _ => witness_zero_results
  entries := fun _ _ h1 h2 => absurd (Nat.lt_of_le_of_lt h1 h2) (Nat.lt_irrefl _)

/-- A parse that has ended with one manufacturer record and waits for `complete`. -/
def finished : State :=
  { State.reset with
    busy := true
    eng := { Engine.reset with
      phase := .stopped
      recs := [Engine.mfrRecord Engine.reset 0x1F]
      res := { Results.zero with recsValid := true, recCount := 1 } } }

/-- Statement CompletePublishesEverythingAtOnce, and the busy side of the invariant. -/
theorem witness_inv_finished : finished.Inv ∧ finished.busy = true ∧ finished.turns = [] ∧
    finished.eng.phase = .stopped ∧ finished.eng.tainted = false :=
  ⟨{ params_wf := witness_default_params
     mem_wf := Memory.wf_nil
     mem_place := nofun
     not_both := nofun
     engine :=
      { latch_wf := Memory.wf_nil
        pos_le := Nat.le_refl _
        lim_le := Nat.le_refl _
        len_le := fun _ h => absurd rfl h
        start := nofun
        record := nofun
        dife_le := Nat.zero_le _
        vife_le := Nat.zero_le _
        dife_room := nofun
        vife_room := nofun
        recs_le := witness_default_params.maxRecords_ge
        res_wf := ⟨Nat.zero_le _, Nat.zero_le _, nofun, witness_default_params.maxRecords_ge⟩
        count := fun _ => rfl }
     untainted := fun _ => rfl
     cleared := fun _ => rfl
     res_wf := fun _ => witness_zero_results
     entries := fun _ _ h1 h2 => absurd (Nat.lt_of_le_of_lt h1 h2) (Nat.lt_irrefl _) },
   rfl, rfl, rfl, rfl⟩

/-- ResetTurnRestoresTheResetTable, during a parse. -/
theorem witness_reset_turn :
    { running .dife [] 9 20 with turns := [.host .reset] }.turns = .host .reset :: [] := rfl

/-- HostReadChangesNothing; BusyReadsOfResultsAreFree at word 9, at the first and last words of the
record memory, and, in its other branch, at STATUS and the last word of IN. -/
theorem witness_busy_reads :
    (9#12).toNat ∈ [4, 5, 6, 7, 8, 9] ∧
    (0x2000 ≤ 4 * (0x800#12).toNat ∧ 4 * (0x800#12).toNat < 0x2000 + 64 * Params.default.maxRecords) ∧
    (0x2000 ≤ 4 * (0xFFF#12).toNat ∧ 4 * (0xFFF#12).toNat < 0x2000 + 64 * Params.default.maxRecords) ∧
    (3#12).toNat ∉ [4, 5, 6, 7, 8, 9] ∧ (0x47F#12).toNat ∉ [4, 5, 6, 7, 8, 9] ∧
    (running .dife [] 9 20).busy = true ∧
    { running .dife [] 9 20 with turns := [.host (.read 9)] }.turns =
      .host (.read (Params.default.baseWord + (9#12).toNat)) :: [] := by decide

/-- The state after reset with the window at the given base. -/
def atBase (b : Nat) : State := { State.reset with params := ⟨512, 128, defaultVifTable, b⟩ }

/-- A write of LEN through a window at 0x10000000: the word is decoded relative to the base. -/
theorem test_step_write_at_base :
    inputsOf (step { atBase 0x04000000 with turns := [.host (.write 0x04000002 7 0b0011)] }) =
      some (7, Cfg.reset, []) := by decide

/-- The same write to the same offset from another base does nothing. -/
theorem test_step_write_below_base :
    inputsOf (step { atBase 0x04000000 with turns := [.host (.write 2 7 0b0011)] }) =
      some (0, Cfg.reset, []) := by decide

/-- AccessOutsideTheWindowIsIgnored: just below and just above the window. -/
theorem witness_outside : 0x03FFFFFF < (atBase 0x04000000).params.baseWord ∧
    (atBase 0x04000000).params.baseWord + 0x1000 ≤ 0x04001000 ∧
    { atBase 0x04000000 with turns := [.host (.read 0x04001000)] }.turns =
      .host (.read 0x04001000) :: [] ∧
    { atBase 0x04000000 with turns := [.host (.write 0x03FFFFFF 1 1)] }.turns =
      .host (.write 0x03FFFFFF 1 1) :: [] := by decide

/-- RegisterWordLayout, idle and busy. -/
theorem witness_layout : State.reset.busy = false ∧ State.reset.params.Wf ∧
    (running .dife [] 9 20).busy = true := ⟨rfl, witness_default_params, rfl⟩

/-- WindowWordsAreTheirBytes: the first and last words of HDR_TABLE and IN while BUSY, the last word of
the record memory while idle, reserved bytes on both sides of IN and, with fewer records, past the
last entry. -/
theorem witness_window_words :
    (4 * 0x40 < 0x2000 ∧ 4 * 0x7F < 0x2000 ∧ 4 * 0x400 < 0x2000 ∧ 4 * 0x47F < 0x2000) ∧
    (0x1000 ≤ 0x11FF ∧ 0x11FF < 0x1000 + Params.default.maxLen) ∧
    (0x2000 ≤ 4 * 0xFFF ∧ 4 * 0xFFF < 0x2000 + 64 * Params.default.maxRecords) ∧
    (0x200 ≤ 0xFFF ∧ 0xFFF < 0x1000) ∧ (0x1000 + Params.default.maxLen ≤ 0x1200 ∧ 0x1200 < 0x2000) ∧
    (0x2000 + 64 * (Params.mk 512 1 defaultVifTable 0).maxRecords ≤ 0x2040 ∧ 0x2040 < 0x4000) := by
  decide

/-- HDR_TABLE bytes in their lanes. -/
theorem test_read_hdr_lanes :
    { State.reset with mem := [(0x170, 1), (0x172, 0x0C)] }.readWord 0x5C = 0x000C0001 := by decide

/-- IN bytes in their lanes, while BUSY. -/
theorem test_read_in_lanes_busy :
    { State.reset with busy := true, mem := cellsFrom inBase [1, 2, 3, 4] }.readWord 0x400 =
      0x04030201 := by decide

/-- A reserved word reads 0. -/
theorem test_read_reserved : [State.reset.readWord 0x80, State.reset.readWord 0x480,
    State.reset.readWord 0x0B] = [0, 0, 0] := by decide

/-- A parse that has ended, with other turns to come. -/
def finishedThen (ts : List Turn) : State := { finished with turns := ts }

/-- The invariant says nothing of the schedule. -/
theorem witness_inv_finishedThen (ts : List Turn) : (finishedThen ts).Inv :=
  let h := witness_inv_finished.1
  ⟨h.params_wf, h.mem_wf, h.mem_place, h.not_both, h.engine, h.untainted, h.cleared, h.res_wf,
    h.entries⟩

/-- HostWriteStoresItsLanes, idle and while BUSY, at CFG, LEN, STATUS (read-only), HDR_TABLE's first word,
a reserved word, IN's first and last words, the word past IN, and the record memory's last word. -/
theorem witness_host_write : ∀ idx ∈ [1#12, 2, 3, 0x40, 0x80, 0x400, 0x47F, 0x480, 0xFFF],
    let w : Turn := .host (.write (Params.default.baseWord + idx.toNat) 0x12345678 0xF)
    (oneTurn w).Inv ∧ (oneTurn w).turns = w :: [] ∧ (oneTurn w).busy = false ∧
      (finishedThen [w]).Inv ∧ (finishedThen [w]).turns = w :: [] ∧ (finishedThen [w]).busy = true ∧
      idx.toNat ≠ 0 := by
  intro idx h
  refine ⟨witness_inv_idle _, rfl, rfl, witness_inv_finishedThen _, rfl, rfl, ?_⟩
  revert idx
  decide

/-- The last word of IN takes the enabled lanes. -/
theorem test_step_write_last_in :
    inputsOf (step (oneTurn (.host (.write 0x47F 0x44332211 0b1010)))) =
      some (0, Cfg.reset, [(0x11FD, 0x22), (0x11FF, 0x44)]) := by decide

/-- The word past IN takes nothing. -/
theorem test_step_write_past_in :
    inputsOf (step (oneTurn (.host (.write 0x480 0x44332211 0b1111)))) =
      some (0, Cfg.reset, []) := by decide

/-- TaintedCompletionPublishesAnyValue, in both forms of the engine's turn. -/
theorem witness_tainted : ∀ ts ∈ [[], [Turn.engine]], let s := (finishedThen ts).markHazard
    s.busy = true ∧ s.EngineNext [] ∧ s.eng.phase = .stopped ∧ s.eng.tainted = true := by
  unfold State.EngineNext
  decide

/-- CompletePublishesEverythingAtOnce with the engine's turn listed and more to come. -/
theorem witness_complete_listed (ts : List Turn) : (finishedThen (.engine :: ts)).Inv ∧
    (finishedThen (.engine :: ts)).EngineNext ts := ⟨witness_inv_finishedThen _, .inr rfl⟩

/-- HazardIsStickyAndSetByInputWritesOnly: a step with HAZARD before it, and one that sets it. -/
theorem witness_hazard :
    (∃ t, step finished.markHazard = .next t ∧ finished.markHazard.hazard = true) ∧
      ∃ t, step { finished with turns := [.host (.write 2 1 1)] } = .next t ∧ finished.hazard = false ∧
        t.hazard = true := ⟨⟨_, rfl, rfl⟩, ⟨_, rfl, rfl, rfl⟩⟩

/-- IdleBlockKeepsItsState, StartLatchesInputsAndClearsResults, CtrlWriteRunsStart,
EngineTurnsComputeParse. -/
theorem witness_idle : State.reset.busy = false ∧ State.reset.turns = [] ∧
    (oneTurn .engine).turns = .engine :: [] ∧ finished.busy = true ∧
    (oneTurn (.host (.write 0 1 1))).turns = .host (.write 0 1 1) :: [] := by decide

/-- StepRunsTheDecodedCode, in both forms of the engine's turn. -/
theorem witness_fetch :
    let s := running .loopHead [0x2F] 0 1
    let t : State := { s with turns := [.engine] }
    s.busy = true ∧ s.eng.phase ≠ .stopped ∧ decode (.difHead false) [0x2F] = .ok (.filler, []) ∧
      s.EngineNext [] ∧ t.EngineNext [] ∧
      ∃ u, State.fetch { t with turns := [] } = .code (.difHead false) [0x2F] u :=
  ⟨rfl, by decide, rfl, .inl ⟨rfl, rfl⟩, .inr rfl, ⟨_, rfl⟩⟩

/-- PlacedWordRuns, in both of its branches. -/
theorem witness_placed : tableContext 32 1 = .ctrl ∧ decodeTableWord 32 1 = some (.start 0) ∧
    tableContext 8 0x2F ≠ .ctrl ∧ decodeTableWord 8 0x2F = some .filler := by decide

/-- PayloadEndIsOk, OrdinaryDifStartsItsRecord (with bit 7 clear and set), MissingHeaderByteIsTruncatedRecord,
EngineTurnIsInvisibleBeforeComplete. -/
theorem witness_walk :
    (running .loopHead [1] 1 1).eng.pos = (running .loopHead [1] 1 1).eng.lim ∧
    ((1#8).toNat % 16 ≠ 15 ∧ (1#8) = (running .loopHead [1, 2] 0 2).eng.latch.byte 0) ∧
    ((0x8E#8).toNat % 16 ≠ 15 ∧ (0x8E#8) = (running .loopHead [0x8E, 2] 0 2).eng.latch.byte 0) ∧
    (running .lvar [1] 1 1).eng.phase ∈ [Phase.dife, .vif, .vife, .lvar] ∧
    (running .lvar [1] 1 1).eng.lim ≤ (running .lvar [1] 1 1).eng.pos ∧
    (running .lvar [1] 1 1).busy = true ∧ (running .lvar [1] 1 1).EngineNext [] ∧
    (running .lvar [1] 1 1).eng.phase ≠ .stopped ∧
    (stopOf (step (running .lvar [1] 1 1))).isSome = true := by
  unfold State.EngineNext
  decide

/-- StepKeepsTheInvariant, StepNeverStopsTheMachine. -/
theorem witness_inv_step : finished.Inv ∧ ∃ t, step finished = .next t :=
  ⟨witness_inv_finished.1, _, rfl⟩

/-- UnclassifiedBuffersFail: each of its four buffers. -/
theorem witness_unclassified :
    ((latchOf []).len = 0 ∧ (latchOf []).len.toNat ≤ 512) ∧
    ((latchOf [0x68]).len = 1 ∧ (latchOf [0x68]).byte 0 = 0x68#8) ∧
    ((latchOf [0x16]).len ≠ 0 ∧ (latchOf [0x16]).byte 0 ∉ [0xE5#8, 0x10#8, 0x68#8]) ∧
    512 < (Latch.mk [] 0 513 Cfg.reset).len.toNat := by decide

/-- AckSucceedsWithNoRecord, ShortFrameIsValidatedInOrder, LongFrameIsValidatedInOrder (both codes). -/
theorem witness_fresh : (running .frameStart s4 0 12).eng.Fresh ∧
    ((Instr.long 6 = .long 6 ∧ (3 : BitVec 3) = 3) ∨
      (Instr.long 6 = .control ∧ (6 : Byte) = 3 ∧ (3 : BitVec 3) = 4)) ∧
    ((Instr.control = .long 3 ∧ (4 : BitVec 3) = 3) ∨
      (Instr.control = .control ∧ (3 : Byte) = 3 ∧ (4 : BitVec 3) = 4)) :=
  ⟨⟨rfl, rfl⟩, .inl ⟨rfl, rfl⟩, .inr ⟨rfl, rfl, rfl⟩⟩

/-- ValidLongFrameIsCapturedWhateverTheWalkReports; the long side of TruncationIsIncompleteFrame and of
ParseReadsOnlyTheFrame. -/
theorem witness_valid_long : (latchOf s4).ValidLong ∧ (latchOf s4).len.toNat ≤ 512 ∧
    (11#16).toNat < ((latchOf s4).byte 1).toNat + 6 :=
  ⟨⟨by decide, by decide, by decide, by decide, by decide,
    by simp only [Latch.sum]; decide, by decide⟩,
    by decide, by decide⟩

/-- The short side of TruncationIsIncompleteFrame and of ParseReadsOnlyTheFrame. -/
theorem witness_valid_short : (latchOf (buildShort 0x7B 0x8B)).ValidShort ∧ (4#16).toNat < 5 :=
  ⟨⟨by decide, by decide, by decide, by decide⟩, by decide⟩

/-- SingleBitFlipIsAChecksumMismatch, at the first and the last byte of the sum. -/
theorem witness_bit_flip :
    (latchOf s4).ValidLong ∧ (latchOf (s4.set 4 0x88)).len = (latchOf s4).len ∧
    (latchOf (s4.set 4 0x88)).byte 4 = (latchOf s4).byte 4 ^^^ (1#8 <<< 7) ∧
    (latchOf (s4.set 9 0x2B)).byte 9 = (latchOf s4).byte 9 ^^^ (1#8 <<< 0) ∧
    9 < ((latchOf s4).byte 1).toNat + 4 ∧
    (∀ j < 12, j ≠ 4 → (latchOf (s4.set 4 0x88)).byte j = (latchOf s4).byte j) ∧
    (∀ j ≥ 12, (latchOf (s4.set 4 0x88)).byte j = (latchOf s4).byte j) := by
  refine ⟨witness_valid_long.1, by decide, by decide, by decide, by decide, by decide, fun j hj => ?_⟩
  have h : ∀ bs : List Byte, bs.length = 12 → ∀ c ∈ cellsFrom inBase bs, c.1 ≠ inBase + j :=
    fun bs hb c hc => by have := cellsFrom_lt hc; omega
  simp only [latchOf, Latch.byte, Memory.read, Memory.find?_eq_none _ _ (h s4 rfl),
    Memory.find?_eq_none _ _ (h (s4.set 4 0x88) rfl)]

/-- BuiltFramesAreValid, each macro; the short one at C + A above 255. -/
theorem witness_built : (latchOf (buildShort 0xFF 0xFF)).Holds (buildShort 0xFF 0xFF) ∧
    (latchOf (buildLong 8 1 0x72 [1, 0x13, 0x2A])).Holds (buildLong 8 1 0x72 [1, 0x13, 0x2A]) ∧
    (latchOf (buildControl 0x53 0xFE 0x51)).Holds (buildControl 0x53 0xFE 0x51) := by
  refine ⟨⟨by decide, ?_⟩, ⟨by decide, ?_⟩, ⟨by decide, ?_⟩⟩ <;>
    · intro i h
      simp only [latchOf, Latch.byte, Memory.read, find?_cellsFrom _ _ _ h, Option.getD_some]

/-- ParseReadsOnlyTheFrame: buffers that differ behind the frame. -/
theorem witness_agree : (latchOf [0xE5, 1]).AgreeBelow 1 (latchOf [0xE5, 2]) ∧
    (latchOf [0xE5, 1]).byte 0 = 0xE5#8 ∧ (latchOf [0xE5, 1]).len ≠ 0 := by
  refine ⟨⟨rfl, rfl, fun ci => ?_, fun i h => ?_⟩, by decide, by decide⟩
  · have h1 : ∀ b : Byte, Memory.find? (cellsFrom inBase [0xE5, b]) (hdrBase + ci.toNat) = none := fun b =>
      Memory.find?_eq_none _ _ fun c hc => by
        have := cellsFrom_le hc; have := ci.isLt; simp only [inBase, hdrBase] at *; omega
    simp only [latchOf, Latch.hdr, Memory.read, h1]
  · obtain rfl : i = 0 := by omega
    decide

/-- ManufacturerBlockIsOneOpaqueRecord (both codes, room and full), UnsupportedCodesKeepEarlierRecords
(both LVAR ranges at their first bytes). -/
theorem witness_specials :
    ((Instr.mfrBlock = .mfrBlock ∧ (0x1F#8) = 0x1F#8) ∧ (Instr.mfrBlock0F = .mfrBlock0F ∧ (0x0F#8) = 0x0F#8)) ∧
    (running .loopHead [] 1 1).eng.recs.length ≠ (running .loopHead [] 1 1).params.maxRecords ∧
    ({ running .loopHead [] 1 1 with params := ⟨512, 0, [], 0⟩ } : State).eng.recs.length = 0 ∧
    IsUnsupportedCode (.lvarUnsupportedD 0) 0xD0 ∧ IsUnsupportedCode (.lvarUnsupportedE 31) 0xFF :=
  ⟨⟨⟨rfl, rfl⟩, rfl, rfl⟩, by decide, rfl, .inl ⟨0, rfl, rfl⟩, .inr ⟨31, rfl, rfl⟩⟩

/-- ExtensionBytesExtendTheirChain at nine bytes, DifeDescriptorsAreTheirSums and RecordEntryLayout at
ten. -/
theorem witness_chains : (List.replicate 9 (0x80#8)).length < 10 ∧
    (List.replicate 10 (0x80#8)).length ≤ 10 := by decide

/-- The data-field statements: room for the widest field of each list, text at both ranges, LVAR BCD at
nine and ten bytes. -/
theorem witness_room :
    (atValue Cfg.reset 0x13 (List.replicate 8 0)).Room 8 ∧
    ((Instr.int64 d0, (0x7 : BitVec 4), 8) ∈ integerFields d0 ∧
      (Instr.bcd12 d0, (0xE : BitVec 4), 6) ∈ bcdFields d0 ∧
      (Instr.datetime d0, (0x4 : BitVec 4), ValueKind.dateTime, 4) ∈ rawFields d0 ∧
      (Instr.int64 d0, (0x7 : BitVec 4), 8) ∈ fixedFields d0) ∧
    IsTextCode (.lvarTextLow 0) 0 ∧ IsTextCode (.lvarTextHigh 0) 0x80 ∧
    (running .lvar [] 3 140).Room (0x80 : Byte).toNat ∧ (running .lvar [] 3 140).Room (10#4).toNat :=
  ⟨⟨by decide, by decide⟩, by decide, .inl ⟨0, rfl, rfl⟩, .inr ⟨0, rfl, rfl⟩,
    ⟨by decide, by decide⟩, ⟨by decide, by decide⟩⟩

/-- MissingValueBytesAreTruncatedRecord, FullRecordMemoryIsRecordLimit. -/
theorem witness_short_and_full :
    (atValue Cfg.reset 0x13 [1]).eng.lim - (atValue Cfg.reset 0x13 [1]).eng.pos < 2 ∧
    ({ atValue Cfg.reset 0x13 [1] with params := ⟨512, 0, [], 0⟩ } : State).eng.recs.length =
      ({ atValue Cfg.reset 0x13 [1] with params := ⟨512, 0, [], 0⟩ } : State).params.maxRecords := by decide

/-- RecordsTileThePayloadInOrder, its last clause: a long frame whose parse ends with OK. -/
theorem witness_tile : (latchOf s4).byte 0 = 0x68#8 ∧
    (parse Params.default (latchOf s4)).res.code = Code.ok.num := by decide

/-- EveryParseEndsInOneOutcomeClass, RecordLimitNeedsASmallRecordMemory. -/
theorem witness_params : Params.default.Wf ∧ 126 ≤ Params.default.maxRecords :=
  ⟨witness_default_params, by decide⟩

/-- DecodeOfEncodeIsTheCode with bytes behind the code, and the empty buffer without;
DecodedCodeIsWellFormedAndKeepsItsBytes and PlacedWordRuns have their instances among the decoding
tests above. -/
theorem witness_encode : (Instr.dife true true 3 15).wellFormed .dife = true ∧
    Instr.empty.wellFormed .frameStart = true := by decide

end Sys2Proof.Tests
end

