-- ==== Sys2Proof/Proofs/Publish.lean ====
section
/-! PROOFS. The window's memory after a write and after `complete`: what each offset lists. -/

namespace Sys2Proof.Machine

/-! ### Writes -/

theorem Memory.mem_write {m : List Host.Cell} {a : Nat} {v : Byte} {c : Host.Cell}
    (h : c ∈ Memory.write m a v) : c = (a, v) ∨ c ∈ m := by
  unfold Memory.write at h
  split at h
  · exact .inr (Memory.mem_erase h)
  · exact Memory.mem_insert h

theorem Memory.find?_write_of_ne {m : List Host.Cell} {a b : Nat} (v : Byte)
    (h : m.Pairwise (fun c d => c.1 < d.1)) (hab : a ≠ b) :
    Memory.find? (Memory.write m a v) b = Memory.find? m b := by
  unfold Memory.write
  split
  · rw [Memory.find?_erase m a b h, if_neg hab]
  · rw [Memory.find?_insert, if_neg hab]

/-! ### Published records -/

theorem Memory.find?_append (m m' : List Host.Cell) (a : Nat) :
    Memory.find? (m ++ m') a = (Memory.find? m a).or (Memory.find? m' a) := by
  induction m with
  | nil => rfl
  | cons c m ih =>
    obtain ⟨k, b⟩ := c
    simp only [List.cons_append, Memory.find?, ih]
    split <;> rfl

/-- The entries of the records take 64 bytes each (R48). -/
theorem flatMap_bytes_length (recs : List Record) :
    (recs.flatMap Record.bytes).length = 64 * recs.length := by
  induction recs with
  | nil => rfl
  | cons r recs ih => simp only [List.flatMap_cons, List.length_append, ih, Record.bytes_length,
      List.length_cons]; omega

/-- Byte `j` of record `i` stands at `64 i + j` of the entries (R48, R216). -/
theorem flatMap_bytes_getElem (recs : List Record) (i j : Nat) (hi : i < recs.length) (hj : j < 64) :
    (recs.flatMap Record.bytes)[64 * i + j]'(by rw [flatMap_bytes_length]; omega) =
      (recs[i]).bytes[j]'(by rw [Record.bytes_length]; exact hj) := by
  induction recs generalizing i with
  | nil => simp at hi
  | cons r recs ih =>
    cases i with
    | zero =>
      simp only [List.flatMap_cons]
      rw [List.getElem_append_left (by rw [Record.bytes_length]; omega)]
      simp
    | succ i =>
      simp only [List.flatMap_cons]
      rw [List.getElem_append_right (by rw [Record.bytes_length]; omega)]
      simpa only [Record.bytes_length, show 64 * (i + 1) + j - 64 = 64 * i + j by omega,
        List.getElem_cons_succ] using ih i (by simpa using hi)

/-- After `complete`, every offset below the record memory lists what it listed before; from the record
memory up the published entries stand alone (R48, R153). -/
theorem Memory.find?_publish (m : List Host.Cell) (recs : List Record) (a : Nat) :
    Memory.find? (Memory.ram m ++ recCells recs) a =
      if a < recBase then Memory.find? m a else Memory.find? (recCells recs) a := by
  rw [Memory.find?_append, Memory.find?_ram]
  split
  · rename_i ha
    rw [Memory.find?_eq_none (recCells recs) a fun c hc => by
      have := cellsFrom_le hc; omega]
    exact Option.or_none
  · rfl

theorem find?_recCells (recs : List Record) (k : Nat) (hk : k < 64 * recs.length) :
    Memory.find? (recCells recs) (recBase + k) =
      some ((recs.flatMap Record.bytes)[k]'(by rw [flatMap_bytes_length]; exact hk)) :=
  find?_cellsFrom recBase k _ _

theorem recCells_place {recs : List Record} {c : Host.Cell} (h : c ∈ recCells recs) :
    recBase ≤ c.1 ∧ c.1 < recBase + 64 * recs.length := by
  refine ⟨cellsFrom_le h, ?_⟩
  have := cellsFrom_lt h
  rwa [flatMap_bytes_length] at this

end Sys2Proof.Machine
end

