-- ==== Sys2Proof/Proofs/EngineInvariant.lean ====
section
/-! PROOFS. The working registers: every engine operation keeps their invariant and the latched inputs. -/

namespace Sys2Proof.Machine

/-! ### Results at a stop -/

theorem Code.num_le (code : Code) : code.num.toNat ≤ 11 := by cases code <;> decide

theorem Results.zero_wf (p : Params) : Results.zero.Wf p :=
  ⟨by decide, by decide, fun _ => rfl, Nat.zero_le _⟩

/-- REC_COUNT after a stop: the records when the code keeps them, else 0 (R217, R219). -/
theorem stopResults_recCount {code : Code} {n : Nat} (off : Nat) (r : Results) (hn : n < 65536) :
    (stopResults code off n r).recCount.toNat = if code.keepsRecords then n else 0 := by
  cases code <;> simp [stopResults, Code.frameLevel, Code.keepsRecords, Results.zero] <;> omega

/-- A stop leaves a numbered code, the kind that was set, and a count that RECS_VALID covers. -/
theorem stopResults_wf {p : Params} {r : Results} (code : Code) (off : Nat) {n : Nat} (h : r.Wf p)
    (hn : n ≤ p.maxRecords) (hp : p.maxRecords ≤ 128) : (stopResults code off n r).Wf p where
  code_le := by
    have hcode : (stopResults code off n r).code = code.num := by unfold stopResults; split <;> rfl
    rw [hcode]
    exact code.num_le
  kind_le := by
    have hkind : (stopResults code off n r).kind = r.kind := by unfold stopResults; split <;> rfl
    rw [hkind]
    exact h.kind_le
  count_valid := by
    unfold stopResults
    split
    · exact fun _ => rfl
    · exact fun hv => if_neg (by simpa using hv)
  count_le := by
    rw [stopResults_recCount off r (by omega)]
    split <;> omega

/-! ### The clauses of the invariant that hold at every stage -/

/-- The clauses of `Engine.Inv` that do not speak of the stage. -/
structure Engine.Bounds (p : Params) (e : Engine) : Prop where
  latch_wf : Memory.Wf e.latch.mem
  pos_le : e.pos ≤ e.lim
  lim_le : e.lim ≤ e.latch.len.toNat
  dife_le : e.dife.length ≤ Config.chainMax
  vife_le : e.vife.length ≤ Config.chainMax
  recs_le : e.recs.length ≤ p.maxRecords
  res_wf : e.res.Wf p

theorem Engine.Inv.bounds {p : Params} {e : Engine} (h : e.Inv p) : e.Bounds p :=
  ⟨h.latch_wf, h.pos_le, h.lim_le, h.dife_le, h.vife_le, h.recs_le, h.res_wf⟩

/-- Whatever the code, a stop meets the invariant (R151, R219). -/
theorem Engine.Bounds.stop_inv {p : Params} {e : Engine} (hp : p.maxRecords ≤ 128) (h : e.Bounds p)
    (code : Code) (off : Nat) : (e.stop code off).Inv p where
  latch_wf := h.latch_wf
  pos_le := h.pos_le
  lim_le := h.lim_le
  len_le _ hs := absurd rfl hs
  start hs := absurd hs (by simp)
  record hs := absurd hs (by simp [Phase.inRecord])
  dife_le := h.dife_le
  vife_le := h.vife_le
  dife_room hs := absurd hs (by simp)
  vife_room hs := absurd hs (by simp)
  recs_le := by
    have := h.recs_le
    rw [Engine.stop_recs]
    split
    · exact this
    · exact Nat.zero_le _
  res_wf := stopResults_wf code off h.res_wf h.recs_le hp
  count _ := by
    have := h.recs_le
    rw [Engine.stop_res, stopResults_recCount off e.res (by omega), Engine.stop_recs]
    split <;> rfl

/-- At the loop head nothing but the stage-free clauses and LEN ≤ MAX_LEN is asked. -/
theorem Engine.Bounds.loopHead_inv {p : Params} {e : Engine} (h : e.Bounds p)
    (hlen : e.latch.len.toNat ≤ p.maxLen) : ({ e with phase := .loopHead } : Engine).Inv p where
  latch_wf := h.latch_wf
  pos_le := h.pos_le
  lim_le := h.lim_le
  len_le _ _ := hlen
  start hs := nomatch hs
  record hs := nomatch hs
  dife_le := h.dife_le
  vife_le := h.vife_le
  dife_room hs := nomatch hs
  vife_room hs := nomatch hs
  recs_le := h.recs_le
  res_wf := h.res_wf
  count hs := nomatch hs

/-- What holds while a record is read: the bounds, LEN ≤ MAX_LEN (R156), the cursor behind the record's
DIF, and a DIF that is not a special one (R222, R260). -/
structure Engine.InRecord (p : Params) (e : Engine) : Prop where
  bounds : e.Bounds p
  len_le : e.latch.len.toNat ≤ p.maxLen
  rs_lt : e.rs < e.pos
  dif_ordinary : dataField e.dif ≠ 0xF#4

/-- Inside a record the invariant asks, beside `InRecord`, for room in the chain being read. -/
theorem Engine.InRecord.inv {p : Params} {e : Engine} {ph : Phase} (h : e.InRecord p)
    (hph : ph.inRecord = true) (hd : ph = .dife → e.dife.length < Config.chainMax)
    (hv : ph = .vife → e.vife.length < Config.chainMax) : ({ e with phase := ph } : Engine).Inv p where
  latch_wf := h.bounds.latch_wf
  pos_le := h.bounds.pos_le
  lim_le := h.bounds.lim_le
  len_le _ _ := h.len_le
  start hs := by simp only at hs; subst hs; nomatch hph
  record _ := ⟨h.rs_lt, h.dif_ordinary⟩
  dife_le := h.bounds.dife_le
  vife_le := h.bounds.vife_le
  dife_room := hd
  vife_room := hv
  recs_le := h.bounds.recs_le
  res_wf := h.bounds.res_wf
  count hs := by simp only at hs; subst hs; nomatch hph

theorem Engine.Inv.inRecord {p : Params} {e : Engine} (h : e.Inv p) (hph : e.phase.inRecord = true) :
    e.InRecord p where
  bounds := h.bounds
  len_le := h.len_le (fun hs => by simp [hs, Phase.inRecord] at hph)
    (fun hs => by simp [hs, Phase.inRecord] at hph)
  rs_lt := (h.record hph).1
  dif_ordinary := (h.record hph).2

/-- Taking one byte that is there leaves the cursor within its limit (R173). -/
theorem Engine.InRecord.take_one {p : Params} {e : Engine} (h : e.InRecord p) (hpos : e.pos < e.lim) :
    ({ e with pos := e.pos + 1 } : Engine).InRecord p :=
  ⟨{ h.bounds with pos_le := hpos }, h.len_le, Nat.lt_succ_of_lt h.rs_lt, h.dif_ordinary⟩

/-! ### Emitting a record and the chains -/

/-- UNPACK keeps the invariant: short, full or back at the loop head (R217, R218, R260). -/
theorem Engine.InRecord.unpack_inv {p : Params} {e : Engine} (hp : p.maxRecords ≤ 128)
    (h : e.InRecord p) (kind : ValueKind) (n : Nat) (dec : List Byte → Decoded) :
    (e.unpack p kind n dec).Inv p := by
  have hpos := h.bounds.pos_le
  by_cases hn : n ≤ e.lim - e.pos
  · have hb : ({ e with pos := e.pos + n } : Engine).Bounds p :=
      { h.bounds with pos_le := by simp only; omega }
    by_cases hr : e.recs.length = p.maxRecords
    · rw [Engine.unpack_of_full hn hr, ← Engine.stop_of_keeps rfl]
      exact hb.stop_inv hp _ _
    · rw [Engine.unpack_of_room hn hr]
      have hle := h.bounds.recs_le
      exact Engine.Bounds.loopHead_inv
        (e := { e with
          pos := e.pos + n
          recs := e.recs ++ [e.mkRecord p kind n (dec (e.latch.slice e.pos n))] })
        { hb with recs_le := by simp only [List.length_append, List.length_singleton]; omega } h.len_le
  · rw [Engine.unpack_of_short (by omega), ← Engine.stop_of_keeps rfl]
    exact h.bounds.stop_inv hp _ _

/-- The manufacturer block keeps the invariant: one record and OK, or RecordLimit (R213). -/
theorem Engine.Bounds.mfrBlock_inv {p : Params} {e : Engine} (hp : p.maxRecords ≤ 128)
    (h : e.Bounds p) (dif : Byte) : (e.mfrBlock p dif).Inv p := by
  unfold Engine.mfrBlock
  by_cases hr : e.recs.length = p.maxRecords
  · rw [Engine.emit_of_full hr, ← Engine.stop_of_keeps rfl]
    exact h.stop_inv hp _ _
  · rw [Engine.emit_of_room hr]
    have hle := h.recs_le
    refine Engine.Bounds.stop_inv hp ?_ _ _
    exact { h with
      pos_le := le_refl _
      recs_le := by simp only [List.length_append, List.length_singleton]; omega }

/-- The DIFE chain's test keeps the invariant (R241). -/
theorem Engine.InRecord.afterDif_inv {p : Params} {e : Engine} (hp : p.maxRecords ≤ 128)
    (h : e.InRecord p) (more : Bool) : (e.afterDif more).Inv p := by
  rcases e.afterDif_cases more with ⟨-, heq⟩ | ⟨-, hne, heq⟩ | ⟨-, -, heq⟩ <;> rw [heq]
  · exact h.inv rfl nofun nofun
  · exact h.inv rfl (fun _ => lt_of_le_of_ne h.bounds.dife_le hne) nofun
  · exact h.bounds.stop_inv hp .malformedDIFChain _

/-- The VIFE chain's test keeps the invariant (R246). -/
theorem Engine.InRecord.afterVif_inv {p : Params} {e : Engine} (hp : p.maxRecords ≤ 128)
    (h : e.InRecord p) (more : Bool) : (e.afterVif more).Inv p := by
  rcases e.afterVif_cases more with ⟨-, heq⟩ | ⟨-, hne, heq⟩ | ⟨-, -, heq⟩ <;> rw [heq]
  · exact h.inv rfl nofun nofun
  · exact h.inv rfl nofun (fun _ => lt_of_le_of_ne h.bounds.vife_le hne)
  · exact h.bounds.stop_inv hp .malformedDIFChain _

/-! ### Frame starts -/

/-- What the classifier finds: the bounds, the cursor at 0, and LEN ≤ MAX_LEN (R156, R170). -/
structure Engine.AtFrameStart (p : Params) (e : Engine) : Prop where
  bounds : e.Bounds p
  len_le : e.latch.len.toNat ≤ p.maxLen
  pos_zero : e.pos = 0

theorem Engine.AtFrameStart.setKind {p : Params} {e : Engine} (h : e.AtFrameStart p) {k : BitVec 3}
    (hk : k.toNat ≤ 4) : (e.setKind k).AtFrameStart p :=
  ⟨{ h.bounds with res_wf := { h.bounds.res_wf with kind_le := hk } }, h.len_le, h.pos_zero⟩

/-- VALIDATE_SHORT keeps the invariant, whichever check fails (R190). -/
theorem Engine.AtFrameStart.validateShort_inv {p : Params} {e : Engine} (hp : p.maxRecords ≤ 128)
    (h : e.AtFrameStart p) : e.validateShort.Inv p := by
  have hb := h.bounds
  have hw := h.bounds.res_wf
  unfold Engine.validateShort
  dsimp only
  split
  · exact hb.stop_inv hp _ _
  split
  · exact Engine.Bounds.stop_inv hp (by exact { hb with }) _ _
  split
  · exact Engine.Bounds.stop_inv hp (by exact { hb with }) _ _
  · exact Engine.Bounds.stop_inv hp (by exact { hb with res_wf := { hw with } }) _ _

/-- The header skip keeps the invariant (R210). -/
theorem Engine.AtFrameStart.startWalk_inv {p : Params} {e : Engine} (hp : p.maxRecords ≤ 128)
    (h : e.AtFrameStart p) {l : Byte} (hl : 3 ≤ l.toNat) (hlen : l.toNat + 6 ≤ e.latch.len.toNat) :
    (e.startWalk l).Inv p := by
  have hpos := h.pos_zero
  rcases e.startWalk_cases l with ⟨-, heq⟩ | ⟨hskip, heq⟩ <;> rw [heq]
  · rw [← Engine.stop_of_keeps rfl]
    refine Engine.Bounds.stop_inv hp ?_ _ _
    exact { h.bounds with pos_le := by simp only; omega, lim_le := by simp only; omega }
  · exact Engine.Bounds.loopHead_inv
      (e := { e with lim := l.toNat + 4, pos := 7 + e.latch.hdr e.res.ci })
      { h.bounds with pos_le := by simp only; omega, lim_le := by simp only; omega } h.len_le

/-- VALIDATE_LONG keeps the invariant, whichever check fails (R192 to R199). -/
theorem Engine.AtFrameStart.validateLong_inv {p : Params} {e : Engine} (hp : p.maxRecords ≤ 128)
    (h : e.AtFrameStart p) (l : Byte) : (e.validateLong l).Inv p := by
  have hb := h.bounds
  have hw := h.bounds.res_wf
  unfold Engine.validateLong
  dsimp only
  split
  · exact hb.stop_inv hp _ _
  split
  · exact hb.stop_inv hp _ _
  split
  · exact hb.stop_inv hp _ _
  split
  · exact hb.stop_inv hp _ _
  split
  · exact hb.stop_inv hp _ _
  split
  · exact Engine.Bounds.stop_inv hp (by exact { hb with }) _ _
  split
  · exact Engine.Bounds.stop_inv hp (by exact { hb with }) _ _
  · refine Engine.AtFrameStart.startWalk_inv hp ?_ (by omega) (by simp only [Engine.captureLong]; omega)
    exact ⟨{ hb with res_wf := { hw with } }, h.len_le, h.pos_zero⟩

end Sys2Proof.Machine
end

