-- ==== Sys2Proof/Proofs/DecoderFacts.lean ====
section
/-! PROOFS. What the decoder reads is well formed in its context, and where it reads no code. -/

namespace Sys2Proof

/-! ### The fields of a DIF byte (R104) -/

theorem difByte_difBits (b : Byte) : difByte (difBits b) (dataField b) = b := by
  unfold difByte difBits dataField
  ext i hi
  simp
  grind

theorem dataField_difByte (d : DifBits) (df : BitVec 4) : dataField (difByte d df) = df :=
  BitVec.extractLsb'_append_eq_right

/-- The special DIFs with a row of their own are those with E and S0 clear and FN below 3 (R110). -/
theorem difByte_named_special {d : DifBits} (h : (d.e || d.s0 || d.fn == 3#2) = false) :
    difByte d 0xF#4 = 0x0F#8 ∨ difByte d 0xF#4 = 0x1F#8 ∨ difByte d 0xF#4 = 0x2F#8 := by
  obtain ⟨e, s0, fn⟩ := d
  revert e s0 fn
  decide

/-! ### Each part of the decoder -/

theorem decodeFrameStart_wellFormed {bytes rest : List Byte} {i : Instr}
    (h : decodeFrameStart bytes = .ok (i, rest)) : i.wellFormed .frameStart = true := by
  unfold decodeFrameStart at h
  split at h
  · cases h; rfl
  split at h
  · cases h; rfl
  split at h
  · cases h; rfl
  split at h
  · split at h
    · cases h
    · rename_i b1 rest
      cases h
      by_cases hb : b1 = Config.controlL
      · rw [if_pos hb]; rfl
      · rw [if_neg hb]; simp [Instr.wellFormed, hb]
  · rename_i hE5 h10 h68
    cases h
    simp [Instr.wellFormed, hE5, h10, h68]

theorem decodeDifHead_wellFormed {tail : Bool} {b : Byte} {i : Instr}
    (h : decodeDifHead tail b = .ok i) : i.wellFormed (.difHead tail) = true := by
  unfold decodeDifHead at h
  split at h
  · cases h; rfl
  split at h
  · cases h; rfl
  split at h
  · cases h; cases tail <;> rfl
  split at h
  · rename_i h2F h1F h0F hdf
    cases h
    have hb : difByte (difBits b) 0xF#4 = b := hdf ▸ difByte_difBits b
    cases hd : (difBits b).e || (difBits b).s0 || (difBits b).fn == 3#2 with
    | true => simpa [Instr.wellFormed, Context.isDifHead] using hd
    | false =>
      have := difByte_named_special hd
      simp [hb, h2F, h1F, h0F] at this
  · cases h

/-- At a record head only an ordinary DIF is no code (R222). -/
theorem decodeDifHead_eq_error {tail : Bool} {b : Byte} {err : DecodeError}
    (h : decodeDifHead tail b = .error err) : err = .recordDif ∧ dataField b ≠ 0xF#4 := by
  unfold decodeDifHead at h
  split at h
  · cases h
  split at h
  · cases h
  split at h
  · cases h
  split at h
  · cases h
  · rename_i hdf
    cases h
    exact ⟨rfl, hdf⟩

theorem decodeValue_wellFormed {hint : Hint} {b : Byte} {i : Instr}
    (h : decodeValue hint b = .ok i) : i.wellFormed (.value hint) = true := by
  unfold decodeValue at h
  dsimp only at h
  split at h <;> cases h
  case h_3 => split <;> rename_i hh <;> simp [Instr.wellFormed, Context.isValue, hh]
  case h_5 => split <;> rename_i hh <;> simp [Instr.wellFormed, Context.isValue, hh]
  all_goals rfl

theorem decodeVif_wellFormed (rom : List VifEntry) (b : Byte) :
    (decodeVif rom b).wellFormed (.vif rom) = true := by
  unfold decodeVif
  dsimp only
  split <;> rename_i hh <;> simp [Instr.wellFormed, Context.isVif, hh]

theorem decodeLvar_wellFormed (b : Byte) : (decodeLvar b).wellFormed .lvar = true := by
  unfold decodeLvar
  repeat' split
  all_goals rfl

theorem decodeCtrl_wellFormed {bytes rest : List Byte} {i : Instr}
    (h : decodeCtrl bytes = .ok (i, rest)) : i.wellFormed .ctrl = true := by
  unfold decodeCtrl at h
  split at h
  · dsimp only at h
    split at h <;> cases h
    rfl
  · cases h

/-! ### The whole decoder -/

theorem decode_wellFormed {c : Context} {bytes rest : List Byte} {i : Instr}
    (h : decode c bytes = .ok (i, rest)) : i.wellFormed c = true := by
  cases c with
  | frameStart => exact decodeFrameStart_wellFormed h
  | ctrl => exact decodeCtrl_wellFormed h
  | difHead tail =>
    cases bytes with
    | nil => cases h
    | cons b bs =>
      cases hd : decodeDifHead tail b <;> simp [decode, hd, Except.map] at h
      exact h.1 ▸ decodeDifHead_wellFormed hd
  | value hint =>
    cases bytes with
    | nil => cases h
    | cons b bs =>
      cases hd : decodeValue hint b <;> simp [decode, hd, Except.map] at h
      exact h.1 ▸ decodeValue_wellFormed hd
  | dife => cases bytes <;> cases h; rfl
  | vif rom => cases bytes <;> cases h; exact decodeVif_wellFormed rom _
  | vife => cases bytes <;> cases h; rfl
  | lvar => cases bytes <;> cases h; exact decodeLvar_wellFormed _

/-- 0x68 without a second byte is an error at the frame start alone (R184). -/
theorem decode_eq_needSecondByte {c : Context} {bytes : List Byte}
    (h : decode c bytes = .error .needSecondByte) : c = .frameStart := by
  cases c with
  | frameStart => rfl
  | ctrl =>
    simp only [decode, decodeCtrl] at h
    split at h
    · split at h <;> cases h
    · cases h
  | difHead tail =>
    cases bytes with
    | nil => cases h
    | cons b bs =>
      cases hd : decodeDifHead tail b <;> simp [decode, hd, Except.map] at h
      exact nomatch (h ▸ (decodeDifHead_eq_error hd).1)
  | value hint =>
    cases bytes with
    | nil => cases h
    | cons b bs =>
      simp only [decode, decodeValue] at h
      split at h <;> cases h
  | dife | vif rom | vife | lvar => cases bytes <;> cases h

/-- The decoder names an ordinary DIF at a record head alone, and its data field is not 0xF (R222). -/
theorem decode_eq_recordDif {c : Context} {bytes : List Byte}
    (h : decode c bytes = .error .recordDif) :
    (∃ tail, c = .difHead tail) ∧ dataField (bytes.headD 0) ≠ 0xF#4 := by
  cases c with
  | frameStart =>
    simp only [decode, decodeFrameStart] at h
    repeat' split at h
    all_goals cases h
  | ctrl =>
    simp only [decode, decodeCtrl] at h
    split at h
    · split at h <;> cases h
    · cases h
  | difHead tail =>
    cases bytes with
    | nil => cases h
    | cons b bs =>
      cases hd : decodeDifHead tail b <;> simp [decode, hd, Except.map] at h
      exact ⟨⟨tail, rfl⟩, (decodeDifHead_eq_error hd).2⟩
  | value hint =>
    cases bytes with
    | nil => cases h
    | cons b bs =>
      simp only [decode, decodeValue] at h
      split at h <;> cases h
  | dife | vif rom | vife | lvar => cases bytes <;> cases h

end Sys2Proof
end

