-- ==== Sys2Proof/Proofs/EngineFrame.lean ====
section
/-! PROOFS. What an engine turn before `complete` leaves alone: all of the state but the working registers,
and of these the latched inputs and the taint. -/

namespace Sys2Proof.Machine

/-- Two sets of working registers of one parse: the latched inputs and the taint agree (R79, R343). -/
structure Engine.SameInputs (e e' : Engine) : Prop where
  latch : e'.latch = e.latch
  tainted : e'.tainted = e.tainted

namespace Engine.SameInputs

theorem refl (e : Engine) : e.SameInputs e := ⟨rfl, rfl⟩

theorem trans {e e' e'' : Engine} (h : e.SameInputs e') (h' : e'.SameInputs e'') : e.SameInputs e'' :=
  ⟨h'.latch.trans h.latch, h'.tainted.trans h.tainted⟩

/-- An update of other registers before the operation does not matter. -/
theorem after {e e' e'' : Engine} (h : e'.SameInputs e'') (hl : e'.latch = e.latch)
    (ht : e'.tainted = e.tainted) : e.SameInputs e'' := trans ⟨hl, ht⟩ h

theorem unpack (p : Params) (kind : ValueKind) (n : Nat) (dec : List Byte → Decoded) (e : Engine) :
    e.SameInputs (e.unpack p kind n dec) := by
  by_cases hn : n ≤ e.lim - e.pos
  · by_cases hr : e.recs.length = p.maxRecords
    · rw [Engine.unpack_of_full hn hr]; exact ⟨rfl, rfl⟩
    · rw [Engine.unpack_of_room hn hr]; exact ⟨rfl, rfl⟩
  · rw [Engine.unpack_of_short (by omega)]; exact ⟨rfl, rfl⟩

theorem mfrBlock (p : Params) (dif : Byte) (e : Engine) : e.SameInputs (e.mfrBlock p dif) := by
  unfold Engine.mfrBlock
  by_cases hr : e.recs.length = p.maxRecords
  · rw [Engine.emit_of_full hr]; exact ⟨rfl, rfl⟩
  · rw [Engine.emit_of_room hr]; exact ⟨rfl, rfl⟩

theorem afterDif (e : Engine) (more : Bool) : e.SameInputs (e.afterDif more) := by
  rcases e.afterDif_cases more with ⟨-, heq⟩ | ⟨-, -, heq⟩ | ⟨-, -, heq⟩ <;> rw [heq] <;>
    exact ⟨rfl, rfl⟩

theorem afterVif (e : Engine) (more : Bool) : e.SameInputs (e.afterVif more) := by
  rcases e.afterVif_cases more with ⟨-, heq⟩ | ⟨-, -, heq⟩ | ⟨-, -, heq⟩ <;> rw [heq] <;>
    exact ⟨rfl, rfl⟩

theorem startWalk (e : Engine) (l : Byte) : e.SameInputs (e.startWalk l) := by
  rcases e.startWalk_cases l with ⟨-, heq⟩ | ⟨-, heq⟩ <;> rw [heq] <;> exact ⟨rfl, rfl⟩

theorem validateShort (e : Engine) : e.SameInputs e.validateShort := by
  unfold Engine.validateShort
  dsimp only
  repeat' split
  all_goals exact ⟨rfl, rfl⟩

theorem validateLong (e : Engine) (l : Byte) : e.SameInputs (e.validateLong l) := by
  unfold Engine.validateLong
  dsimp only
  repeat' split
  case isFalse => exact (startWalk _ l).after rfl rfl
  all_goals exact ⟨rfl, rfl⟩

end Engine.SameInputs

/-- `t` is `s` with other working registers of the same parse (R73, R78, R79). -/
structure State.EngineOnly (s t : State) : Prop where
  state : t = { s with eng := t.eng }
  inputs : s.eng.SameInputs t.eng

namespace State.EngineOnly

theorem refl (s : State) : s.EngineOnly s := ⟨rfl, .refl _⟩

theorem trans {s t u : State} (h : s.EngineOnly t) (h' : t.EngineOnly u) : s.EngineOnly u where
  state := by
    have h1 := h.state
    have h2 := h'.state
    rw [h1] at h2
    exact h2
  inputs := h.inputs.trans h'.inputs

theorem onEngine {s : State} {f : Engine → Engine} (h : s.eng.SameInputs (f s.eng)) :
    s.EngineOnly (s.onEngine f) := ⟨rfl, h⟩

theorem unpackField (s : State) (d : DifBits) (df : BitVec 4) (kind : ValueKind) (n : Nat)
    (dec : List Byte → Decoded) : s.EngineOnly (s.unpackField d df kind n dec) :=
  ⟨rfl, (Engine.SameInputs.unpack s.params kind n dec
    { s.eng with dif := difByte d df, lvar := 0 }).after rfl rfl⟩

theorem params {s t : State} (h : s.EngineOnly t) : t.params = s.params := by rw [h.state]

theorem hazard {s t : State} (h : s.EngineOnly t) : t.hazard = s.hazard := by rw [h.state]

end State.EngineOnly

/-- Every meaning but START's changes the working registers only. -/
theorem exec_engineOnly {i : Instr} {s t : State} (hi : ∀ x, i ≠ .start x) (h : exec i s = .next t) :
    s.EngineOnly t := by
  cases i with
  | start x => exact absurd rfl (hi x)
  | empty | ack | unknownStart b | filler | specialOther d | vifPlaintext e code | lvar d
  | lvarUnsupportedD n | lvarUnsupportedE n => cases h; exact ⟨rfl, rfl, rfl⟩
  | endOfUserData =>
    cases h
    refine .onEngine ?_
    split <;> exact ⟨rfl, rfl⟩
  | short =>
    cases h
    exact ⟨rfl, (Engine.SameInputs.validateShort (s.eng.setKind kindShort)).after rfl rfl⟩
  | control =>
    cases h
    exact ⟨rfl, (Engine.SameInputs.validateLong (s.eng.setKind kindControl) _).after rfl rfl⟩
  | long l =>
    cases h
    exact ⟨rfl, (Engine.SameInputs.validateLong (s.eng.setKind kindLong) l).after rfl rfl⟩
  | mfrBlock | mfrBlock0F => cases h; exact ⟨rfl, .mfrBlock ..⟩
  | dife e u t sn => cases h; exact ⟨rfl, (Engine.SameInputs.afterDif _ e).after rfl rfl⟩
  | vif e code | vife e code => cases h; exact ⟨rfl, (Engine.SameInputs.afterVif _ e).after rfl rfl⟩
  | lvarTextLow n | lvarTextHigh n | lvarBcd n =>
    cases h
    exact ⟨rfl, (Engine.SameInputs.unpack ..).after rfl rfl⟩
  | _ => cases h; exact .unpackField ..

end Sys2Proof.Machine
end

