-- ==== Sys2Proof/Proofs/EngineTurn.lean ====
section
/-! PROOFS. One engine turn: what it fetches, what it leaves alone, and that it keeps the invariant of the
working registers. -/

namespace Sys2Proof.Machine

/-! ### Fetching, stage by stage -/

/-- The stages at which the next byte of a record's header is taken, with the context it is decoded in. -/
def Phase.byteContext? (p : Params) : Phase → Option Context
  | .dife => some .dife
  | .vif => some (.vif p.vifTable)
  | .vife => some .vife
  | .lvar => some .lvar
  | .frameStart | .loopHead | .value | .stopped => none

theorem State.fetch_frameStart {s : State} (h : s.eng.phase = .frameStart) :
    s.fetch = if s.params.maxLen < s.eng.latch.len.toNat then
        .ended (s.onEngine fun e => e.stop .lengthConfig 0)
      else .code .frameStart (s.eng.latch.slice 0 (min 2 s.eng.latch.len.toNat)) s := by
  unfold State.fetch; simp only [h]

theorem State.fetch_loopHead {s : State} (h : s.eng.phase = .loopHead) :
    s.fetch = if s.eng.pos = s.eng.lim then .ended (s.onEngine fun e => e.stop .ok 0)
      else State.fetchByte (s.onEngine fun e => { e with rs := e.pos })
        (.difHead s.eng.latch.cfg.mfrTail) := by
  unfold State.fetch; simp only [h]

theorem State.fetch_byte {s : State} {c : Context}
    (h : s.eng.phase.byteContext? s.params = some c) : s.fetch = s.fetchByte c := by
  unfold State.fetch
  cases hph : s.eng.phase <;> rw [hph] at h <;> cases h <;> simp only [hph]

theorem State.fetch_value {s : State} (h : s.eng.phase = .value) :
    s.fetch = .code (.value (vifLookup s.params.vifTable (s.eng.vif.setWidth 7)).hint)
      [s.eng.dif] s := by
  unfold State.fetch; simp only [h]

theorem State.fetch_stopped {s : State} (h : s.eng.phase = .stopped) : s.fetch = .ended s := by
  unfold State.fetch; simp only [h]

/-! ### What a fetch leaves alone -/

/-- The state a fetch leaves. -/
def Fetched.state : Fetched → State
  | .code _ _ s => s
  | .ended s => s

theorem State.fetchByte_engineOnly (s : State) (c : Context) : s.EngineOnly (s.fetchByte c).state := by
  rcases s.fetchByte_cases c with ⟨-, heq⟩ | ⟨-, heq⟩ <;> rw [heq] <;> exact ⟨rfl, rfl, rfl⟩

/-- Fetching changes the working registers only (R73). -/
theorem State.fetch_engineOnly (s : State) : s.EngineOnly s.fetch.state := by
  cases hph : s.eng.phase with
  | frameStart => rw [State.fetch_frameStart hph]; split <;> exact ⟨rfl, rfl, rfl⟩
  | loopHead =>
    rw [State.fetch_loopHead hph]
    split
    · exact ⟨rfl, rfl, rfl⟩
    · have h0 : s.EngineOnly (s.onEngine fun e => { e with rs := e.pos }) := ⟨rfl, rfl, rfl⟩
      exact h0.trans (State.fetchByte_engineOnly _ _)
  | dife | vif | vife | lvar =>
    rw [State.fetch_byte (by rw [hph]; rfl)]
    exact s.fetchByte_engineOnly _
  | value => rw [State.fetch_value hph]; exact .refl s
  | stopped => rw [State.fetch_stopped hph]; exact .refl s

/-! ### What a fetch hands to the decoder -/

/-- The context of the bytes found, if any, is not that of a CTRL word. -/
def Fetched.NotCtrl : Fetched → Prop
  | .code c _ _ => c ≠ .ctrl
  | .ended _ => True

theorem State.fetchByte_notCtrl (s : State) {c : Context} (hc : c ≠ .ctrl) :
    (s.fetchByte c).NotCtrl := by
  rcases s.fetchByte_cases c with ⟨-, heq⟩ | ⟨-, heq⟩ <;> rw [heq]
  · exact hc
  · trivial

/-- The engine itself never dispatches START: that is the host's command (R150). -/
theorem State.fetch_notCtrl (s : State) : s.fetch.NotCtrl := by
  cases hph : s.eng.phase with
  | frameStart => rw [State.fetch_frameStart hph]; split <;> simp [Fetched.NotCtrl]
  | loopHead =>
    rw [State.fetch_loopHead hph]
    split
    · trivial
    · exact State.fetchByte_notCtrl _ nofun
  | dife | vif | vife | lvar =>
    rw [State.fetch_byte (by rw [hph]; rfl)]
    exact s.fetchByte_notCtrl nofun
  | value => rw [State.fetch_value hph]; exact nofun
  | stopped => rw [State.fetch_stopped hph]; trivial

/-- The record head: the DIF has been taken and its offset is the record's (R211). -/
structure Engine.AtHead (p : Params) (e : Engine) : Prop where
  bounds : e.Bounds p
  len_le : e.latch.len.toNat ≤ p.maxLen
  rs_lt : e.rs < e.pos

/-- What holds of the working registers when the fetch of a stage has found bytes to decode. -/
def Engine.ReadyFor (p : Params) (e : Engine) : Context → Prop
  | .frameStart => e.AtFrameStart p
  | .difHead _ => e.AtHead p
  | .dife => e.InRecord p ∧ e.dife.length < Config.chainMax
  | .vif _ => e.InRecord p
  | .vife => e.InRecord p ∧ e.vife.length < Config.chainMax
  | .value _ => e.InRecord p
  | .lvar => e.InRecord p
  | .ctrl => False

/-- A fetch that keeps the invariant: the registers are ready for the context, or PARSE has ended. -/
def Fetched.Sound (p : Params) : Fetched → Prop
  | .code c _ s => s.eng.ReadyFor p c
  | .ended s => s.eng.Inv p

/-- Taking a byte keeps the invariant, when it suffices for the context that the byte was there. -/
theorem State.fetchByte_sound {p : Params} {s : State} {c : Context} (hp : p.maxRecords ≤ 128)
    (h : s.eng.Bounds p)
    (hc : s.eng.pos < s.eng.lim → ({ s.eng with pos := s.eng.pos + 1 } : Engine).ReadyFor p c) :
    (s.fetchByte c).Sound p := by
  rcases s.fetchByte_cases c with ⟨hpos, heq⟩ | ⟨-, heq⟩ <;> rw [heq]
  · exact hc hpos
  · rw [← Engine.stop_of_keeps rfl]
    exact h.stop_inv hp _ _

theorem State.fetch_sound {s : State} (hp : s.params.maxRecords ≤ 128) (h : s.eng.Inv s.params) :
    s.fetch.Sound s.params := by
  have hb := h.bounds
  cases hph : s.eng.phase with
  | frameStart =>
    rw [State.fetch_frameStart hph]
    split
    · exact hb.stop_inv hp _ _
    · exact ⟨hb, by omega, (h.start hph).1⟩
  | loopHead =>
    rw [State.fetch_loopHead hph]
    have hlen := h.len_le (by simp [hph]) (by simp [hph])
    split
    · exact hb.stop_inv hp _ _
    · refine State.fetchByte_sound hp { hb with } fun hpos => ?_
      exact ⟨{ hb with pos_le := hpos }, hlen, Nat.lt_succ_self _⟩
  | dife =>
    rw [State.fetch_byte (by rw [hph]; rfl)]
    have hr := h.inRecord (by rw [hph]; rfl)
    exact State.fetchByte_sound hp hb fun hpos => ⟨hr.take_one hpos, h.dife_room hph⟩
  | vife =>
    rw [State.fetch_byte (by rw [hph]; rfl)]
    have hr := h.inRecord (by rw [hph]; rfl)
    exact State.fetchByte_sound hp hb fun hpos => ⟨hr.take_one hpos, h.vife_room hph⟩
  | vif | lvar =>
    rw [State.fetch_byte (by rw [hph]; rfl)]
    have hr := h.inRecord (by rw [hph]; rfl)
    exact State.fetchByte_sound hp hb fun hpos => hr.take_one hpos
  | value =>
    rw [State.fetch_value hph]
    exact h.inRecord (by rw [hph]; rfl)
  | stopped => rw [State.fetch_stopped hph]; exact h

/-! ### The meanings keep the invariant, context by context -/

theorem exec_inv_frameStart {i : Instr} {s t : State} (hp : s.params.maxRecords ≤ 128)
    (h : s.eng.AtFrameStart s.params) (hw : i.wellFormed .frameStart = true) (ht : exec i s = .next t) :
    t.eng.Inv s.params := by
  have hk (k : BitVec 3) (hk : k.toNat ≤ 4) := h.setKind hk
  cases i with
  | empty | unknownStart b => cases ht; exact (hk 0 (by decide)).bounds.stop_inv hp _ _
  | ack =>
    cases ht
    have hb := h.bounds
    refine Engine.Bounds.stop_inv hp ?_ _ _
    exact { hb with res_wf := { hb.res_wf with kind_le := show kindAck.toNat ≤ 4 by decide } }
  | short => cases ht; exact (hk kindShort (by decide)).validateShort_inv hp
  | control => cases ht; exact (hk kindControl (by decide)).validateLong_inv hp _
  | long l => cases ht; exact (hk kindLong (by decide)).validateLong_inv hp l
  | _ => nomatch hw

theorem exec_inv_difHead {i : Instr} {s t : State} {tail : Bool} (hp : s.params.maxRecords ≤ 128)
    (h : s.eng.AtHead s.params) (hw : i.wellFormed (.difHead tail) = true) (ht : exec i s = .next t) :
    t.eng.Inv s.params := by
  have hb := h.bounds
  cases i with
  | filler => cases ht; exact hb.loopHead_inv h.len_le
  | mfrBlock | mfrBlock0F => cases ht; exact hb.mfrBlock_inv hp _
  | endOfUserData =>
    cases ht
    rw [State.onEngine_eng]
    split <;> exact hb.stop_inv hp _ _
  | specialOther d => cases ht; exact hb.stop_inv hp _ _
  | _ => nomatch hw

theorem exec_inv_dife {i : Instr} {s t : State} (hp : s.params.maxRecords ≤ 128)
    (h : s.eng.InRecord s.params) (hroom : s.eng.dife.length < Config.chainMax)
    (hw : i.wellFormed .dife = true) (ht : exec i s = .next t) : t.eng.Inv s.params := by
  cases i with
  | dife e u tt sn =>
    cases ht
    refine Engine.InRecord.afterDif_inv hp ?_ e
    exact { h with bounds := { h.bounds with
      dife_le := by simp only [List.length_append, List.length_singleton]; omega } }
  | _ => nomatch hw

theorem exec_inv_vif {i : Instr} {s t : State} {rom : List VifEntry} (hp : s.params.maxRecords ≤ 128)
    (h : s.eng.InRecord s.params) (hw : i.wellFormed (.vif rom) = true) (ht : exec i s = .next t) :
    t.eng.Inv s.params := by
  cases i with
  | vif e code =>
    cases ht
    refine Engine.InRecord.afterVif_inv hp ?_ e
    exact { h with bounds := { h.bounds with vife_le := Nat.zero_le _ } }
  | vifPlaintext e code =>
    cases ht
    refine Engine.Bounds.stop_inv hp ?_ _ _
    exact { h.bounds with }
  | _ => nomatch hw

theorem exec_inv_vife {i : Instr} {s t : State} (hp : s.params.maxRecords ≤ 128)
    (h : s.eng.InRecord s.params) (hroom : s.eng.vife.length < Config.chainMax)
    (hw : i.wellFormed .vife = true) (ht : exec i s = .next t) : t.eng.Inv s.params := by
  cases i with
  | vife e raw =>
    cases ht
    refine Engine.InRecord.afterVif_inv hp ?_ e
    exact { h with bounds := { h.bounds with
      vife_le := by simp only [List.length_append, List.length_singleton]; omega } }
  | _ => nomatch hw

theorem exec_inv_lvar {i : Instr} {s t : State} (hp : s.params.maxRecords ≤ 128)
    (h : s.eng.InRecord s.params) (hw : i.wellFormed .lvar = true) (ht : exec i s = .next t) :
    t.eng.Inv s.params := by
  have hl (b : Byte) : ({ s.eng with lvar := b } : Engine).InRecord s.params :=
    { h with bounds := { h.bounds with } }
  cases i with
  | lvarTextLow n | lvarTextHigh n | lvarBcd n => cases ht; exact (hl _).unpack_inv hp _ _ _
  | lvarUnsupportedD n | lvarUnsupportedE n => cases ht; exact (hl _).bounds.stop_inv hp _ _
  | _ => nomatch hw

/-- Latching an ordinary DIF at UNPACK keeps the record's clauses. -/
theorem Engine.InRecord.with_dif {p : Params} {e : Engine} (h : e.InRecord p) (d : DifBits)
    {df : BitVec 4} (hdf : df ≠ 0xF#4) (lvar : Byte) :
    ({ e with dif := difByte d df, lvar := lvar } : Engine).InRecord p :=
  { h with bounds := { h.bounds with }, dif_ordinary := by rwa [dataField_difByte] }

theorem State.unpackField_inv {s : State} (hp : s.params.maxRecords ≤ 128)
    (h : s.eng.InRecord s.params) (d : DifBits) {df : BitVec 4} (hdf : df ≠ 0xF#4) (kind : ValueKind)
    (n : Nat) (dec : List Byte → Decoded) : (s.unpackField d df kind n dec).eng.Inv s.params :=
  (h.with_dif d hdf 0).unpack_inv hp kind n dec

theorem exec_inv_value {i : Instr} {s t : State} {hint : Hint} (hp : s.params.maxRecords ≤ 128)
    (h : s.eng.InRecord s.params) (hw : i.wellFormed (.value hint) = true) (ht : exec i s = .next t) :
    t.eng.Inv s.params := by
  cases i with
  | nodata d | int8 d | int16 d | date d | int24 d | int32 d | datetime d | real32 d | int48 d | int64 d
  | selection d | bcd2 d | bcd4 d | bcd6 d | bcd8 d | bcd12 d =>
    cases ht
    exact State.unpackField_inv hp h d (by decide) _ _ _
  | lvar d =>
    cases ht
    exact (h.with_dif d (by decide) s.eng.lvar).inv rfl nofun nofun
  | _ => nomatch hw

/-- Every meaning keeps the invariant of the working registers in the contexts it is dispatched in. -/
theorem exec_inv {c : Context} {i : Instr} {s t : State} (hp : s.params.maxRecords ≤ 128)
    (h : s.eng.ReadyFor s.params c) (hw : i.wellFormed c = true) (ht : exec i s = .next t) :
    t.eng.Inv s.params := by
  cases c with
  | frameStart => exact exec_inv_frameStart hp h hw ht
  | difHead tail => exact exec_inv_difHead hp h hw ht
  | dife => exact exec_inv_dife hp h.1 h.2 hw ht
  | vif rom => exact exec_inv_vif hp h hw ht
  | vife => exact exec_inv_vife hp h.1 h.2 hw ht
  | value hint => exact exec_inv_value hp h hw ht
  | lvar => exact exec_inv_lvar hp h hw ht
  | ctrl => exact h.elim

/-! ### No dispatch code -/

/-- Where the decoder reads no code the engine stops or starts a record (R184, R240). -/
theorem State.noCode_cases {s t : State} {err : DecodeError} {bytes : List Byte}
    (h : s.noCode err bytes = .next t) :
    (err = .needSecondByte ∧ t = s.onEngine fun e => (e.setKind 0).stop .incompleteFrame 1) ∨
      (err = .recordDif ∧ t = s.onEngine fun e => e.beginRecord (bytes.headD 0)) := by
  cases err with
  | needSecondByte => cases h; exact .inl ⟨rfl, rfl⟩
  | recordDif => cases h; exact .inr ⟨rfl, rfl⟩
  | noByte | dataFieldF | noStart => cases h

theorem State.noCode_engineOnly {s t : State} {err : DecodeError} {bytes : List Byte}
    (h : s.noCode err bytes = .next t) : s.EngineOnly t := by
  rcases State.noCode_cases h with ⟨-, rfl⟩ | ⟨-, rfl⟩
  · exact ⟨rfl, rfl, rfl⟩
  · exact ⟨rfl, (Engine.SameInputs.afterDif _ _).after rfl rfl⟩

theorem State.noCode_inv {c : Context} {s t : State} {err : DecodeError} {bytes : List Byte}
    (hp : s.params.maxRecords ≤ 128) (h : s.eng.ReadyFor s.params c)
    (hd : decode c bytes = .error err) (ht : s.noCode err bytes = .next t) : t.eng.Inv s.params := by
  rcases State.noCode_cases ht with ⟨rfl, rfl⟩ | ⟨rfl, rfl⟩
  · obtain rfl := decode_eq_needSecondByte hd
    exact (Engine.AtFrameStart.setKind h (by decide)).bounds.stop_inv hp _ _
  · obtain ⟨⟨tail, rfl⟩, hdf⟩ := decode_eq_recordDif hd
    obtain ⟨hb, hlen, hrs⟩ := h
    refine Engine.InRecord.afterDif_inv hp ?_ _
    exact ⟨{ hb with dife_le := Nat.zero_le _, vife_le := Nat.zero_le _ }, hlen, hrs, hdf⟩

/-! ### The whole turn -/

/-- Once PARSE has ended the turn is `complete`, and without a parse it is nothing (R153, R313). -/
theorem State.engineTurn_of_stopped {s : State} (h : s.eng.phase = .stopped) :
    s.engineTurn = .next (if s.busy then s.complete else s) := by
  unfold State.engineTurn State.engineStep
  rw [if_pos h]
  split <;> rfl

/-- A turn of the engine before `complete` changes its working registers only (R73, R78, R79). -/
theorem State.engineTurn_engineOnly {s t : State} (hph : s.eng.phase ≠ .stopped)
    (h : s.engineTurn = .next t) : s.EngineOnly t := by
  have hf := s.fetch_engineOnly
  rcases s.engineTurn_cases with ⟨-, heq⟩ | ⟨-, hs, -⟩ | ⟨-, -, u, hfe, heq⟩ |
    ⟨-, -, c, bytes, u, i, rest, hfe, hd, heq⟩ | ⟨-, -, c, bytes, u, err, hfe, hd, heq⟩
  · cases heq.symm.trans h; exact .refl s
  · exact absurd hs hph
  · cases heq.symm.trans h
    rwa [hfe] at hf
  · rw [hfe] at hf
    have hc := hfe ▸ s.fetch_notCtrl
    refine hf.trans (exec_engineOnly (fun x hi => hc ?_) (heq.symm.trans h))
    simpa [hi, Instr.wellFormed] using decode_wellFormed hd
  · rw [hfe] at hf
    exact hf.trans (State.noCode_engineOnly (heq.symm.trans h))

/-- A turn of the engine before `complete` keeps the invariant of the working registers. -/
theorem State.engineTurn_inv {s t : State} (hp : s.params.maxRecords ≤ 128) (hi : s.eng.Inv s.params)
    (hph : s.eng.phase ≠ .stopped) (h : s.engineTurn = .next t) : t.eng.Inv s.params := by
  have hf := State.fetch_sound hp hi
  have hparams := s.fetch_engineOnly.params
  rcases s.engineTurn_cases with ⟨-, heq⟩ | ⟨-, hs, -⟩ | ⟨-, -, u, hfe, heq⟩ |
    ⟨-, -, c, bytes, u, i, rest, hfe, hd, heq⟩ | ⟨-, -, c, bytes, u, err, hfe, hd, heq⟩
  · cases heq.symm.trans h; exact hi
  · exact absurd hs hph
  · cases heq.symm.trans h
    rwa [hfe] at hf
  · rw [hfe] at hf hparams
    rw [← show u.params = s.params from hparams] at hf hp ⊢
    exact exec_inv hp hf (decode_wellFormed hd) (heq.symm.trans h)
  · rw [hfe] at hf hparams
    rw [← show u.params = s.params from hparams] at hf hp ⊢
    exact State.noCode_inv hp hf hd (heq.symm.trans h)

end Sys2Proof.Machine
end

