-- ==== Sys2Proof/Proofs/HostAccess.lean ====
section
/-! PROOFS. One access of the host: what a write stores, lane by lane, what it leaves alone, and the CTRL
word. -/

namespace Sys2Proof.Machine

/-- A host access is the host's turn on the rest of the schedule. -/
theorem step_of_host {s : State} {op : HostOp} {ts : List Turn} (h : s.turns = .host op :: ts) :
    step s = State.hostTurn { s with turns := ts } op := by
  unfold step; simp only [h]

/-! ### The CTRL word -/

/-- A word is its four bytes in bus lane order (R71). -/
theorem append_wordBytes (w : Word) :
    w.extractLsb' 24 8 ++ w.extractLsb' 16 8 ++ w.extractLsb' 8 8 ++ w.extractLsb' 0 8 = w := by
  rw [BitVec.extractLsb'_append_extractLsb'_eq_extractLsb' (by rfl),
    BitVec.extractLsb'_append_extractLsb'_eq_extractLsb' (by rfl),
    BitVec.extractLsb'_append_extractLsb'_eq_extractLsb' (by rfl)]
  exact BitVec.extractLsb'_eq_self

theorem decode_ctrl_wordBytes (w : Word) :
    decode .ctrl (wordBytes w) =
      if w.getLsbD 0 then .ok (.start (w.extractLsb' 1 31), []) else .error .noStart := by
  simp only [decode, decodeCtrl, wordBytes, append_wordBytes]

/-- A CTRL write is START exactly when byte 0 is enabled and bit 0 is 1, else nothing (R39, R72, R150). -/
theorem State.ctrlWrite_eq (s : State) (data : Word) (be : BitVec 4) :
    s.ctrlWrite data be = if be.getLsbD 0 ∧ data.getLsbD 0 then
      exec (.start (data.extractLsb' 1 31)) s else .next s := by
  unfold State.ctrlWrite
  rw [decode_ctrl_wordBytes]
  cases be.getLsbD 0 <;> cases data.getLsbD 0 <;> simp

/-- Settles O13. -/
theorem ctrlWriteRunsStart : Obligations.CtrlWriteRunsStart := by
  intro s data be ts h
  have hidx := Params.wordIndex?_base s.params
  rw [step_of_host h, ← State.ctrlWrite_eq]
  simp only [State.hostTurn, hidx, State.windowWrite, if_true]

/-! ### What a write leaves alone -/

/-- `t` is `s` with other contents of CFG, LEN and memory (R35, R36, R72). -/
def State.InputsOnly (s t : State) : Prop := t = { s with cfg := t.cfg, len := t.len, mem := t.mem }

theorem State.InputsOnly.trans {s t u : State} (h : s.InputsOnly t) (h' : t.InputsOnly u) :
    s.InputsOnly u := by
  unfold State.InputsOnly at h h' ⊢
  rw [h] at h'
  exact h'

theorem State.writeLane_inputsOnly (s : State) (off : Nat) (data : Word) (be : BitVec 4) (k : Nat) :
    s.InputsOnly (s.writeLane off data be k) := by
  unfold State.writeLane
  split
  · rcases s.writeByte_cases (off + k) (data.extractLsb' (8 * k) 8) with ⟨-, heq⟩ | ⟨-, heq⟩ |
      ⟨-, heq⟩ | ⟨-, heq⟩ | ⟨-, heq⟩ <;> rw [heq] <;> rfl
  · rfl

/-- The four lanes of a host write at a word (R71). -/
def State.writeLanes (s : State) (idx : Nat) (data : Word) (be : BitVec 4) : State :=
  (((s.writeLane (4 * idx) data be 0).writeLane (4 * idx) data be 1).writeLane
    (4 * idx) data be 2).writeLane (4 * idx) data be 3

theorem State.writeLanes_inputsOnly (s : State) (idx : Nat) (data : Word) (be : BitVec 4) :
    s.InputsOnly (s.writeLanes idx data be) :=
  (((s.writeLane_inputsOnly _ data be 0).trans (State.writeLane_inputsOnly _ _ data be 1)).trans
    (State.writeLane_inputsOnly _ _ data be 2)).trans (State.writeLane_inputsOnly _ _ data be 3)

/-- A host write changes CFG, LEN and memory by its lanes, and marks HAZARD and the parse when a lane lies
on an input while BUSY (R71, R343). -/
theorem State.hostWrite_eq (s : State) (idx : Nat) (data : Word) (be : BitVec 4) :
    s.hostWrite idx data be = { s with
      cfg := (s.writeLanes idx data be).cfg
      len := (s.writeLanes idx data be).len
      mem := (s.writeLanes idx data be).mem
      hazard := s.hazard || (s.busy && touchesInput s.params (4 * idx) be)
      eng := { s.eng with
        tainted := s.eng.tainted || (s.busy && touchesInput s.params (4 * idx) be) } } := by
  have hl : s.writeLanes idx data be = _ := s.writeLanes_inputsOnly idx data be
  rcases s.hostWrite_cases idx data be with ⟨h, heq⟩ | ⟨h, heq⟩
  · rw [heq, h, Bool.or_true, Bool.or_true]
    exact congrArg State.markHazard hl
  · rw [heq, h, Bool.or_false, Bool.or_false]
    exact hl

/-! ### What one byte lane stores -/

section Lane
variable (s : State) (a : Nat) (b : Byte)

theorem State.writeByte_cfg :
    (s.writeByte a b).cfg = if a = 4 then ⟨b.extractLsb' 0 4, b.getLsbD 4⟩ else s.cfg := by
  unfold State.writeByte
  repeat' split
  all_goals rfl

theorem State.writeByte_len_low :
    (s.writeByte a b).len.extractLsb' 0 8 = if a = 8 then b else s.len.extractLsb' 0 8 := by
  unfold State.writeByte
  by_cases h8 : a = 8
  · rw [if_pos h8, if_neg (by omega), if_pos h8]
    exact BitVec.extractLsb'_append_eq_right
  · rw [if_neg h8, if_neg h8]
    split
    · rfl
    split
    · exact BitVec.extractLsb'_append_eq_right
    split <;> rfl

theorem State.writeByte_len_high :
    (s.writeByte a b).len.extractLsb' 8 8 = if a = 9 then b else s.len.extractLsb' 8 8 := by
  unfold State.writeByte
  by_cases h9 : a = 9
  · rw [if_pos h9, if_neg (by omega), if_neg (by omega), if_pos h9]
    exact BitVec.extractLsb'_append_eq_left
  · rw [if_neg h9, if_neg h9]
    split
    · rfl
    split
    · exact BitVec.extractLsb'_append_eq_left
    split <;> rfl

theorem State.read_writeByte (x : Nat) (hm : Memory.Wf s.mem) :
    Memory.read (s.writeByte a b).mem x =
      if (isHdr a || isIn s.params a) = true ∧ a = x then some b else Memory.read s.mem x := by
  have hreg (h : a < 0x100) : (isHdr a || isIn s.params a) = false := by
    rw [Bool.eq_false_iff, ne_eq, Bool.or_eq_true, isHdr_iff, isIn_iff]
    omega
  rcases s.writeByte_cases a b with ⟨h, heq⟩ | ⟨h, heq⟩ | ⟨h, heq⟩ | ⟨h, heq⟩ | ⟨h, heq⟩ <;> rw [heq]
  case inr.inr.inr.inl => simp [h, Memory.read_write s.mem a x b hm.1]
  case inr.inr.inr.inr => simp [h]
  all_goals simp [hreg (by omega)]

end Lane

section Lane
variable (s : State) (off : Nat) (data : Word) (be : BitVec 4) (k : Nat)

@[simp] theorem State.writeLane_params : (s.writeLane off data be k).params = s.params := by
  rw [s.writeLane_inputsOnly off data be k]

theorem State.writeLane_cfg : (s.writeLane off data be k).cfg =
    if off + k = 4 ∧ be.getLsbD k then
      ⟨(data.extractLsb' (8 * k) 8).extractLsb' 0 4, (data.extractLsb' (8 * k) 8).getLsbD 4⟩
    else s.cfg := by
  unfold State.writeLane
  cases be.getLsbD k <;> simp [State.writeByte_cfg]

theorem State.writeLane_len_low : (s.writeLane off data be k).len.extractLsb' 0 8 =
    if off + k = 8 ∧ be.getLsbD k then data.extractLsb' (8 * k) 8 else s.len.extractLsb' 0 8 := by
  unfold State.writeLane
  cases be.getLsbD k <;> simp [State.writeByte_len_low]

theorem State.writeLane_len_high : (s.writeLane off data be k).len.extractLsb' 8 8 =
    if off + k = 9 ∧ be.getLsbD k then data.extractLsb' (8 * k) 8 else s.len.extractLsb' 8 8 := by
  unfold State.writeLane
  cases be.getLsbD k <;> simp [State.writeByte_len_high]

theorem State.read_writeLane (x : Nat) (hm : Memory.Wf s.mem) :
    Memory.read (s.writeLane off data be k).mem x =
      if (isHdr x || isIn s.params x) = true ∧ off + k = x ∧ be.getLsbD k then
        some (data.extractLsb' (8 * k) 8)
      else Memory.read s.mem x := by
  unfold State.writeLane
  cases be.getLsbD k
  · simp
  · rw [if_pos rfl, State.read_writeByte _ _ _ _ hm]
    by_cases hx : off + k = x <;> simp [hx]

end Lane

/-! ### What the four lanes store -/

section Lanes
variable (s : State) (idx : Nat) (data : Word) (be : BitVec 4)

/-- CFG stands in byte 0 of word 1 (R36). -/
theorem State.writeLanes_cfg : (s.writeLanes idx data be).cfg =
    if idx = 1 ∧ be.getLsbD 0 then ⟨data.extractLsb' 0 4, data.getLsbD 4⟩ else s.cfg := by
  have h0 : 4 * idx + 0 = 4 ↔ idx = 1 := by omega
  have h1 : 4 * idx + 1 ≠ 4 := by omega
  have h2 : 4 * idx + 2 ≠ 4 := by omega
  have h3 : 4 * idx + 3 ≠ 4 := by omega
  unfold State.writeLanes
  simp only [State.writeLane_cfg, h0, h1, h2, h3, false_and, if_false]
  have hlow : (data.extractLsb' 0 8).extractLsb' 0 4 = data.extractLsb' 0 4 := by
    ext i hi
    simp
  rw [Nat.mul_zero, hlow]
  simp

/-- LEN stands in bytes 0 and 1 of word 2 (R35). -/
theorem State.writeLanes_len : (s.writeLanes idx data be).len =
    (if idx = 2 ∧ be.getLsbD 1 then data.extractLsb' 8 8 else s.len.extractLsb' 8 8)
      ++ (if idx = 2 ∧ be.getLsbD 0 then data.extractLsb' 0 8 else s.len.extractLsb' 0 8) := by
  have hsplit (x : Half) : x = x.extractLsb' 8 8 ++ x.extractLsb' 0 8 := by
    rw [BitVec.extractLsb'_append_extractLsb'_eq_extractLsb' (by rfl)]
    exact BitVec.extractLsb'_eq_self.symm
  have h0 : 4 * idx + 0 = 8 ↔ idx = 2 := by omega
  have h1 : 4 * idx + 1 = 9 ↔ idx = 2 := by omega
  have h01 : 4 * idx + 0 ≠ 9 := by omega
  have h10 : 4 * idx + 1 ≠ 8 := by omega
  have h2 : 4 * idx + 2 ≠ 8 := by omega
  have h29 : 4 * idx + 2 ≠ 9 := by omega
  have h3 : 4 * idx + 3 ≠ 8 := by omega
  have h39 : 4 * idx + 3 ≠ 9 := by omega
  rw [hsplit (s.writeLanes idx data be).len]
  unfold State.writeLanes
  simp only [State.writeLane_len_low, State.writeLane_len_high, h0, h1, h01, h10, h2, h29, h3, h39,
    false_and, if_false]

/-- Each enabled lane on HDR_TABLE or IN is stored, every other byte stays (R71, R72). -/
theorem State.read_writeLanes (a : Nat) (hm : Memory.Wf s.mem) :
    Memory.read (s.writeLanes idx data be).mem a =
      if (isHdr a || isIn s.params a) = true ∧ a / 4 = idx ∧ be.getLsbD (a % 4) = true then
        some (data.extractLsb' (8 * (a % 4)) 8)
      else Memory.read s.mem a := by
  have hm0 := State.wf_writeLane (4 * idx) data be 0 hm
  have hm1 := State.wf_writeLane (4 * idx) data be 1 hm0
  have hm2 := State.wf_writeLane (4 * idx) data be 2 hm1
  have hlane (k : Nat) (hk : k < 4) : 4 * idx + k = a ↔ a / 4 = idx ∧ a % 4 = k := by omega
  unfold State.writeLanes
  rw [State.read_writeLane _ _ _ _ _ _ hm2, State.read_writeLane _ _ _ _ _ _ hm1,
    State.read_writeLane _ _ _ _ _ _ hm0, State.read_writeLane _ _ _ _ _ _ hm]
  simp only [State.writeLane_params, hlane 0 (by omega), hlane 1 (by omega), hlane 2 (by omega),
    hlane 3 (by omega)]
  have hlt : a % 4 < 4 := Nat.mod_lt _ (by omega)
  generalize a % 4 = k at hlt ⊢
  interval_cases k <;> simp

end Lanes

/-! ### Bytes of the window -/

theorem State.memByte_congr {s t : State} {a : Nat} (hp : t.params = s.params)
    (hi : t.inEpoch = s.inEpoch) (hr : t.recEpoch = s.recEpoch)
    (hm : Memory.read t.mem a = Memory.read s.mem a) : t.memByte a = s.memByte a := by
  unfold State.memByte
  rw [hp, hi, hr, hm]

theorem State.memByte_of_read {s : State} {a : Nat} {b : Byte}
    (ha : (isHdr a || isIn s.params a) = true) (hm : Memory.read s.mem a = some b) :
    s.memByte a = b := by
  unfold State.memByte
  rw [hm]
  cases h : isHdr a <;> cases h' : isIn s.params a <;> simp [h, h'] at ha ⊢

/-- The byte at each offset after a host write (R34, R37, R71, R72). -/
theorem State.memByte_hostWrite (s : State) (idx : Nat) (data : Word) (be : BitVec 4) (a : Nat)
    (hm : Memory.Wf s.mem) : (s.hostWrite idx data be).memByte a =
      if (isHdr a || isIn s.params a) = true ∧ a / 4 = idx ∧ be.getLsbD (a % 4) = true then
        data.extractLsb' (8 * (a % 4)) 8
      else s.memByte a := by
  have hread := s.read_writeLanes idx data be a hm
  rw [s.hostWrite_eq]
  split
  · rename_i hlane
    rw [if_pos hlane] at hread
    exact State.memByte_of_read hlane.1 hread
  · rename_i hlane
    rw [if_neg hlane] at hread
    exact State.memByte_congr rfl rfl rfl hread

/-- Settles O8: the lanes' stores and frame, and the hazard's mark on top of them. -/
theorem hostWriteStoresItsLanes : Obligations.HostWriteStoresItsLanes := by
  intro s idx data be ts h ht hidx
  have hstep : step s = .next (State.hostWrite { s with turns := ts } idx.toNat data be) := by
    have hw := Params.wordIndex?_base_add s.params idx
    have h0 : idx ≠ 0 := fun h0 => hidx (by rw [h0]; rfl)
    rw [step_of_host ht]
    simp only [State.hostTurn, hw, State.windowWrite, if_neg h0]
  refine ⟨_, hstep, fun a => ?_, ?_⟩
  · exact State.memByte_hostWrite { s with turns := ts } idx.toNat data be a h.mem_wf
  · rw [State.hostWrite_eq]
    exact ⟨State.writeLanes_cfg .., State.writeLanes_len .., rfl, rfl, rfl, rfl, rfl, rfl, rfl, rfl, rfl,
      rfl, rfl⟩

end Sys2Proof.Machine
end

