-- ==== Sys2Proof/Proofs/StateInvariant.lean ====
section
/-! PROOFS. The invariant of the machine: it holds at reset and every step keeps it. -/

namespace Sys2Proof.Machine

/-! ### The updates of the state that keep the invariant -/

/-- The schedule and the word on the bus are not part of the invariant. -/
theorem State.Inv.with_turns {s : State} (h : s.Inv) (ts : List Turn) :
    ({ s with turns := ts } : State).Inv := { h with }

theorem State.Inv.hostRead {s : State} (h : s.Inv) (idx : Nat) : (s.hostRead idx).Inv := { h with }

theorem State.Inv.engineOnly {s t : State} (h : s.Inv) (ht : s.EngineOnly t)
    (he : t.eng.Inv s.params) : t.Inv := by
  have htaint := ht.inputs.tainted
  rw [ht.state]
  exact { h with engine := he, untainted := fun hz => htaint.trans (h.untainted hz) }

theorem State.Inv.markHazard {s : State} (h : s.Inv) : s.markHazard.Inv :=
  { h with
    engine := { h.engine with }
    untainted := nofun
    res_wf := nofun
    entries := nofun }

/-- A byte of HDR_TABLE or IN lies below the record memory: MAX_LEN is at most 4096 (R6, R70). -/
theorem lt_recBase_of_isHdr_or_isIn {p : Params} (hp : p.Wf) {a : Nat}
    (h : (isHdr a || isIn p a) = true) : a < recBase := by
  have := hp.maxLen_le
  rw [Bool.or_eq_true, isHdr_iff, isIn_iff] at h
  unfold recBase
  omega

theorem State.Inv.writeByte {s : State} (h : s.Inv) (a : Nat) (b : Byte) : (s.writeByte a b).Inv := by
  rcases s.writeByte_cases a b with ⟨-, heq⟩ | ⟨-, heq⟩ | ⟨-, heq⟩ | ⟨ha, heq⟩ | ⟨-, heq⟩ <;> rw [heq]
  case inr.inr.inr.inl =>
    have hlt := lt_recBase_of_isHdr_or_isIn h.params_wf ha
    exact { h with
      mem_wf := Memory.wf_write a b h.mem_wf
      mem_place := fun c hc => by
        rcases Memory.mem_write hc with rfl | hc
        · exact Bool.or_eq_true_iff.2 (.inl ha)
        · exact h.mem_place c hc
      entries := fun hz x hx hx' => by
        simp only
        rw [Memory.find?_write_of_ne b h.mem_wf.1 (by omega)]
        exact h.entries hz x hx hx' }
  all_goals exact { h with }

theorem State.Inv.writeLane {s : State} (h : s.Inv) (off : Nat) (data : Word) (be : BitVec 4)
    (k : Nat) : (s.writeLane off data be k).Inv := by
  unfold State.writeLane
  split
  · exact h.writeByte _ _
  · exact h

/-- A host write other than to CTRL keeps the invariant (R72, R343). -/
theorem State.Inv.hostWrite {s : State} (h : s.Inv) (idx : Nat) (data : Word) (be : BitVec 4) :
    (s.hostWrite idx data be).Inv := by
  have hw := (((h.writeLane (4 * idx) data be 0).writeLane (4 * idx) data be 1).writeLane
    (4 * idx) data be 2).writeLane (4 * idx) data be 3
  rcases s.hostWrite_cases idx data be with ⟨-, heq⟩ | ⟨-, heq⟩ <;> rw [heq]
  · exact hw.markHazard
  · exact hw

/-- The working registers at the start of a parse, whatever inputs were latched (R150, R170). -/
theorem Engine.start_inv (p : Params) {l : Latch} (hm : Memory.Wf l.mem) :
    ({ Engine.reset with latch := l, lim := l.len.toNat } : Engine).Inv p where
  latch_wf := hm
  pos_le := Nat.zero_le _
  lim_le := le_refl _
  len_le hs := absurd rfl hs
  start _ := ⟨rfl, rfl, rfl, rfl⟩
  record hs := nomatch hs
  dife_le := Nat.zero_le _
  vife_le := Nat.zero_le _
  dife_room hs := nomatch hs
  vife_room hs := nomatch hs
  recs_le := Nat.zero_le _
  res_wf := Results.zero_wf _
  count hs := nomatch hs

/-- No record is counted when the results are 0. -/
theorem entries_zero {m : List Host.Cell} (a : Nat) (h : recBase ≤ a)
    (h' : a < recBase + 64 * Results.zero.recCount.toNat) : (Memory.find? m a).isSome = true := by
  simp [Results.zero] at h'
  omega

/-- An accepted START keeps the invariant (R150, R152). -/
theorem State.Inv.accept {s : State} (h : s.Inv) : s.accept.Inv where
  params_wf := h.params_wf
  mem_wf := Memory.wf_ram h.mem_wf
  mem_place c hc := h.mem_place c (List.mem_filter.1 hc).1
  not_both := nofun
  engine := Engine.start_inv _ (Memory.wf_ram h.mem_wf)
  untainted _ := rfl
  cleared _ := rfl
  res_wf _ := Results.zero_wf _
  entries _ := entries_zero

/-- A reset leads to the invariant whatever the registers held (R340, R341). -/
theorem State.resetAll_inv {s : State} (hp : s.params.Wf) : s.resetAll.Inv where
  params_wf := hp
  mem_wf := Memory.wf_nil
  mem_place := nofun
  not_both := nofun
  engine := Engine.start_inv _ (l := Engine.reset.latch) Memory.wf_nil
  untainted _ := rfl
  cleared _ := rfl
  res_wf _ := Results.zero_wf _
  entries _ := entries_zero

/-- Publishing results that count their records keeps the invariant; after an input write there is
nothing to count (R153, R343). -/
theorem State.Inv.publish {s : State} (h : s.Inv) (res : Results) (recs : List Record)
    (hlen : recs.length ≤ s.params.maxRecords) (hres : s.hazard = false → res.Wf s.params)
    (hcount : s.hazard = false → res.recCount.toNat = recs.length) : (s.publish res recs).Inv where
  params_wf := h.params_wf
  mem_wf := Memory.wf_publish recs h.mem_wf
  mem_place c hc := by
    rcases List.mem_append.1 hc with hc | hc
    · exact h.mem_place c (List.mem_filter.1 hc).1
    · have hplace := recCells_place hc
      rw [Bool.or_eq_true, isRec_iff]
      unfold recBase at hplace
      exact .inr ⟨hplace.1, show c.1 < 0x2000 + 64 * s.params.maxRecords by omega⟩
  not_both := nofun
  engine := h.engine
  untainted := h.untainted
  cleared := nofun
  res_wf := hres
  entries hz a ha ha' := by
    rw [State.publish_res, hcount hz] at ha'
    obtain ⟨k, rfl⟩ := Nat.exists_eq_add_of_le ha
    rw [State.publish_mem, Memory.find?_publish, if_neg (by omega), find?_recCells recs k (by omega)]
    rfl

/-- `complete` keeps the invariant (R153, R306, R343). -/
theorem State.Inv.complete {s : State} (h : s.Inv) (hph : s.eng.phase = .stopped) :
    s.complete.Inv := by
  rcases s.complete_cases with ⟨ht, heq⟩ | ⟨-, heq⟩ <;> rw [heq]
  · have hz : s.hazard = false → s.eng.tainted ≠ true := fun hz => by simp [h.untainted hz]
    exact { h.publish (anyResults s.draws) [] (Nat.zero_le _) (fun hzf => absurd ht (hz hzf))
      (fun hzf => absurd ht (hz hzf)) with }
  · exact h.publish _ _ h.engine.recs_le (fun _ => h.engine.res_wf) (fun _ => h.engine.count hph)

/-! ### The turns -/

theorem State.Inv.engineTurn {s t : State} (h : s.Inv) (ht : s.engineTurn = .next t) : t.Inv := by
  by_cases hph : s.eng.phase = .stopped
  · rw [State.engineTurn_of_stopped hph] at ht
    cases ht
    split
    · exact h.complete hph
    · exact h
  · exact h.engineOnly (State.engineTurn_engineOnly hph ht)
      (State.engineTurn_inv h.params_wf.maxRecords_le h.engine hph ht)

theorem State.Inv.ctrlWrite {s t : State} (h : s.Inv) {data : Word} {be : BitVec 4}
    (ht : s.ctrlWrite data be = .next t) : t.Inv := by
  rw [State.ctrlWrite_eq] at ht
  split at ht
  · cases ht
    split
    · exact h
    · exact h.accept
  · cases ht; exact h

theorem State.Inv.hostTurn {s t : State} (h : s.Inv) {op : HostOp} (ht : s.hostTurn op = .next t) :
    t.Inv := by
  rcases s.hostTurn_cases op with heq | ⟨idx, -, heq⟩ | ⟨data, be, -, heq⟩ | ⟨idx, data, be, -, -, heq⟩ |
    ⟨-, heq⟩
  · cases heq.symm.trans ht; exact h
  · cases heq.symm.trans ht; exact h.hostRead _
  · exact h.ctrlWrite (heq.symm.trans ht)
  · cases heq.symm.trans ht; exact h.hostWrite _ _ _
  · cases heq.symm.trans ht; exact State.resetAll_inv h.params_wf

/-! ### The statements -/

theorem Params.default_wf : Params.default.Wf :=
  ⟨by decide, by decide, by decide, by decide, rfl⟩

/-- Settles O22: the reset state is what a reset leaves, with the default parameters. -/
theorem resetMeetsTheInvariant : Obligations.ResetMeetsTheInvariant := by
  have h := State.resetAll_inv (s := State.reset) Params.default_wf
  exact { h with }

/-- Settles O23: an engine turn, `complete`, START, a host access or a reset, each keeps the invariant. -/
theorem stepKeepsTheInvariant : Obligations.StepKeepsTheInvariant := by
  intro s t h ht
  rcases step_cases s with ⟨-, heq⟩ | ⟨ts, -, heq⟩ | ⟨op, ts, -, heq⟩
  · exact h.engineTurn (heq.symm.trans ht)
  · exact (h.with_turns ts).engineTurn (heq.symm.trans ht)
  · exact (h.with_turns ts).hostTurn (heq.symm.trans ht)

end Sys2Proof.Machine
end

