-- ==== Sys2Proof/Proofs/ParseOutcome.lean ====
section
/-! PROOFS. PARSE as one function: how each part of it ends, and the outcome classes of R301. -/

namespace Sys2Proof.Machine

/-! ### The checksum of a stretch of IN (R196) -/

theorem Latch.checksum_slice (l : Latch) (a n : Nat) :
    (checksum (l.slice a n)).toNat = l.sum a n % 256 := by
  induction n generalizing a with
  | zero => rfl
  | succ n ih =>
    have hsum : l.sum a (n + 1) = l.sum (a + 1) n + (l.byte a).toNat := by
      unfold Latch.sum
      rw [Finset.sum_range_succ']
      simp only [Nat.add_zero, Nat.add_right_comm a 1, Nat.add_assoc]
    rw [hsum, Latch.slice, checksum, BitVec.toNat_add, ih]
    omega

/-! ### How a record ends -/

/-- The codes that end a record, and with it the walk, inside an ordinary record (R218, R219, R245, R269). -/
def Code.EndsRecord (code : Code) : Prop :=
  code = .malformedDIFChain ∨ code = .truncatedRecord ∨ code = .unsupported

theorem parseValue_stop {l : Latch} {lim rs pos off : Nat} {dif vif lvar : Byte} {entry : VifEntry}
    {dife vife : List Byte} {field : ValueKind × Nat × (List Byte → Decoded)} {code : Code}
    (h : parseValue l lim rs dif vif entry dife vife lvar pos field = .stop code off) :
    code = .truncatedRecord := by
  unfold parseValue at h
  dsimp only at h
  split at h <;> cases h
  rfl

theorem parseUnpack_stop {l : Latch} {lim rs pos off : Nat} {dif vif : Byte} {entry : VifEntry}
    {dife vife : List Byte} {code : Code}
    (h : parseUnpack l lim rs dif vif entry dife vife pos = .stop code off) : code.EndsRecord := by
  unfold parseUnpack at h
  dsimp only at h
  split at h
  · split at h
    · cases h; exact .inr (.inl rfl)
    split at h
    · exact .inr (.inl (parseValue_stop h))
    split at h
    · exact .inr (.inl (parseValue_stop h))
    · cases h; exact .inr (.inr rfl)
  · exact .inr (.inl (parseValue_stop h))

theorem parseRecord_stop {p : Params} {l : Latch} {lim rs off : Nat} {code : Code}
    (h : parseRecord p l lim rs = .stop code off) : code.EndsRecord := by
  unfold parseRecord at h
  dsimp only at h
  split at h
  · cases h; exact .inl rfl
  · cases h; exact .inr (.inl rfl)
  split at h
  · cases h; exact .inr (.inl rfl)
  split at h
  · cases h; exact .inr (.inr rfl)
  split at h
  · cases h; exact .inl rfl
  · cases h; exact .inr (.inl rfl)
  · exact parseUnpack_stop h

/-! ### How the walk ends -/

/-- A stop of the walk: no frame-level code, a record memory that was never overrun, and offset 0 with
OK (R217, R302, R304). -/
def ParseResult.EndsWalk (p : Params) (res : Results) (r : ParseResult) : Prop :=
  ∃ code off recs, r = parseStop code off res recs ∧ code.frameLevel = false ∧
    recs.length ≤ p.maxRecords ∧ (code = .ok → off = 0)

theorem parseStop_endsWalk {p : Params} {code : Code} {off : Nat} {res : Results} {recs : List Record}
    (hcode : code.frameLevel = false) (hn : recs.length ≤ p.maxRecords) (hok : code = .ok → off = 0) :
    (parseStop code off res recs).EndsWalk p res :=
  ⟨code, off, recs, rfl, hcode, hn, hok⟩

theorem Code.EndsRecord.endsWalk {p : Params} {code : Code} {off : Nat} {res : Results}
    {recs : List Record} (h : code.EndsRecord) (hn : recs.length ≤ p.maxRecords) :
    (parseStop code off res recs).EndsWalk p res := by
  rcases h with rfl | rfl | rfl <;> exact parseStop_endsWalk rfl hn nofun

theorem parseWalk_endsWalk (p : Params) (l : Latch) (lim : Nat) (res : Results) (fuel pos : Nat)
    (recs : List Record) (hn : recs.length ≤ p.maxRecords) :
    (parseWalk p l lim res fuel pos recs).EndsWalk p res := by
  induction fuel generalizing pos recs with
  | zero => exact parseStop_endsWalk rfl hn fun _ => rfl
  | succ fuel ih =>
    have happend (r : Record) (h : recs.length ≠ p.maxRecords) :
        (recs ++ [r]).length ≤ p.maxRecords := by
      simp only [List.length_append, List.length_singleton]; omega
    unfold parseWalk
    dsimp only
    split
    · exact parseStop_endsWalk rfl hn fun _ => rfl
    split
    · exact ih _ _ hn
    split
    · split
      · exact parseStop_endsWalk rfl hn nofun
      · exact parseStop_endsWalk rfl hn fun _ => rfl
    split
    · split
      · exact parseStop_endsWalk rfl hn nofun
      · exact parseStop_endsWalk rfl (happend _ ‹_›) fun _ => rfl
    split
    · exact parseStop_endsWalk rfl hn nofun
    split
    · rename_i hrec
      exact (parseRecord_stop hrec).endsWalk hn
    · split
      · exact parseStop_endsWalk rfl hn nofun
      · exact ih _ _ (happend _ ‹_›)

/-! ### The outcome classes -/

/-- What an outcome of each class leaves (R154, R219, R300, R303, R304). -/
structure ParseResult.InClass (l : Latch) (r : ParseResult) (code : Code) : Prop where
  code_eq : r.res.code = code.num
  frame : code.frameLevel = true → r.recs = [] ∧ ∃ off, r.res = frameFailure code off r.res.kind
  malformed : code = .malformedDIFChain →
    l.ValidLong ∧ r.recs = [] ∧ r.res.recsValid = false ∧ r.res.recCount = 0 ∧
      r.res.frameLen.toNat = (l.byte 1).toNat + 6
  partly : code ∈ [.truncatedRecord, .trailingData, .unsupported, .recordLimit] →
    l.ValidLong ∧ r.res.recsValid = true ∧ r.res.recCount.toNat = r.recs.length
  ok : code = .ok →
    r.res.recsValid = true ∧ r.res.recCount.toNat = r.recs.length ∧ r.res.errOffset = 0 ∧
      (r.res.kind = 1 ∨ r.res.kind = 2 → r.recs = [])

/-- A frame-level failure keeps nothing but CODE, ERR_OFFSET and KIND (R154). -/
theorem parseStop_frameLevel_inClass (l : Latch) {code : Code} (h : code.frameLevel = true) (off : Nat)
    (res : Results) (recs : List Record) : (parseStop code off res recs).InClass l code := by
  cases code <;> cases h
  all_goals exact ⟨rfl, fun _ => ⟨rfl, off, rfl⟩, nofun, by simp, nofun⟩

/-- An Ack or a ShortFrame that is valid ends with OK and no record (R182, R190). -/
theorem parseStop_ok_inClass (l : Latch) (res : Results) :
    (parseStop .ok 0 res []).InClass l .ok :=
  ⟨rfl, nofun, nofun, by simp, fun _ => ⟨rfl, rfl, rfl, fun _ => rfl⟩⟩

/-- The walk of a valid long frame ends in one of the application-level classes (R219, R304). -/
theorem ParseResult.EndsWalk.inClass {p : Params} {l : Latch} {res : Results} {r : ParseResult}
    (hp : p.maxRecords ≤ 128) (hl : l.ValidLong) (hlen : res.frameLen.toNat = (l.byte 1).toNat + 6)
    (hkind : ¬(res.kind = 1 ∨ res.kind = 2)) (h : r.EndsWalk p res) : ∃ code, r.InClass l code := by
  obtain ⟨code, off, recs, rfl, hcode, hn, hok⟩ := h
  have hcount : (parseStop code off res recs).res.recCount.toNat =
      if code.keepsRecords then recs.length else 0 := stopResults_recCount off res (by omega)
  refine ⟨code, ?_⟩
  cases code with
  | ok =>
    obtain rfl := hok rfl
    exact ⟨rfl, nofun, nofun, by simp, fun _ => ⟨rfl, hcount, rfl, fun hk => absurd hk hkind⟩⟩
  | malformedDIFChain =>
    exact ⟨rfl, nofun, fun _ => ⟨hl, rfl, rfl, rfl, hlen⟩, by simp, nofun⟩
  | truncatedRecord | trailingData | unsupported | recordLimit =>
    exact ⟨rfl, nofun, nofun, fun _ => ⟨hl, rfl, hcount⟩, nofun⟩
  | _ => cases hcode

/-! ### The frame kinds -/

theorem parseShort_inClass (l : Latch) : ∃ code, (parseShort l).InClass l code := by
  unfold parseShort
  dsimp only
  split
  · exact ⟨_, parseStop_frameLevel_inClass l rfl _ _ _⟩
  split
  · exact ⟨_, parseStop_frameLevel_inClass l rfl _ _ _⟩
  split
  · exact ⟨_, parseStop_frameLevel_inClass l rfl _ _ _⟩
  · exact ⟨_, parseStop_ok_inClass l _⟩

theorem parseLong_inClass {p : Params} {l : Latch} (hp : p.maxRecords ≤ 128)
    (hstart : l.byte 0 = 0x68#8) : ∃ code, (parseLong p l).InClass l code := by
  unfold parseLong
  dsimp only
  split
  · exact ⟨_, parseStop_frameLevel_inClass l rfl _ _ _⟩
  split
  · exact ⟨_, parseStop_frameLevel_inClass l rfl _ _ _⟩
  split
  · exact ⟨_, parseStop_frameLevel_inClass l rfl _ _ _⟩
  split
  · exact ⟨_, parseStop_frameLevel_inClass l rfl _ _ _⟩
  split
  · exact ⟨_, parseStop_frameLevel_inClass l rfl _ _ _⟩
  split
  · exact ⟨_, parseStop_frameLevel_inClass l rfl _ _ _⟩
  split
  · exact ⟨_, parseStop_frameLevel_inClass l rfl _ _ _⟩
  rename_i hcopies hmin hcomplete hsecond hsum hstop
  have hl : l.ValidLong :=
    { start := hstart, copies := not_ne_iff.1 hcopies, minimum := by omega, complete := by omega
      second := not_ne_iff.1 hsecond, stop := not_ne_iff.1 hstop
      checksum := by rw [not_ne_iff.1 hsum, Latch.checksum_slice] }
  have hlen : (BitVec.ofNat 16 ((l.byte 1).toNat + 6)).toNat = (l.byte 1).toNat + 6 := by
    rw [BitVec.toNat_ofNat]; omega
  have hkind : ¬((if l.byte 1 = Config.controlL then kindControl else kindLong) = 1 ∨
      (if l.byte 1 = Config.controlL then kindControl else kindLong) = 2) := by
    split <;> decide
  split
  · refine ParseResult.EndsWalk.inClass hp hl ?_ ?_ (parseStop_endsWalk rfl (Nat.zero_le _) nofun)
    · exact hlen
    · exact hkind
  · refine ParseResult.EndsWalk.inClass hp hl ?_ ?_ (parseWalk_endsWalk p l _ _ _ _ _ (Nat.zero_le _))
    · exact hlen
    · exact hkind

theorem parse_inClass {p : Params} (hp : p.maxRecords ≤ 128) (l : Latch) :
    ∃ code, (parse p l).InClass l code := by
  unfold parse
  dsimp only
  split
  · exact ⟨_, parseStop_frameLevel_inClass l rfl _ _ _⟩
  split
  · exact ⟨_, parseStop_frameLevel_inClass l rfl _ _ _⟩
  split
  · exact ⟨_, parseStop_ok_inClass l _⟩
  split
  · exact parseShort_inClass l
  split
  · split
    · exact ⟨_, parseStop_frameLevel_inClass l rfl _ _ _⟩
    · exact parseLong_inClass hp ‹_›
  · exact ⟨_, parseStop_frameLevel_inClass l rfl _ _ _⟩

/-- Settles O50. -/
theorem everyParseEndsInOneOutcomeClass : Obligations.EveryParseEndsInOneOutcomeClass := by
  intro p l hp
  obtain ⟨code, h⟩ := parse_inClass hp.maxRecords_le l
  exact ⟨code, h.code_eq, h.frame, h.malformed, h.partly, h.ok⟩

end Sys2Proof.Machine
end

