-- ==== Sys2Proof/Proofs/RecordLayout.lean ====
section
/-! PROOFS. The bytes of a record memory entry, field by field (R48). -/

namespace Sys2Proof.Machine

/-! ### Bit strings and bytes as numbers -/

/-- The number of two bit strings side by side. -/
theorem toNat_append_add {n m : Nat} (x : BitVec n) (y : BitVec m) :
    (x ++ y).toNat = x.toNat * 2 ^ m + y.toNat := by
  rw [BitVec.toNat_append, ← Nat.shiftLeft_add_eq_or_of_lt y.isLt, Nat.shiftLeft_eq]

/-- The number of some bits of a bit string. -/
theorem toNat_extractLsb'_div {n : Nat} (x : BitVec n) (start len : Nat) :
    (x.extractLsb' start len).toNat = x.toNat / 2 ^ start % 2 ^ len := by
  rw [BitVec.extractLsb'_toNat, Nat.shiftRight_eq_div_pow]

/-- One byte of a list as a little-endian number. -/
theorem leNat_drop_take_one (bs : List Byte) (i : Nat) :
    leNat ((bs.drop i).take 1) = (bs.getD i 0).toNat := by
  induction bs generalizing i with
  | nil => simp [leNat]
  | cons b bs ih =>
    cases i with
    | zero => simp [leNat]
    | succ i => simpa using ih i

theorem leNat_append (bs bs' : List Byte) :
    leNat (bs ++ bs') = leNat bs + 256 ^ bs.length * leNat bs' := by
  induction bs with
  | nil => simp [leNat]
  | cons b bs ih => simp only [List.cons_append, leNat, ih, List.length_cons, pow_succ]; ring

/-- `n` bytes from offset `i` as a number: the digits of the whole list to the base 256. -/
theorem leNat_drop_take (bs : List Byte) (i n : Nat) :
    leNat ((bs.drop i).take n) = leNat bs / 256 ^ i % 256 ^ n := by
  have hdrop : leNat (bs.drop i) = leNat bs / 256 ^ i := by
    induction i generalizing bs with
    | zero => simp
    | succ i ih =>
      cases bs with
      | nil => simp [leNat]
      | cons b bs =>
        have := b.isLt
        rw [List.drop_succ_cons, ih, pow_succ', ← Nat.div_div_eq_div_mul, leNat]
        congr 1
        omega
  rw [← hdrop]
  generalize bs.drop i = bs
  induction n generalizing bs with
  | zero => simp [leNat, Nat.mod_one]
  | succ n ih =>
    cases bs with
    | nil => simp [leNat]
    | cons b bs =>
      have := b.isLt
      rw [List.take_succ_cons, leNat, leNat, ih, pow_succ', Nat.mod_mul]
      rw [show (b.toNat + 256 * leNat bs) % 256 = b.toNat by omega,
        show (b.toNat + 256 * leNat bs) / 256 = leNat bs by omega]

@[simp] theorem wordBytes_length (w : Word) : (wordBytes w).length = 4 := rfl

/-- The four bytes of a word make up the word (R71). -/
theorem leNat_wordBytes (w : Word) : leNat (wordBytes w) = w.toNat := by
  simp only [wordBytes, leNat, toNat_extractLsb'_div]
  omega

/-! ### The chains' fields -/

@[simp] theorem chainField_length (bs : List Byte) : (chainField bs).length = 10 := by
  simp [chainField]

/-- Byte `k` of a chain's ten-byte field: the extension byte, or 0 beyond the count (R48). -/
theorem chainField_getD (bs : List Byte) {k : Nat} (hk : k < 10) :
    (chainField bs).getD k 0 = bs.getD k 0 := by
  have hzero : (List.replicate 10 (0 : Byte)).getD (k - bs.length) 0 = 0 := by
    rw [List.getD_replicate]; omega
  unfold chainField
  rw [List.getD_eq_getElem?_getD, List.getElem?_take_of_lt hk, ← List.getD_eq_getElem?_getD]
  by_cases h : k < bs.length
  · exact List.getD_append _ _ _ _ h
  · rw [List.getD_append_right _ _ _ _ (by omega), hzero, List.getD_eq_default _ _ (by omega)]

/-! ### The words of an entry -/

/-- The eight words before the chains (R48). -/
def Record.words (r : Record) : List Word :=
  [0#1 ++ BitVec.ofBool r.signed ++ BitVec.ofBool r.valWide ++ BitVec.ofBool r.bcdBad
    ++ BitVec.ofNat 4 r.vife.length ++ BitVec.ofNat 4 r.dife.length ++ r.kind.num ++ r.vif ++ r.dif,
    r.valueOff ++ r.recOff, r.exp ++ r.unit ++ r.valueLen, r.storage.extractLsb' 0 32,
    0#6 ++ r.subunit ++ 0#7 ++ r.storage.extractLsb' 32 9, r.lvar ++ 0#4 ++ r.tariff,
    r.value.extractLsb' 0 32, r.value.extractLsb' 32 32]

/-- The part of an entry from 0x20 on: the chains in their fields, and zeros (R48). -/
def Record.chains (r : Record) : List Byte :=
  chainField r.dife ++ ([0, 0] ++ (chainField r.vife ++ List.replicate 10 0))

theorem Record.bytes_eq (r : Record) : r.bytes = r.words.flatMap wordBytes ++ r.chains := by
  simp only [Record.bytes, Record.words, Record.chains, List.flatMap_cons, List.flatMap_nil,
    List.append_nil, List.append_assoc]

/-- The eight words as numbers, each field at its bit position (R48). -/
theorem Record.words_toNat (r : Record) (hd : r.dife.length ≤ 10) (hv : r.vife.length ≤ 10) :
    r.words.map BitVec.toNat =
      [r.dif.toNat + 2 ^ 8 * r.vif.toNat + 2 ^ 16 * r.kind.num.toNat + 2 ^ 20 * r.dife.length
        + 2 ^ 24 * r.vife.length + 2 ^ 28 * r.bcdBad.toNat + 2 ^ 29 * r.valWide.toNat
        + 2 ^ 30 * r.signed.toNat,
      r.recOff.toNat + 2 ^ 16 * r.valueOff.toNat,
      r.valueLen.toNat + 2 ^ 16 * r.unit.toNat + 2 ^ 24 * r.exp.toNat,
      r.storage.toNat % 2 ^ 32,
      r.storage.toNat / 2 ^ 32 + 2 ^ 16 * r.subunit.toNat,
      r.tariff.toNat + 2 ^ 24 * r.lvar.toNat,
      r.value.toNat % 2 ^ 32,
      r.value.toNat / 2 ^ 32] := by
  simp only [Record.words, List.map_cons, List.map_nil, toNat_append_add, toNat_extractLsb'_div,
    BitVec.toNat_ofBool, BitVec.toNat_ofNat, List.cons.injEq, and_true]
  refine ⟨?_, ?_, ?_, ?_, ?_, ?_, ?_, ?_⟩ <;> omega

/-- Word `j` of a list of words stands in its four bytes from offset `4 j` (R71). -/
theorem flatMap_wordBytes_word (ws : List Word) {j : Nat} (hj : j < ws.length) :
    ((ws.flatMap wordBytes).drop (4 * j)).take 4 = wordBytes (ws.getD j 0) := by
  induction ws generalizing j with
  | nil => simp at hj
  | cons w ws ih =>
    cases j with
    | zero => rfl
    | succ j =>
      rw [List.flatMap_cons, show 4 * (j + 1) = (wordBytes w).length + 4 * j by
        rw [wordBytes_length]; omega, List.drop_length_add_append, List.getD_cons_succ]
      exact ih (by simpa using hj)

theorem Record.bytes_word (r : Record) {j : Nat} (hj : j < 8) :
    (r.bytes.drop (4 * j)).take 4 = wordBytes (r.words.getD j 0) := by
  have hlen : (r.words.flatMap wordBytes).length = 32 := rfl
  rw [r.bytes_eq, List.drop_append_of_le_length (by omega),
    List.take_append_of_le_length (by rw [List.length_drop]; omega)]
  exact flatMap_wordBytes_word r.words hj

/-- A field inside a word. -/
theorem Record.leNat_in_word (r : Record) {j k n : Nat} (hj : j < 8) (hn : k + n ≤ 4) :
    leNat ((r.bytes.drop (4 * j + k)).take n) =
      (r.words.map BitVec.toNat).getD j 0 / 256 ^ k % 256 ^ n := by
  rw [show 0 = (0 : Word).toNat from rfl, List.getD_map, ← leNat_wordBytes, ← r.bytes_word hj,
    ← leNat_drop_take, List.drop_take, List.take_take, List.drop_drop, Nat.min_eq_left (by omega)]

/-- A field of a whole word and the first `n` bytes of the next. -/
theorem Record.leNat_in_words (r : Record) {j n : Nat} (hj : j + 1 < 8) (hn : n ≤ 4) :
    leNat ((r.bytes.drop (4 * j)).take (4 + n)) = (r.words.map BitVec.toNat).getD j 0
      + 2 ^ 32 * ((r.words.map BitVec.toNat).getD (j + 1) 0 % 256 ^ n) := by
  have hlow := r.leNat_in_word (j := j) (k := 0) (n := 4) (by omega) (by omega)
  have hhigh := r.leNat_in_word (k := 0) hj (by omega : 0 + n ≤ 4)
  have hlt : (r.words.map BitVec.toNat).getD j 0 < 256 ^ 4 := by
    rw [show 0 = (0 : Word).toNat from rfl, List.getD_map]
    exact (r.words.getD j 0).isLt
  rw [Nat.add_zero, pow_zero, Nat.div_one] at hlow hhigh
  rw [Nat.mod_eq_of_lt hlt] at hlow
  have hlen : ((r.bytes.drop (4 * j)).take 4).length = 4 := by
    rw [r.bytes_word (by omega), wordBytes_length]
  rw [List.take_add, leNat_append, hlen, hlow, List.drop_drop, ← hhigh]
  rfl

/-! ### The chains of an entry -/

theorem Record.drop_bytes_chains (r : Record) (i : Nat) : r.bytes.drop (0x20 + i) = r.chains.drop i := by
  rw [r.bytes_eq, show 0x20 = (r.words.flatMap wordBytes).length from rfl, List.drop_length_add_append]

theorem Record.drop_bytes_afterDife (r : Record) (i : Nat) :
    r.bytes.drop (0x2A + i) = ([0, 0] ++ (chainField r.vife ++ List.replicate 10 0)).drop i := by
  rw [show 0x2A + i = 0x20 + (10 + i) by omega, r.drop_bytes_chains, Record.chains,
    ← chainField_length r.dife, List.drop_length_add_append]

theorem Record.drop_bytes_vife (r : Record) (i : Nat) :
    r.bytes.drop (0x2C + i) = (chainField r.vife ++ List.replicate 10 0).drop i := by
  rw [show 0x2C + i = 0x2A + (i + 2) by omega, r.drop_bytes_afterDife]
  rfl

/-! ### The fields -/

/-- DIFE byte `k`, or 0 beyond the count. -/
theorem Record.leNat_dife (r : Record) {k : Nat} (hk : k < 10) :
    leNat ((r.bytes.drop (0x20 + k)).take 1) = (r.dife.getD k 0).toNat := by
  rw [r.drop_bytes_chains, leNat_drop_take_one, Record.chains,
    List.getD_append _ _ _ _ (by rwa [chainField_length]), chainField_getD _ hk]

/-- VIFE byte `k`, or 0 beyond the count. -/
theorem Record.leNat_vife (r : Record) {k : Nat} (hk : k < 10) :
    leNat ((r.bytes.drop (0x2C + k)).take 1) = (r.vife.getD k 0).toNat := by
  rw [r.drop_bytes_vife, leNat_drop_take_one,
    List.getD_append _ _ _ _ (by rwa [chainField_length]), chainField_getD _ hk]

/-- The reserved bytes behind the DIFE field. -/
theorem Record.leNat_afterDife (r : Record) : leNat ((r.bytes.drop 0x2A).take 2) = 0 := by
  rw [r.drop_bytes_afterDife 0]
  rfl

/-- The reserved bytes behind the VIFE field. -/
theorem Record.leNat_afterVife (r : Record) : leNat ((r.bytes.drop 0x36).take 10) = 0 := by
  have h := r.drop_bytes_vife (chainField r.vife).length
  rw [List.drop_left, chainField_length] at h
  rw [h]
  rfl

/-- Settles O48: the eight words field by field, and the chains behind them. -/
theorem recordEntryLayout : Obligations.RecordEntryLayout := by
  intro r hd hv at'
  have hbad := r.bcdBad.toNat_le
  have hwide := r.valWide.toNat_le
  have hsigned := r.signed.toNat_le
  have hword (j k : Nat) {n : Nat} (hj : j < 8 := by omega) (hn : k + n ≤ 4 := by omega) :
      at' (4 * j + k) n = _ :=
    r.leNat_in_word hj hn
  have hwords (j n : Nat) (hj : j + 1 < 8 := by omega) (hn : n ≤ 4 := by omega) :
      at' (4 * j) (4 + n) = _ :=
    r.leNat_in_words hj hn
  rw [r.words_toNat hd hv] at hword hwords
  refine ⟨r.bytes_length, (hword 0 0).trans ?_, (hword 0 1).trans ?_,
    (hword 0 2).trans ?_, (hword 0 3).trans ?_, (hword 1 0).trans ?_,
    (hword 1 2).trans ?_, (hword 2 0).trans ?_, (hword 2 2).trans ?_,
    (hword 2 3).trans ?_, (hwords 3 2).trans ?_, (hword 4 2).trans ?_,
    (hword 5 0).trans ?_, (hword 5 3).trans ?_, (hwords 6 4).trans ?_,
    fun k hk => r.leNat_dife hk, r.leNat_afterDife, fun k hk => r.leNat_vife hk, r.leNat_afterVife⟩
  all_goals
    simp only [List.getD_cons_succ, List.getD_cons_zero]
    omega

end Sys2Proof.Machine
end

