-- ==== Sys2Proof/Proofs/RegisterWindow.lean ====
section
/-! PROOFS. What a host read answers: the register words bit by bit, the memory words byte by byte. -/

namespace Sys2Proof.Machine

/-! ### Register words -/

theorem isRec_false_of_lt {p : Params} {a : Nat} (h : a < 0x2000) : isRec p a = false := by
  rw [Bool.eq_false_iff, ne_eq, isRec_iff]
  omega

/-- A register word is read as it stands, but for the results while BUSY (R70, R344). -/
theorem State.readWord_reg {s : State} {idx : Nat} (hidx : idx < 0x40)
    (h : s.busy = false ∨ idx < 4 ∨ 9 < idx) : s.readWord idx = s.regWord idx := by
  have hfree : (s.busy && s.isResultWord idx) = false := by
    unfold State.isResultWord
    rw [isRec_false_of_lt (by omega)]
    rcases h with h | h
    · simp [h]
    · simp; omega
  unfold State.readWord
  rw [hfree, if_pos hidx]
  rfl

theorem Cfg.word_toNat (c : Cfg) : c.word.toNat = c.intSigned.toNat + 16 * c.mfrTail.toNat := by
  simp only [Cfg.word, toNat_append_add, BitVec.toNat_ofBool, BitVec.toNat_ofNat]
  omega

theorem State.status_toNat (s : State) : s.status.toNat =
    s.busy.toNat + 2 * s.done.toNat + 4 * s.res.recsValid.toNat + 256 * s.res.code.toNat := by
  simp only [State.status, toNat_append_add, BitVec.toNat_ofBool, BitVec.toNat_ofNat]
  omega

theorem State.regWord_params_toNat {s : State} (h : s.params.Wf) :
    (s.regWord 10).toNat = s.params.maxLen + 65536 * s.params.maxRecords := by
  have := h.maxLen_le
  have := h.maxRecords_le
  simp only [State.regWord, toNat_append_add, BitVec.toNat_ofNat]
  omega

theorem State.regWord_reserved (s : State) {idx : Nat} (h : 11 ≤ idx) : s.regWord idx = 0 := by
  obtain ⟨n, rfl⟩ := Nat.exists_eq_add_of_le' h
  rfl

/-- Settles O6. -/
theorem registerWordLayout : Obligations.RegisterWordLayout := by
  intro s
  have always {idx : Nat} (hidx : idx < 0x40) (h : idx < 4 ∨ 9 < idx) : s.readWord idx = s.regWord idx :=
    State.readWord_reg hidx (.inr h)
  refine ⟨?_, ?_, ?_, ?_, fun hp => ?_, fun idx h1 h2 => ?_, fun hb => ?_⟩
  · exact always (by omega) (by omega)
  · rw [always (by omega) (by omega)]; exact s.cfg.word_toNat
  · rw [always (by omega) (by omega)]
    simp only [State.regWord, toNat_append_add, BitVec.toNat_ofNat]
    omega
  · rw [always (by omega) (by omega)]; exact s.status_toNat
  · rw [always (by omega) (by omega)]; exact State.regWord_params_toNat hp
  · rw [always (by omega) (by omega), s.regWord_reserved h1]
  · have idle {idx : Nat} (hidx : idx < 0x40) : s.readWord idx = s.regWord idx :=
      State.readWord_reg hidx (.inl hb)
    refine ⟨?_, ?_, ?_, ?_, ?_, ?_⟩
    all_goals
      rw [idle (by omega)]
      simp only [State.regWord, toNat_append_add, BitVec.toNat_ofNat]
      omega

/-! ### Bytes of the window -/

theorem State.memByte_hdr {s : State} {a : Nat} (h : isHdr a = true) :
    s.memByte a = (Memory.find? s.mem a).getD 0 := by
  unfold State.memByte Memory.read Memory.unlisted
  simp only [h, if_true]
  cases Memory.find? s.mem a <;> rfl

theorem State.memByte_in {s : State} {a : Nat} (h : isIn s.params a = true) :
    s.memByte a = (Memory.find? s.mem a).getD (Config.unwrittenIn s.inEpoch a) := by
  have hh : isHdr a = false := by
    rw [isIn_iff] at h
    rw [Bool.eq_false_iff, ne_eq, isHdr_iff]
    omega
  unfold State.memByte Memory.read Memory.unlisted
  simp only [h, hh, if_true, Bool.false_eq_true, if_false]
  cases Memory.find? s.mem a <;> rfl

theorem State.memByte_rec {s : State} {a : Nat} (hp : s.params.Wf) (h : isRec s.params a = true) :
    s.memByte a = (Memory.find? s.mem a).getD (Config.staleRecord s.recEpoch a) := by
  have hlen := hp.maxLen_le
  rw [isRec_iff] at h
  have hh : isHdr a = false := by
    rw [Bool.eq_false_iff, ne_eq, isHdr_iff]
    omega
  have hi : isIn s.params a = false := by
    rw [Bool.eq_false_iff, ne_eq, isIn_iff]
    omega
  unfold State.memByte Memory.read Memory.unlisted
  simp only [isRec_iff.2 h, hi, hh, if_true, Bool.false_eq_true, if_false]
  cases Memory.find? s.mem a <;> rfl

theorem State.memByte_reserved {s : State} {a : Nat} (hh : isHdr a = false)
    (hi : isIn s.params a = false) (hr : isRec s.params a = false) : s.memByte a = 0 := by
  unfold State.memByte
  simp [hh, hi, hr]

/-! ### Memory words -/

/-- Lane `k` of four bytes in bus lane order (R71). -/
theorem extractLsb'_lane (f : Nat → Byte) {k : Nat} (hk : k < 4) :
    (f 3 ++ f 2 ++ f 1 ++ f 0).extractLsb' (8 * k) 8 = f k := by
  interval_cases k <;> ext i hi <;> simp <;> grind

/-- Lane `k` of a memory word is the byte at its offset (R70, R71). -/
theorem State.readWord_lane {s : State} {idx k : Nat} (hidx : 0x40 ≤ idx) (hk : k < 4)
    (h : (s.busy && s.isResultWord idx) = false) :
    (s.readWord idx).extractLsb' (8 * k) 8 = s.memByte (4 * idx + k) := by
  unfold State.readWord
  rw [h, if_neg Bool.false_ne_true, if_neg (by omega)]
  exact extractLsb'_lane (fun k => s.memByte (4 * idx + k)) hk

/-- Settles O7. -/
theorem windowWordsAreTheirBytes : Obligations.WindowWordsAreTheirBytes := by
  intro s hp
  have hlen := hp.maxLen_le
  refine ⟨fun idx k h1 h2 hk hfree => ?_, fun a h1 h2 => ?_, fun a h1 h2 => ?_, fun a h1 h2 => ?_,
    fun a h => ?_⟩
  · refine State.readWord_lane h1 hk ?_
    rcases hfree with hb | hout
    · rw [hb]; rfl
    · have hrec : isRec s.params (4 * idx) = false := by
        rw [Bool.eq_false_iff, ne_eq, isRec_iff]
        omega
      simp only [State.isResultWord, hrec, Bool.or_false, Bool.and_eq_false_iff, decide_eq_false_iff_not]
      omega
  · exact State.memByte_hdr (isHdr_iff.2 ⟨h1, h2⟩)
  · exact State.memByte_in (isIn_iff.2 ⟨h1, h2⟩)
  · exact State.memByte_rec hp (isRec_iff.2 ⟨h1, h2⟩)
  · refine State.memByte_reserved ?_ ?_ ?_ <;>
      simp only [Bool.eq_false_iff, ne_eq, isHdr_iff, isIn_iff, isRec_iff] <;> omega

/-! ### The reset table -/

theorem Memory.read_nil {a : Nat} (h : isHdr a = false) : Memory.read [] a = none := by
  simp [Memory.read, Memory.find?, Memory.unlisted, h]

/-- A host sees the reset table when the registers are at their reset values and memory lists nothing;
the working registers do not matter (R49, R52). -/
theorem State.atReset_of {s : State} (hcfg : s.cfg = Cfg.reset) (hlen : s.len = 0)
    (hidle : s.busy = false ∧ s.done = false) (hres : s.res = Results.zero) (hmem : s.mem = [])
    (hhazard : s.hazard = false) : s.AtReset s.params where
  ctrl := rfl
  cfg := by rw [State.regWord, hcfg]; rfl
  len := by rw [State.regWord, hlen]; rfl
  status := by rw [State.regWord, State.status, hres, hidle.1, hidle.2]; rfl
  results idx h1 h2 := by interval_cases idx <;> rw [State.regWord, hres] <;> rfl
  paramsWord := rfl
  params := rfl
  hdr a ha := by rw [State.memByte_hdr ha, hmem]; rfl
  inUnknown a ha := by
    rw [isIn_iff] at ha
    rw [hmem, Memory.read_nil]
    rw [Bool.eq_false_iff, ne_eq, isHdr_iff]
    omega
  recUnknown a ha := by
    rw [isRec_iff] at ha
    rw [hmem, Memory.read_nil]
    rw [Bool.eq_false_iff, ne_eq, isHdr_iff]
    omega
  idle := hidle
  hazard := hhazard

/-- Settles O1. -/
theorem resetStateIsTheResetTable : Obligations.ResetStateIsTheResetTable :=
  ⟨fun e => State.atReset_of (s := { State.reset with eng := e }) rfl rfl ⟨rfl, rfl⟩ rfl rfl rfl,
    rfl, rfl, rfl⟩

end Sys2Proof.Machine
end

