-- ==== Sys2Proof/Proofs/CompleteAndHazard.lean ====
section
/-! PROOFS. What `complete` shows the host, and the mark HAZARD along every step. -/

namespace Sys2Proof.Machine

/-! ### `complete` -/

/-- Below the record memory the byte read does not depend on the record memory's free values. -/
theorem State.memByte_congr_low {s t : State} {a : Nat} (ha : a < recBase) (hp : t.params = s.params)
    (hi : t.inEpoch = s.inEpoch) (hm : Memory.find? t.mem a = Memory.find? s.mem a) :
    t.memByte a = s.memByte a := by
  have hr := isRec_false_of_lt (p := s.params) ha
  unfold State.memByte Memory.read
  rw [hp, hi, hm, hr]
  rfl

/-- Publishing leaves IN and HDR_TABLE as they were (R78). -/
theorem State.memByte_publish_low (s : State) (res : Results) (recs : List Record) {a : Nat}
    (ha : a < recBase) : (s.publish res recs).memByte a = s.memByte a := by
  refine State.memByte_congr_low ha rfl rfl ?_
  rw [State.publish_mem, Memory.find?_publish, if_pos ha]

/-- Each published record is read back byte for byte at its entry (R48, R153). -/
theorem State.memByte_publish_record {s : State} (hp : s.params.Wf) (res : Results)
    {recs : List Record} (hlen : recs.length ≤ s.params.maxRecords) {i j : Nat} (hi : i < recs.length)
    (hj : j < 64) : (s.publish res recs).memByte (recBase + (64 * i + j)) =
      (recs[i]).bytes[j]'(by rwa [Record.bytes_length]) := by
  have hrec : isRec (s.publish res recs).params (recBase + (64 * i + j)) = true := by
    rw [isRec_iff, State.publish_params]
    unfold recBase
    omega
  rw [State.memByte_rec (s := s.publish res recs) hp hrec, State.publish_mem,
    Memory.find?_publish, if_neg (by omega), find?_recCells recs _ (by omega), flatMap_bytes_getElem recs i j hi hj]
  rfl

/-- Settles O19. -/
theorem completePublishesEverythingAtOnce : Obligations.CompletePublishesEverythingAtOnce := by
  intro s ts h hb hnext hph htaint
  have hstep : step s = .next (State.publish { s with turns := ts } s.eng.res s.eng.recs) := by
    rw [step_of_engineNext hnext, State.engineTurn_of_stopped (s := { s with turns := ts }) hph, if_pos hb]
    rcases State.complete_cases { s with turns := ts } with ⟨ht, -⟩ | ⟨-, heq⟩
    · exact absurd (htaint.symm.trans ht) nofun
    · rw [heq]
  refine ⟨_, hstep, rfl, rfl, rfl, fun i hi j hj => ?_, fun a ha => ?_, rfl, rfl, rfl, rfl, rfl, rfl, rfl,
    rfl, rfl⟩
  · rw [Record.bytes_length] at hj
    rw [Nat.add_assoc]
    exact State.memByte_publish_record (s := { s with turns := ts }) h.params_wf s.eng.res
      h.engine.recs_le hi hj
  · exact State.memByte_publish_low { s with turns := ts } s.eng.res s.eng.recs ha

/-! ### HAZARD -/

theorem State.complete_hazard (s : State) : s.complete.hazard = s.hazard := by
  rcases s.complete_cases with ⟨-, heq⟩ | ⟨-, heq⟩ <;> rw [heq] <;> rfl

theorem State.engineTurn_hazard {s t : State} (h : s.engineTurn = .next t) : t.hazard = s.hazard := by
  by_cases hph : s.eng.phase = .stopped
  · rw [State.engineTurn_of_stopped hph] at h
    cases h
    split
    · exact s.complete_hazard
    · rfl
  · exact (State.engineTurn_engineOnly hph h).hazard

theorem State.ctrlWrite_hazard {s t : State} {data : Word} {be : BitVec 4}
    (h : s.ctrlWrite data be = .next t) : t.hazard = s.hazard := by
  rw [State.ctrlWrite_eq] at h
  split at h <;> cases h
  · split <;> rfl
  · rfl

/-- What a step does to HAZARD: nothing, or a reset clears it, or a host write sets it when a lane lies
on an input while BUSY (R51, R343). -/
theorem step_hazard {s t : State} (h : step s = .next t) :
    t.hazard = s.hazard ∨
      (s.turns.head? = some (.host .reset) ∧ t.hazard = false) ∨
      (∃ (idx : BitVec 12) (data : Word) (be : BitVec 4),
        s.turns.head? = some (.host (.write (s.params.baseWord + idx.toNat) data be)) ∧
        t.hazard = (s.hazard || (s.busy && touchesInput s.params (4 * idx.toNat) be))) := by
  rcases step_cases s with ⟨-, heq⟩ | ⟨ts, -, heq⟩ | ⟨op, ts, hts, heq⟩
  · exact .inl (State.engineTurn_hazard (heq.symm.trans h))
  · exact .inl (State.engineTurn_hazard (s := { s with turns := ts }) (heq.symm.trans h))
  · have ht := heq.symm.trans h
    have hhead : s.turns.head? = some (.host op) := by rw [hts]; rfl
    rcases State.hostTurn_cases { s with turns := ts } op with hop | ⟨idx, -, hop⟩ | ⟨data, be, -, hop⟩ |
      ⟨idx, data, be, -, rfl, hop⟩ | ⟨rfl, hop⟩
    · cases hop.symm.trans ht; exact .inl rfl
    · cases hop.symm.trans ht; exact .inl rfl
    · exact .inl (State.ctrlWrite_hazard (s := { s with turns := ts }) (hop.symm.trans ht))
    · cases hop.symm.trans ht
      exact .inr (.inr ⟨idx, data, be, hhead, by rw [State.hostWrite_eq]⟩)
    · cases hop.symm.trans ht
      exact .inr (.inl ⟨hhead, rfl⟩)

/-- Settles O10. -/
theorem hazardIsStickyAndSetByInputWritesOnly : Obligations.HazardIsStickyAndSetByInputWritesOnly := by
  intro s t h
  rcases step_hazard h with heq | ⟨hreset, heq⟩ | ⟨idx, data, be, hwrite, heq⟩
  · rw [heq]
    exact ⟨.inl, fun h0 h1 => absurd h1 (by simp [h0])⟩
  · rw [heq]
    exact ⟨fun _ => .inr hreset, nofun⟩
  · rw [heq]
    refine ⟨fun h1 => .inl (by rw [h1]; rfl), fun h0 h1 => ?_⟩
    rw [h0, Bool.false_or, Bool.and_eq_true] at h1
    exact ⟨h1.1, idx, data, be, hwrite, h1.2⟩

end Sys2Proof.Machine
end

