-- ==== Sys2Proof/Proofs/HostFrame.lean ====
section
/-! PROOFS. What the host sees change: nothing by a read, by an access outside the window, or by an engine
turn before `complete`. -/

namespace Sys2Proof.Machine

/-! ### The engine's hidden turns -/

/-- Settles O20: `State.engineTurn_engineOnly`, read at the state with the turn taken off the schedule. -/
theorem engineTurnIsInvisibleBeforeComplete : Obligations.EngineTurnIsInvisibleBeforeComplete := by
  intro s t ts _ hnext hph hstep
  rw [step_of_engineNext hnext] at hstep
  obtain ⟨hstate, hlatch, htainted⟩ :=
    State.engineTurn_engineOnly (s := { s with turns := ts }) hph hstep
  exact ⟨hstate, hlatch, htainted⟩

/-! ### Reads of the window -/

/-- A read at a word's own address is a read of that word (R70, R71). -/
theorem State.hostTurn_read (s : State) (idx : BitVec 12) :
    s.hostTurn (.read (s.params.baseWord + idx.toNat)) = .next (s.hostRead idx.toNat) := by
  simp only [State.hostTurn, Params.wordIndex?_base_add, State.windowRead]

/-- A step that takes a read of the window off the schedule; `State.hostRead` says all it changes (R72). -/
theorem step_of_read {s : State} {idx : BitVec 12} {ts : List Turn}
    (h : s.turns = .host (.read (s.params.baseWord + idx.toNat)) :: ts) :
    step s = .next (State.hostRead { s with turns := ts } idx.toNat) :=
  (step_of_host h).trans (State.hostTurn_read { s with turns := ts } idx)

/-- An idle block's words are no free values (R344), so reading one draws none. -/
theorem State.hostRead_draws_of_idle {s : State} (h : s.busy = false) (idx : Nat) :
    (s.hostRead idx).draws = s.draws := by
  simp [h]

/-- Settles O3. -/
theorem hostReadChangesNothing : Obligations.HostReadChangesNothing := by
  intro s idx ts h
  exact ⟨_, step_of_read h, fun hidle =>
    State.hostRead_draws_of_idle (s := { s with turns := ts }) hidle idx.toNat⟩

/-! ### Accesses outside the window -/

/-- An access that selects no word of the window does nothing (R70, D49). -/
theorem State.hostTurn_outside {s : State} {addr : Nat} (h : s.params.wordIndex? addr = none) :
    s.hostTurn (.read addr) = .next s ∧ ∀ data be, s.hostTurn (.write addr data be) = .next s := by
  simp only [State.hostTurn, h, implies_true, and_self]

/-- Settles O4. -/
theorem accessOutsideTheWindowIsIgnored : Obligations.AccessOutsideTheWindowIsIgnored := by
  intro s addr ts hout
  have hnone : s.params.wordIndex? addr = none := Params.wordIndex?_eq_none.2 hout
  obtain ⟨hread, hwrite⟩ := State.hostTurn_outside (s := { s with turns := ts }) hnone
  exact ⟨fun h => (step_of_host h).trans hread, fun data be h => (step_of_host h).trans (hwrite data be)⟩

end Sys2Proof.Machine
end

