-- ==== Sys2Proof/Proofs/CodecRoundTrip.lean ====
section
/-! PROOFS. Encoder and decoder agree: each dispatch code is read back from its own bytes, and what the
decoder reads has the bytes it was read from. -/

namespace Sys2Proof

/-! ### The fields of a byte and the byte of its fields (R104 to R108) -/

/-- A bit above the low string of two put side by side is a bit of the high one. -/
theorem getLsbD_append_add {m n : Nat} (x : BitVec m) (y : BitVec n) (i : Nat) :
    (x ++ y).getLsbD (n + i) = x.getLsbD i := by
  simp [BitVec.getLsbD_append]

/-- A bit string is its top bits followed by the rest. -/
theorem append_setWidth {m n : Nat} {p : BitVec m} {x : BitVec (m + n)}
    (h : ∀ i < m, x.getLsbD (n + i) = p.getLsbD i) : p ++ x.setWidth n = x := by
  ext i hi
  rw [BitVec.getElem_append]
  split
  · simp [BitVec.getLsbD_eq_getElem hi]
  · rw [← BitVec.getLsbD_eq_getElem, ← h _ (by omega), Nat.add_sub_cancel' (by omega),
      BitVec.getLsbD_eq_getElem hi]

theorem difBits_difByte (d : DifBits) (df : BitVec 4) : difBits (difByte d df) = d := by
  obtain ⟨e, s0, fn⟩ := d
  have he : (difByte ⟨e, s0, fn⟩ df).getLsbD 7 = e :=
    calc (BitVec.ofBool e ++ BitVec.ofBool s0 ++ fn ++ df).getLsbD (4 + (2 + (1 + 0)))
      _ = (BitVec.ofBool e).getLsbD 0 := by simp only [getLsbD_append_add]
      _ = e := by simp
  have hs0 : (difByte ⟨e, s0, fn⟩ df).getLsbD 6 = s0 :=
    calc (BitVec.ofBool e ++ BitVec.ofBool s0 ++ fn ++ df).getLsbD (4 + (2 + 0))
      _ = (BitVec.ofBool e ++ BitVec.ofBool s0).getLsbD 0 := by simp only [getLsbD_append_add]
      _ = s0 := by rw [BitVec.getLsbD_append]; simp
  have hfn : (difByte ⟨e, s0, fn⟩ df).extractLsb' 4 2 = fn :=
    (BitVec.extractLsb'_append_eq_of_le (by decide)).trans BitVec.extractLsb'_append_eq_right
  rw [difBits, he, hs0, hfn]

theorem difByte_of_dataField {b : Byte} {df : BitVec 4} (h : (dataField b).toNat = df.toNat) :
    difByte (difBits b) df = b := by
  rw [← BitVec.eq_of_toNat_eq h, difByte_difBits]

theorem difeByte_of_bits (b : Byte) :
    difeByte (b.getLsbD 7) (b.getLsbD 6) (b.extractLsb' 4 2) (b.extractLsb' 0 4) = b :=
  difByte_difBits b

theorem chainByte_of_bits (b : Byte) : chainByte (b.getLsbD 7) (b.setWidth 7) = b :=
  append_setWidth (m := 1) (n := 7) fun
    | 0, _ => by simp

theorem chainByte_getLsbD (e : Bool) (code : BitVec 7) : (chainByte e code).getLsbD 7 = e :=
  (getLsbD_append_add (BitVec.ofBool e) code 0).trans (by simp)

theorem chainByte_setWidth (e : Bool) (code : BitVec 7) : (chainByte e code).setWidth 7 = code :=
  BitVec.setWidth_append_eq_right

/-! ### What is decoded has the bytes it was read from -/

theorem decodeFrameStart_bytes {bytes rest : List Byte} {i : Instr}
    (h : decodeFrameStart bytes = .ok (i, rest)) : bytes = encode i ++ rest := by
  unfold decodeFrameStart at h
  split at h
  · cases h; rfl
  split at h
  · rename_i hb; cases h; rw [hb]; rfl
  split at h
  · rename_i hb; cases h; rw [hb]; rfl
  split at h
  · rename_i hb
    split at h
    · cases h
    · rename_i b1 rest
      cases h
      split
      · rename_i hb1; rw [hb, hb1]; rfl
      · rw [hb]; rfl
  · cases h; rfl

theorem encode_of_decodeDifHead {tail : Bool} {b : Byte} {i : Instr}
    (h : decodeDifHead tail b = .ok i) : encode i = [b] := by
  unfold decodeDifHead at h
  split at h
  · rename_i hb; cases h; rw [hb]; rfl
  split at h
  · rename_i hb; cases h; rw [hb]; rfl
  split at h
  · rename_i hb; cases h; cases tail <;> rw [hb] <;> rfl
  split at h
  · rename_i hdf
    cases h
    exact List.singleton_inj.2 (difByte_of_dataField (congrArg _ hdf))
  · cases h

theorem encode_of_decodeValue {hint : Hint} {b : Byte} {i : Instr}
    (h : decodeValue hint b = .ok i) : encode i = [b] := by
  unfold decodeValue at h
  dsimp only at h
  split at h <;> cases h
  case h_3 hdf => split <;> exact List.singleton_inj.2 (difByte_of_dataField hdf)
  case h_5 hdf => split <;> exact List.singleton_inj.2 (difByte_of_dataField hdf)
  all_goals
    rename_i hdf
    exact List.singleton_inj.2 (difByte_of_dataField hdf)

theorem encode_decodeVif (rom : List VifEntry) (b : Byte) : encode (decodeVif rom b) = [b] := by
  unfold decodeVif
  dsimp only
  split <;> exact List.singleton_inj.2 (chainByte_of_bits b)

/-- The ranges of the LVAR byte are told apart by its leading bits (R108). -/
theorem encode_decodeLvar (b : Byte) : encode (decodeLvar b) = [b] := by
  unfold decodeLvar
  split
  · rename_i h7
    exact List.singleton_inj.2 (append_setWidth (m := 1) (n := 7) fun
      | 0, _ => h7)
  rename_i h7
  rw [Bool.not_eq_false] at h7
  split
  · rename_i h6
    exact List.singleton_inj.2 (append_setWidth (m := 2) (n := 6) fun
      | 0, _ => h6
      | 1, _ => h7)
  rename_i h6
  rw [Bool.not_eq_false] at h6
  split
  · rename_i h5
    exact List.singleton_inj.2 (append_setWidth (m := 3) (n := 5) fun
      | 0, _ => h5
      | 1, _ => h6
      | 2, _ => h7)
  rename_i h5
  rw [Bool.not_eq_true] at h5
  split
  · rename_i h4
    exact List.singleton_inj.2 (append_setWidth (m := 4) (n := 4) fun
      | 0, _ => h4
      | 1, _ => h5
      | 2, _ => h6
      | 3, _ => h7)
  · rename_i h4
    rw [Bool.not_eq_true] at h4
    exact List.singleton_inj.2 (append_setWidth (m := 4) (n := 4) fun
      | 0, _ => h4
      | 1, _ => h5
      | 2, _ => h6
      | 3, _ => h7)

/-- Four bytes in bus lane order are the bytes of the word they make up (R71). -/
theorem wordBytes_append (b0 b1 b2 b3 : Byte) :
    Machine.wordBytes (b3 ++ b2 ++ b1 ++ b0) = [b0, b1, b2, b3] := by
  have drop {m n start len : Nat} {x : BitVec m} {y : BitVec n} (h : n ≤ start) :=
    BitVec.extractLsb'_append_eq_of_le (xhi := x) (xlo := y) (len := len) h
  have h0 : (b3 ++ b2 ++ b1 ++ b0).extractLsb' 0 8 = b0 := BitVec.extractLsb'_append_eq_right
  have h1 : (b3 ++ b2 ++ b1 ++ b0).extractLsb' 8 8 = b1 :=
    (drop (by decide)).trans BitVec.extractLsb'_append_eq_right
  have h2 : (b3 ++ b2 ++ b1 ++ b0).extractLsb' 16 8 = b2 :=
    (drop (by decide)).trans ((drop (by decide)).trans BitVec.extractLsb'_append_eq_right)
  have h3 : (b3 ++ b2 ++ b1 ++ b0).extractLsb' 24 8 = b3 :=
    (drop (by decide)).trans ((drop (by decide)).trans BitVec.extractLsb'_append_eq_left)
  rw [Machine.wordBytes, h0, h1, h2, h3]

/-- The bytes of a word in bus lane order make up the word (R71). -/
theorem append_wordBytes (w : Word) :
    w.extractLsb' 24 8 ++ w.extractLsb' 16 8 ++ w.extractLsb' 8 8 ++ w.extractLsb' 0 8 = w := by
  have join (start₁ start₂ : Nat) {len₁ len₂ : Nat} (h : start₂ = start₁ + len₁) :=
    BitVec.extractLsb'_append_extractLsb'_eq_extractLsb' (x := w) (len₂ := len₂) h
  rw [join 16 24 rfl, join 8 16 rfl, join 0 8 rfl]
  exact BitVec.extractLsb'_eq_self

/-- A CTRL word with START set is bit 0 and the 31 ignored bits above it (R39). -/
theorem extractLsb'_append_one {w : Word} (h : w.getLsbD 0 = true) : w.extractLsb' 1 31 ++ 1#1 = w := by
  have hbit : w.extractLsb' 0 1 = 1#1 := by
    ext i hi
    obtain rfl : i = 0 := by omega
    simpa using h
  rw [← hbit]
  exact BitVec.extractLsb'_append_extractLsb' (w := 31)

theorem decodeCtrl_bytes {bytes rest : List Byte} {i : Instr}
    (h : decodeCtrl bytes = .ok (i, rest)) : bytes = encode i ++ rest := by
  unfold decodeCtrl at h
  split at h
  · rename_i b0 b1 b2 b3 rest
    dsimp only at h
    split at h
    · rename_i hbit
      cases h
      calc b0 :: b1 :: b2 :: b3 :: rest
        _ = Machine.wordBytes (b3 ++ b2 ++ b1 ++ b0) ++ rest := by rw [wordBytes_append]; rfl
        _ = Machine.wordBytes ((b3 ++ b2 ++ b1 ++ b0).extractLsb' 1 31 ++ 1#1) ++ rest := by
          rw [extractLsb'_append_one hbit]
    · cases h
  · cases h

theorem decode_bytes {c : Context} {bytes rest : List Byte} {i : Instr}
    (h : decode c bytes = .ok (i, rest)) : bytes = encode i ++ rest := by
  cases c with
  | frameStart => exact decodeFrameStart_bytes h
  | ctrl => exact decodeCtrl_bytes h
  | difHead tail =>
    cases bytes with
    | nil => cases h
    | cons b bs =>
      cases hd : decodeDifHead tail b <;> simp [decode, hd, Except.map] at h
      obtain ⟨rfl, rfl⟩ := h
      rw [encode_of_decodeDifHead hd]; rfl
  | value hint =>
    cases bytes with
    | nil => cases h
    | cons b bs =>
      cases hd : decodeValue hint b <;> simp [decode, hd, Except.map] at h
      obtain ⟨rfl, rfl⟩ := h
      rw [encode_of_decodeValue hd]; rfl
  | dife => cases bytes <;> cases h; rw [encode, difeByte_of_bits]; rfl
  | vif rom => cases bytes <;> cases h; rw [encode_decodeVif]; rfl
  | vife => cases bytes <;> cases h; rw [encode, chainByte_of_bits]; rfl
  | lvar => cases bytes <;> cases h; rw [encode_decodeLvar]; rfl

/-! ### A dispatch code is decoded from its own bytes -/

theorem decode_encode_frameStart {i : Instr} {rest : List Byte} (hw : i.wellFormed .frameStart = true)
    (hempty : i = .empty → rest = []) : decode .frameStart (encode i ++ rest) = .ok (i, rest) := by
  cases i with
  | empty => rw [hempty rfl]; rfl
  | ack | short | control => rfl
  | long l =>
    have hl : l ≠ Config.controlL := by simpa [Instr.wellFormed] using hw
    simp [encode, decode, decodeFrameStart, hl]
  | unknownStart b =>
    obtain ⟨⟨hE5, h10⟩, h68⟩ : (b ≠ 0xE5#8 ∧ b ≠ 0x10#8) ∧ b ≠ 0x68#8 := by
      simpa [Instr.wellFormed] using hw
    simp [encode, decode, decodeFrameStart, hE5, h10, h68]
  | _ => nomatch hw

theorem decode_encode_difHead {tail : Bool} {i : Instr} (rest : List Byte)
    (hw : i.wellFormed (.difHead tail) = true) :
    decode (.difHead tail) (encode i ++ rest) = .ok (i, rest) := by
  cases i with
  | filler | mfrBlock => rfl
  | mfrBlock0F | endOfUserData =>
    obtain rfl := Context.difHead.inj (eq_of_beq hw)
    rfl
  | specialOther d =>
    have hd : (d.e || d.s0 || d.fn == 3#2) = true := hw
    have hne (b : Byte) (hb : ((difBits b).e || (difBits b).s0 || (difBits b).fn == 3#2) = false) :
        difByte d 0xF#4 ≠ b := by
      rintro rfl
      rw [difBits_difByte, hd] at hb
      cases hb
    simp [encode, decode, decodeDifHead, hne 0x2F#8 rfl, hne 0x1F#8 rfl, hne 0x0F#8 rfl,
      dataField_difByte, difBits_difByte, Except.map]
  | _ => nomatch hw

theorem decode_encode_value {hint : Hint} {i : Instr} (rest : List Byte)
    (hw : i.wellFormed (.value hint) = true) :
    decode (.value hint) (encode i ++ rest) = .ok (i, rest) := by
  cases i with
  | int16 d | int32 d =>
    have hh := bne_iff_ne.1 hw
    simp [encode, decode, decodeValue, dataField_difByte, difBits_difByte, Except.map, hh]
  | date d | datetime d =>
    obtain rfl := eq_of_beq hw
    simp [encode, decode, decodeValue, dataField_difByte, difBits_difByte, Except.map]
  | nodata d | int8 d | int24 d | real32 d | int48 d | int64 d | selection d | bcd2 d | bcd4 d | bcd6 d
  | bcd8 d | lvar d | bcd12 d =>
    simp [encode, decode, decodeValue, dataField_difByte, difBits_difByte, Except.map]
  | _ => nomatch hw

theorem decode_encode_dife {i : Instr} (rest : List Byte) (hw : i.wellFormed .dife = true) :
    decode .dife (encode i ++ rest) = .ok (i, rest) := by
  cases i with
  | dife e u t sn =>
    have hbits : difBits (difeByte e u t sn) = ⟨e, u, t⟩ := difBits_difByte ⟨e, u, t⟩ sn
    obtain ⟨he, hu, ht⟩ := DifBits.mk.inj hbits
    have hsn : (difeByte e u t sn).extractLsb' 0 4 = sn := dataField_difByte ⟨e, u, t⟩ sn
    simp only [encode, List.cons_append, List.nil_append, decode, he, hu, ht, hsn]
  | _ => nomatch hw

theorem decode_encode_vif {rom : List VifEntry} {i : Instr} (rest : List Byte)
    (hw : i.wellFormed (.vif rom) = true) :
    decode (.vif rom) (encode i ++ rest) = .ok (i, rest) := by
  cases i with
  | vif e code =>
    have hh := bne_iff_ne.1 hw
    simp only [encode, List.cons_append, List.nil_append, decode, decodeVif, chainByte_getLsbD,
      chainByte_setWidth, if_neg hh]
  | vifPlaintext e code =>
    have hh := eq_of_beq hw
    simp only [encode, List.cons_append, List.nil_append, decode, decodeVif, chainByte_getLsbD,
      chainByte_setWidth, if_pos hh]
  | _ => nomatch hw

theorem decode_encode_vife {i : Instr} (rest : List Byte) (hw : i.wellFormed .vife = true) :
    decode .vife (encode i ++ rest) = .ok (i, rest) := by
  cases i with
  | vife e raw =>
    simp only [encode, List.cons_append, List.nil_append, decode, chainByte_getLsbD, chainByte_setWidth]
  | _ => nomatch hw

theorem decode_encode_lvar {i : Instr} (rest : List Byte) (hw : i.wellFormed .lvar = true) :
    decode .lvar (encode i ++ rest) = .ok (i, rest) := by
  cases i with
  | lvarTextLow n =>
    have hn : (0b0#1 ++ n).setWidth 7 = n := BitVec.setWidth_append_eq_right
    have h7 : (0b0#1 ++ n).getLsbD 7 = false := getLsbD_append_add 0b0#1 n 0
    simp only [encode, List.cons_append, List.nil_append, decode, decodeLvar, hn, h7, if_true]
  | lvarTextHigh n =>
    have hn : (0b10#2 ++ n).setWidth 6 = n := BitVec.setWidth_append_eq_right
    have h7 : (0b10#2 ++ n).getLsbD 7 = true := getLsbD_append_add 0b10#2 n 1
    have h6 : (0b10#2 ++ n).getLsbD 6 = false := getLsbD_append_add 0b10#2 n 0
    simp only [encode, List.cons_append, List.nil_append, decode, decodeLvar, hn, h7, h6, if_true,
      reduceCtorEq, if_false]
  | lvarBcd n =>
    have hn : (0xC#4 ++ n).setWidth 4 = n := BitVec.setWidth_append_eq_right
    have h7 : (0xC#4 ++ n).getLsbD 7 = true := getLsbD_append_add 0xC#4 n 3
    have h6 : (0xC#4 ++ n).getLsbD 6 = true := getLsbD_append_add 0xC#4 n 2
    have h5 : (0xC#4 ++ n).getLsbD 5 = false := getLsbD_append_add 0xC#4 n 1
    have h4 : (0xC#4 ++ n).getLsbD 4 = false := getLsbD_append_add 0xC#4 n 0
    simp only [encode, List.cons_append, List.nil_append, decode, decodeLvar, hn, h7, h6, h5, h4,
      reduceCtorEq, if_false]
  | lvarUnsupportedD n =>
    have hn : (0xD#4 ++ n).setWidth 4 = n := BitVec.setWidth_append_eq_right
    have h7 : (0xD#4 ++ n).getLsbD 7 = true := getLsbD_append_add 0xD#4 n 3
    have h6 : (0xD#4 ++ n).getLsbD 6 = true := getLsbD_append_add 0xD#4 n 2
    have h5 : (0xD#4 ++ n).getLsbD 5 = false := getLsbD_append_add 0xD#4 n 1
    have h4 : (0xD#4 ++ n).getLsbD 4 = true := getLsbD_append_add 0xD#4 n 0
    simp only [encode, List.cons_append, List.nil_append, decode, decodeLvar, hn, h7, h6, h5, h4,
      reduceCtorEq, if_true, if_false]
  | lvarUnsupportedE n =>
    have hn : (0b111#3 ++ n).setWidth 5 = n := BitVec.setWidth_append_eq_right
    have h7 : (0b111#3 ++ n).getLsbD 7 = true := getLsbD_append_add 0b111#3 n 2
    have h6 : (0b111#3 ++ n).getLsbD 6 = true := getLsbD_append_add 0b111#3 n 1
    have h5 : (0b111#3 ++ n).getLsbD 5 = true := getLsbD_append_add 0b111#3 n 0
    simp only [encode, List.cons_append, List.nil_append, decode, decodeLvar, hn, h7, h6, h5,
      reduceCtorEq, if_true, if_false]
  | _ => nomatch hw

theorem decode_encode_ctrl {i : Instr} (rest : List Byte) (hw : i.wellFormed .ctrl = true) :
    decode .ctrl (encode i ++ rest) = .ok (i, rest) := by
  cases i with
  | start ignored =>
    have h0 : (ignored ++ 1#1).getLsbD 0 = true := by rw [BitVec.getLsbD_append]; simp
    have hig : (ignored ++ 1#1).extractLsb' 1 31 = ignored := BitVec.extractLsb'_append_eq_left
    simp only [encode, List.cons_append, List.nil_append, decode, decodeCtrl, append_wordBytes, h0, hig,
      if_true]
  | _ => nomatch hw

theorem decode_encode {c : Context} {i : Instr} {rest : List Byte} (hw : i.wellFormed c = true)
    (hempty : i = .empty → rest = []) : decode c (encode i ++ rest) = .ok (i, rest) := by
  cases c with
  | frameStart => exact decode_encode_frameStart hw hempty
  | difHead tail => exact decode_encode_difHead rest hw
  | dife => exact decode_encode_dife rest hw
  | vif rom => exact decode_encode_vif rest hw
  | vife => exact decode_encode_vife rest hw
  | value hint => exact decode_encode_value rest hw
  | lvar => exact decode_encode_lvar rest hw
  | ctrl => exact decode_encode_ctrl rest hw

/-! ### The statements about encodings -/

/-- Settles O53. -/
theorem decodeOfEncodeIsTheCode : Obligations.DecodeOfEncodeIsTheCode :=
  fun _ _ _ hw hempty => decode_encode hw hempty

/-- Settles O54. -/
theorem decodedCodeIsWellFormedAndKeepsItsBytes :
    Obligations.DecodedCodeIsWellFormedAndKeepsItsBytes :=
  fun _ _ _ _ h => ⟨decode_wellFormed h, decode_bytes h⟩

/-- Settles O55. -/
theorem writtenOutWordsDecode : Obligations.WrittenOutWordsDecode := by
  unfold Obligations.WrittenOutWordsDecode
  exact ⟨rfl, rfl, rfl, rfl, rfl, rfl, rfl, rfl, rfl, rfl, rfl, rfl⟩

end Sys2Proof
end

