-- ==== Sys2Proof/Proofs/BuiltFrames.lean ====
section
/-! PROOFS. The frame builder macros build valid frames (R116). -/

namespace Sys2Proof.Machine

/-! ### Bytes of a held buffer -/

theorem Latch.Holds.byte_append {l : Latch} {pre post : List Byte} {b : Byte}
    (h : l.Holds (pre ++ b :: post)) : l.byte pre.length = b := by
  rw [h.2 pre.length (by simp)]
  simp

/-- The stretch of IN that a part of a held buffer stands in. -/
theorem Latch.Holds.slice_append {l : Latch} {pre mid post : List Byte}
    (h : l.Holds (pre ++ mid ++ post)) : l.slice pre.length mid.length = mid := by
  refine List.ext_getElem (l.slice_length _ _) fun j _ hj => ?_
  rw [l.slice_getElem _ _ _ hj, h.2 _ (by simp; omega)]
  simp [hj]

/-! ### ShortFrame -/

theorem Latch.Holds.validShort {l : Latch} {c a : Byte} (h : l.Holds (buildShort c a)) :
    l.ValidShort := by
  have hbyte (i : Nat) (hi : i < 5) : l.byte i = (buildShort c a)[i] := h.2 i hi
  have h1 : l.byte 1 = c := hbyte 1 (by decide)
  have h2 : l.byte 2 = a := hbyte 2 (by decide)
  have h3 : l.byte 3 = c + a := hbyte 3 (by decide)
  exact
    { start := hbyte 0 (by decide)
      complete := h.1
      checksum := by rw [h1, h2, h3, BitVec.toNat_add]
      stop := hbyte 4 (by decide) }

/-! ### LongFrame and ControlFrame -/

/-- A long-format frame around the bytes it sums: C, A, CI and the payload (R103). -/
def longFrame (body : List Byte) : List Byte :=
  let n : Byte := BitVec.ofNat 8 body.length
  [0x68, n, n, 0x68] ++ body ++ [checksum body, 0x16]

theorem buildLong_eq (c a ci : Byte) (payload : List Byte) :
    buildLong c a ci payload = longFrame (c :: a :: ci :: payload) := by
  simp [buildLong, longFrame, checksum, add_assoc]

theorem Latch.Holds.validLong {l : Latch} {body : List Byte} (hmin : 3 ≤ body.length)
    (hmax : body.length < 256) (h : l.Holds (longFrame body)) :
    l.ValidLong ∧ (l.byte 1).toNat = body.length := by
  have h1 : l.byte 1 = BitVec.ofNat 8 body.length := h.2 1 (by simp [longFrame])
  have hn : (l.byte 1).toNat = body.length := by
    rw [h1, BitVec.toNat_ofNat, Nat.mod_eq_of_lt hmax]
  have hsum : l.slice 4 body.length = body := Latch.Holds.slice_append h
  have hcs : l.byte (body.length + 4) = checksum body := Latch.Holds.byte_append h
  have hstop : l.byte (body.length + 5) = 0x16#8 := by
    rw [longFrame, List.append_cons] at h
    simpa using Latch.Holds.byte_append h
  refine ⟨?_, hn⟩
  exact
    { start := h.2 0 (by simp [longFrame])
      copies := h1.trans (h.2 2 (by simp [longFrame])).symm
      minimum := hn ▸ hmin
      complete := by rw [hn]; exact h.1.trans' (by simp [longFrame])
      second := h.2 3 (by simp [longFrame])
      checksum := by rw [hn, hcs, ← Latch.checksum_slice, hsum]
      stop := by rw [hn, hstop] }

/-- Settles O31. -/
theorem builtFramesAreValid : Obligations.BuiltFramesAreValid := by
  have hlong (l : Latch) (c a ci : Byte) (payload : List Byte) (hp : payload.length ≤ 252)
      (h : l.Holds (buildLong c a ci payload)) :
      l.ValidLong ∧ (l.byte 1).toNat = payload.length + 3 := by
    rw [buildLong_eq] at h
    exact h.validLong (by simp) (by simp; omega)
  refine ⟨fun l c a h => h.validShort, hlong, fun l c a ci h => ?_⟩
  obtain ⟨hvalid, hn⟩ := hlong l c a ci [] (by decide) h
  exact ⟨hvalid, BitVec.eq_of_toNat_eq hn⟩

end Sys2Proof.Machine
end

