-- ==== Sys2Proof/Proofs/FrameStartAndDispatch.lean ====
section
/-! PROOFS. The engine's turn by what its fetch finds, and the frame starts that classify no frame. -/

namespace Sys2Proof.Machine

/-! ### A turn by what the fetch finds -/

theorem State.engineTurn_of_ended {s t : State} (hb : s.busy = true) (hph : s.eng.phase ≠ .stopped)
    (hf : s.fetch = .ended t) : s.engineTurn = .next t := by
  unfold State.engineTurn State.engineStep
  rw [if_pos hb, if_neg hph, hf]

theorem State.engineTurn_of_code {s t : State} {c : Context} {bytes rest : List Byte} {i : Instr}
    (hb : s.busy = true) (hph : s.eng.phase ≠ .stopped) (hf : s.fetch = .code c bytes t)
    (hd : decode c bytes = .ok (i, rest)) : s.engineTurn = exec i t := by
  unfold State.engineTurn State.engineStep
  rw [if_pos hb, if_neg hph, hf]
  simp only [hd]

theorem State.engineTurn_of_noCode {s t : State} {c : Context} {bytes : List Byte} {err : DecodeError}
    (hb : s.busy = true) (hph : s.eng.phase ≠ .stopped) (hf : s.fetch = .code c bytes t)
    (hd : decode c bytes = .error err) : s.engineTurn = t.noCode err bytes := by
  unfold State.engineTurn State.engineStep
  rw [if_pos hb, if_neg hph, hf]
  simp only [hd]

/-- Settles O14: `State.engineTurn_of_code`, read at the state with the turn taken off the schedule. -/
theorem stepRunsTheDecodedCode : Obligations.StepRunsTheDecodedCode := by
  intro s t ts c bytes rest i hb hnext hph hf hd
  rw [step_of_engineNext hnext]
  exact State.engineTurn_of_code (s := { s with turns := ts }) hb hph hf hd

/-! ### Buffers without a frame -/

/-- A frame-level stop keeps CODE, ERR_OFFSET and KIND alone (R154). -/
theorem parseStop_of_frameLevel {code : Code} (h : code.frameLevel = true) (off : Nat) (res : Results)
    (recs : List Record) : parseStop code off res recs = ⟨frameFailure code off res.kind, []⟩ := by
  cases code <;> first | rfl | cases h

theorem parse_of_overlong {p : Params} {l : Latch} (h : p.maxLen < l.len.toNat) :
    parse p l = parseStop .lengthConfig 0 Results.zero [] := by
  unfold parse
  exact if_pos h

/-- PARSE of a buffer within MAX_LEN goes by LEN and the first byte (R156, R180). -/
theorem parse_of_le {p : Params} {l : Latch} (h : l.len.toNat ≤ p.maxLen) :
    parse p l =
      if l.len.toNat = 0 then parseStop .incompleteFrame 0 Results.zero []
      else if l.byte 0 = 0xE5#8 then
        parseStop .ok 0 { Results.zero with kind := kindAck, frameLen := 1 } []
      else if l.byte 0 = 0x10#8 then parseShort l
      else if l.byte 0 = 0x68#8 then
        if l.len.toNat < 2 then parseStop .incompleteFrame 1 Results.zero [] else parseLong p l
      else parseStop .unknownFrameStart 0 Results.zero [] := by
  unfold parse
  exact if_neg (by omega)

/-- Settles O25. -/
theorem unclassifiedBuffersFail : Obligations.UnclassifiedBuffersFail := by
  refine ⟨fun _ => rfl, fun _ _ => rfl, fun p l hle => ?_, fun p l h => ?_⟩
  · rw [parse_of_le hle]
    refine ⟨fun h0 => ?_, fun h1 hb => ?_, fun h0 hb => ?_⟩
    · rw [if_pos (by rw [h0]; rfl), parseStop_of_frameLevel rfl]
      rfl
    · simp [h1, hb, parseStop_of_frameLevel (code := .incompleteFrame) rfl, Results.zero]
    · have hlen : l.len.toNat ≠ 0 := fun h => h0 (BitVec.eq_of_toNat_eq h)
      simp only [List.mem_cons, List.not_mem_nil, or_false, not_or] at hb
      obtain ⟨hE5, h10, h68⟩ := hb
      rw [if_neg hlen, if_neg hE5, if_neg h10, if_neg h68, parseStop_of_frameLevel rfl]
      rfl
  · rw [parse_of_overlong h, parseStop_of_frameLevel rfl]
    rfl

end Sys2Proof.Machine
end

