-- ==== Sys2Proof/Proofs/Start.lean ====
section
/-! PROOFS. The host's START: what it latches, clears and leaves alone (R150, R152). -/

namespace Sys2Proof.Machine

theorem exec_start_of_busy {s : State} (h : s.busy = true) (x : BitVec 31) :
    exec (.start x) s = .next s := congrArg _ (if_pos h)

theorem exec_start_of_idle {s : State} (h : s.busy = false) (x : BitVec 31) :
    exec (.start x) s = .next s.accept := congrArg _ (if_neg (by simp [h]))

/-- START keeps every byte of IN and HDR_TABLE (R79). -/
theorem State.memByte_accept_low (s : State) {a : Nat} (ha : a < recBase) :
    s.accept.memByte a = s.memByte a := by
  refine State.memByte_congr_low ha rfl rfl ?_
  rw [State.accept_mem, Memory.find?_ram, if_pos ha]

/-- START leaves no byte of the record memory known (R48, R152). -/
theorem State.read_accept_record (s : State) {a : Nat} (ha : recBase ≤ a) :
    Memory.read s.accept.mem a = none := by
  have hh : isHdr a = false := by
    rw [Bool.eq_false_iff, ne_eq, isHdr_iff]
    unfold recBase at ha
    omega
  unfold Memory.read Memory.unlisted
  rw [State.accept_mem, Memory.find?_ram, if_neg (by omega), hh]
  rfl

/-- The latched IN is the IN that a host read shows (R34, R79). -/
theorem State.accept_latch_byte (s : State) {i : Nat} (hmax : i < s.params.maxLen) (hi : i < 4096) :
    s.accept.eng.latch.byte i = s.memByte (inBase + i) := by
  have hin : isIn s.params (inBase + i) = true := by
    rw [isIn_iff]
    unfold inBase
    omega
  have hlow : inBase + i < recBase := by unfold inBase recBase; omega
  rw [← s.memByte_accept_low hlow]
  have hh : isHdr (inBase + i) = false := by
    rw [Bool.eq_false_iff, ne_eq, isHdr_iff]
    unfold inBase
    omega
  unfold State.memByte
  rw [hh, State.accept_params, hin]
  rfl

/-- The latched HDR_TABLE is the table that a host read shows (R37, R79). -/
theorem State.accept_latch_hdr (s : State) (ci : Byte) :
    s.accept.eng.latch.hdr ci = (s.memByte (hdrBase + ci.toNat)).toNat := by
  have hci := ci.isLt
  have hh : isHdr (hdrBase + ci.toNat) = true := by
    rw [isHdr_iff]
    unfold hdrBase
    omega
  rw [← s.memByte_accept_low (by unfold hdrBase recBase; omega)]
  unfold State.memByte
  rw [hh]
  rfl

/-- Settles O12. -/
theorem startLatchesInputsAndClearsResults : Obligations.StartLatchesInputsAndClearsResults := by
  intro x s
  refine ⟨fun hb => exec_start_of_busy hb x, fun hb => ⟨s.accept, exec_start_of_idle hb x, ?_⟩⟩
  exact ⟨rfl, rfl, rfl, rfl, rfl, rfl, ⟨rfl, rfl⟩, rfl, rfl, rfl, fun i => s.accept_latch_byte,
    s.accept_latch_hdr, fun a => s.memByte_accept_low, fun a => s.read_accept_record,
    rfl, rfl, rfl, rfl, rfl, rfl, rfl, rfl⟩

end Sys2Proof.Machine
end

