-- ==== Sys2Proof/Proofs/EngineRuns.lean ====
section
/-! PROOFS. Runs in which the engine alone acts: what one more turn adds to what the turns after it publish
(R153, R349). -/

namespace Sys2Proof.Machine

/-! ### Runs of the engine alone -/

/-- A parse is running and the schedule is empty: every step is the engine's turn. -/
structure State.Running (s : State) : Prop where
  busy : s.busy = true
  turns : s.turns = []

/-- In the state `s`, at most `n` turns of the engine from the working registers `e` on publish `r`. -/
def Publishes (s : State) (n : Nat) (e : Engine) (r : ParseResult) : Prop :=
  ∃ k e', k ≤ n ∧
    Sys2Proof.core.run k { s with eng := e } = .next { s.publish r.res r.recs with eng := e' }

theorem run_succ_of_step {M : Host.Core} {s t : M.State} (h : M.step s = .next t) (k : Nat) :
    M.run (k + 1) s = M.run k t := by
  rw [Host.Core.run, h]

theorem State.Running.step_eq {s : State} (hs : s.Running) (e : Engine) :
    step { s with eng := e } = State.engineTurn { s with eng := e } := by
  unfold step
  simp only [hs.turns]

namespace Publishes

variable {s : State} {n : Nat} {e e' : Engine} {r : ParseResult}

theorem mono {m : Nat} (h : Publishes s n e r) (hnm : n ≤ m) : Publishes s m e r := by
  obtain ⟨k, e', hk, hrun⟩ := h
  exact ⟨k, e', hk.trans hnm, hrun⟩

theorem turn (hs : s.Running) (ht : State.engineTurn { s with eng := e } = .next { s with eng := e' })
    (h : Publishes s n e' r) : Publishes s (n + 1) e r := by
  obtain ⟨k, e'', hk, hrun⟩ := h
  have hstep := (hs.step_eq e).trans ht
  exact ⟨k + 1, e'', Nat.succ_le_succ hk, (run_succ_of_step (M := Sys2Proof.core) hstep k).trans hrun⟩

/-- A stop is published by the one turn that is left, `complete` (R153). -/
theorem stop (hs : s.Running) (ht : e.tainted = false) (code : Code) (off : Nat) :
    Publishes s 1 (e.stop code off) (parseStop code off e.res e.recs) := by
  have hstep : step { s with eng := e.stop code off } =
      .next { s with eng := e.stop code off }.complete := by
    rw [hs.step_eq, State.engineTurn_of_stopped rfl, if_pos hs.busy]
  refine ⟨1, e.stop code off, le_rfl, (run_succ_of_step (M := Sys2Proof.core) hstep 0).trans ?_⟩
  rcases State.complete_cases { s with eng := e.stop code off } with ⟨htaint, -⟩ | ⟨-, heq⟩
  · exact absurd (ht.symm.trans htaint) nofun
  · rw [heq]
    rfl

theorem ended (hs : s.Running) (hph : e.phase ≠ .stopped)
    (hf : State.fetch { s with eng := e } = .ended { s with eng := e' })
    (h : Publishes s n e' r) : Publishes s (n + 1) e r :=
  h.turn hs (State.engineTurn_of_ended (s := { s with eng := e }) hs.busy hph hf)

theorem code {e₁ : Engine} {c : Context} {bytes rest : List Byte} {i : Instr} (hs : s.Running)
    (hph : e.phase ≠ .stopped) (hf : State.fetch { s with eng := e } = .code c bytes { s with eng := e₁ })
    (hd : decode c bytes = .ok (i, rest)) (hx : exec i { s with eng := e₁ } = .next { s with eng := e' })
    (h : Publishes s n e' r) : Publishes s (n + 1) e r :=
  h.turn hs ((State.engineTurn_of_code (s := { s with eng := e }) hs.busy hph hf hd).trans hx)

theorem noCode {e₁ : Engine} {c : Context} {bytes : List Byte} {err : DecodeError} (hs : s.Running)
    (hph : e.phase ≠ .stopped) (hf : State.fetch { s with eng := e } = .code c bytes { s with eng := e₁ })
    (hd : decode c bytes = .error err)
    (hx : State.noCode { s with eng := e₁ } err bytes = .next { s with eng := e' })
    (h : Publishes s n e' r) : Publishes s (n + 1) e r :=
  h.turn hs ((State.engineTurn_of_noCode (s := { s with eng := e }) hs.busy hph hf hd).trans hx)

/-- A header byte that is there is taken and dispatched on (R241, R245, R246, R266). -/
theorem byte {c : Context} {i : Instr} {rest : List Byte} (hs : s.Running)
    (hc : e.phase.byteContext? s.params = some c) (hpos : e.pos < e.lim)
    (hd : decode c [e.latch.byte e.pos] = .ok (i, rest))
    (hx : exec i { s with eng := { e with pos := e.pos + 1 } } = .next { s with eng := e' })
    (h : Publishes s n e' r) : Publishes s (n + 1) e r := by
  refine code hs (fun hph => by rw [hph] at hc; cases hc) ?_ hd hx h
  rw [State.fetch_byte hc]
  rcases State.fetchByte_cases { s with eng := e } c with ⟨-, heq⟩ | ⟨hend, -⟩
  · exact heq
  · exact absurd hpos (Nat.not_lt.2 hend)

/-- A header byte that is missing is TruncatedRecord at the record's DIF (R218). -/
theorem missingByte {c : Context} (hs : s.Running) (hc : e.phase.byteContext? s.params = some c)
    (ht : e.tainted = false) (hpos : e.lim ≤ e.pos) :
    Publishes s 2 e (parseStop .truncatedRecord e.rs e.res e.recs) := by
  refine ended hs (fun hph => by rw [hph] at hc; cases hc) ?_ (stop hs ht .truncatedRecord e.rs)
  rw [State.fetch_byte hc]
  rcases State.fetchByte_cases { s with eng := e } c with ⟨hlt, -⟩ | ⟨-, heq⟩
  · exact absurd hpos (Nat.not_le.2 hlt)
  · exact heq

end Publishes

end Sys2Proof.Machine
end

