-- ==== Sys2Proof/Proofs/WalkTurns.lean ====
section
/-! PROOFS. The engine's turns through the record walk compute WALK (R221, R222, R260): from every stage of a
record the turns that are left publish what the rest of the walk answers. -/

namespace Sys2Proof.Machine

/-! ### PARSE of a record, stage by stage -/

/-- How a record goes on when one of its chains has ended: with `k` after a complete chain (R241, R246). -/
def ChainResult.toRecord (rs : Nat) (k : List Byte → Nat → RecordResult) : ChainResult → RecordResult
  | .done bytes pos => k bytes pos
  | .overlong off => .stop .malformedDIFChain off
  | .truncated => .stop .truncatedRecord rs

/-- The rest of a record whose VIF byte `vif` has been taken (R246, R260). -/
def parseAfterVif (p : Params) (l : Latch) (lim rs : Nat) (dif vif : Byte) (dife : List Byte)
    (pos : Nat) : RecordResult :=
  (parseChain l lim Config.chainMax [] pos vif).toRecord rs
    (parseUnpack l lim rs dif vif (vifLookup p.vifTable (vif.setWidth 7)) dife)

/-- The rest of a record whose VIF is due at `pos` (R245). -/
def parseFromVif (p : Params) (l : Latch) (lim rs : Nat) (dif : Byte) (dife : List Byte) (pos : Nat) :
    RecordResult :=
  if lim ≤ pos then .stop .truncatedRecord rs
  else if (vifLookup p.vifTable ((l.byte pos).setWidth 7)).hint = .plainText then .stop .unsupported pos
  else parseAfterVif p l lim rs dif (l.byte pos) dife (pos + 1)

theorem parseRecord_eq (p : Params) (l : Latch) (lim rs : Nat) :
    parseRecord p l lim rs = (parseChain l lim Config.chainMax [] (rs + 1) (l.byte rs)).toRecord rs
      (parseFromVif p l lim rs (l.byte rs)) := by
  unfold parseRecord
  dsimp only
  cases parseChain l lim Config.chainMax [] (rs + 1) (l.byte rs) with
  | overlong off => rfl
  | truncated => rfl
  | done dife pos =>
    simp only [ChainResult.toRecord, parseFromVif, parseAfterVif]
    cases parseChain l lim Config.chainMax [] (pos + 1) (l.byte pos) <;> rfl

/-- The walk after a record, `e` being the registers inside it: a stop, RecordLimit, or the loop head with the
record appended (R217, R222). -/
def Engine.walkOn (p : Params) (fuel : Nat) (e : Engine) : RecordResult → ParseResult
  | .stop code off => parseStop code off e.res e.recs
  | .complete r pos =>
    if e.recs.length = p.maxRecords then parseStop .recordLimit e.rs e.res e.recs
    else parseWalk p e.latch e.lim e.res fuel pos (e.recs ++ [r])

/-- The registers of a walk that has less than `fuel` bytes left. -/
structure Engine.Walking (fuel : Nat) (e : Engine) : Prop where
  untainted : e.tainted = false
  pos_le : e.pos ≤ e.lim
  left_lt : e.lim - e.pos < fuel

/-- From the loop head the turns publish what the loop of WALK answers within `fuel` rounds. -/
def WalkPublishes (s : State) (fuel : Nat) : Prop :=
  ∀ e : Engine, e.Walking fuel → e.phase = .loopHead →
    Publishes s (2 * (e.lim - e.pos) + 2) e
      (parseWalk s.params e.latch e.lim e.res fuel e.pos e.recs)

/-! ### Values -/

/-- ERR_OFFSET has 16 bits, so an offset may be cut to them before (R41). -/
theorem parseStop_toNat_ofNat (code : Code) (off : Nat) (res : Results) (recs : List Record) :
    parseStop code (BitVec.ofNat 16 off).toNat res recs = parseStop code off res recs := by
  simp only [parseStop, stopResults, BitVec.ofNat_toNat, BitVec.setWidth_eq]

namespace Publishes

variable {s : State} {fuel : Nat} {e : Engine}

/-- Taking a value and emitting its record is `parseValue` (R260, R217). -/
theorem unpack (hs : s.Running) (hw : WalkPublishes s fuel) (he : e.Walking fuel) (kind : ValueKind)
    (n : Nat) (dec : List Byte → Decoded) :
    Publishes s (2 * (e.lim - e.pos) + 2) (e.unpack s.params kind n dec)
      (e.walkOn s.params fuel (parseValue e.latch e.lim e.rs e.dif e.vif
        (vifLookup s.params.vifTable (e.vif.setWidth 7)) e.dife e.vife e.lvar e.pos (kind, n, dec))) := by
  obtain ⟨ht, hpos, hfuel⟩ := he
  unfold parseValue
  dsimp only
  by_cases hn : e.lim - e.pos < n
  · rw [if_pos hn, Engine.unpack_of_short hn, ← Engine.stop_of_keeps rfl]
    exact (stop hs ht _ _).mono (by omega)
  rw [if_neg hn]
  by_cases hr : e.recs.length = s.params.maxRecords
  · rw [Engine.unpack_of_full (by omega) hr, ← Engine.stop_of_keeps rfl, Engine.walkOn, if_pos hr,
      ← parseStop_toNat_ofNat]
    exact (stop hs (by exact ht) _ _).mono (by omega)
  · rw [Engine.unpack_of_room (by omega) hr, Engine.walkOn, if_neg hr]
    refine (hw { e with pos := e.pos + n, phase := .loopHead, recs := _ } ⟨ht, ?_, ?_⟩ rfl).mono ?_ <;>
      dsimp only <;> omega

end Publishes

/-! ### UNPACK's dispatch (R260, R266) -/

/-- The LVAR byte's dispatch by its range (R266 to R269). -/
theorem exec_decodeLvar (s : State) (b : Byte) :
    exec (decodeLvar b) s = .next (if b.toNat ≤ 0xBF then s.unpackText b
      else if b.toNat ≤ 0xCF then s.unpackLvarBcd b (b.toNat - 0xC0) else s.lvarUnsupported b) := by
  have henc := encode_decodeLvar b
  have hwf := decodeLvar_wellFormed b
  cases hi : decodeLvar b <;> rw [hi] at henc hwf
  case lvarTextLow n =>
    obtain rfl := List.singleton_inj.1 henc
    have hb : (0b0#1 ++ n).toNat = 0 * 2 ^ 7 + n.toNat := toNat_append_add _ _
    rw [if_pos (by omega)]
    rfl
  case lvarTextHigh n =>
    obtain rfl := List.singleton_inj.1 henc
    have hb : (0b10#2 ++ n).toNat = 0x80 + n.toNat := toNat_append_add _ _
    rw [if_pos (by omega)]
    rfl
  case lvarBcd n =>
    obtain rfl := List.singleton_inj.1 henc
    have hb : (0xC#4 ++ n).toNat = 0xC0 + n.toNat := toNat_append_add _ _
    rw [if_neg (by omega), if_pos (by omega), hb, Nat.add_sub_cancel_left]
    rfl
  case lvarUnsupportedD n =>
    obtain rfl := List.singleton_inj.1 henc
    have hb : (0xD#4 ++ n).toNat = 0xD0 + n.toNat := toNat_append_add _ _
    rw [if_neg (by omega), if_neg (by omega)]
    rfl
  case lvarUnsupportedE n =>
    obtain rfl := List.singleton_inj.1 henc
    have hb : (0b111#3 ++ n).toNat = 0xE0 + n.toNat := toNat_append_add _ _
    rw [if_neg (by omega), if_neg (by omega)]
    rfl
  all_goals nomatch hwf

/-- A field's meaning latches the DIF that its code was read from (R104, R260). -/
theorem State.unpackField_of_dataField (s : State) {dif : Byte} {df : BitVec 4}
    (h : (dataField dif).toNat = df.toNat) (kind : ValueKind) (n : Nat) (dec : List Byte → Decoded) :
    s.unpackField (difBits dif) df kind n dec =
      s.onEngine fun e => Engine.unpack s.params kind n dec { e with dif := dif, lvar := 0 } := by
  rw [State.unpackField, difByte_of_dataField h]

/-- UNPACK's dispatch on an ordinary DIF other than LVAR's is the field that R260 lists. -/
theorem exec_decodeValue (s : State) (hint : Hint) {dif : Byte} (hF : dataField dif ≠ 0xF#4)
    (hD : dataField dif ≠ 0xD#4) :
    let f := parseField s.eng.latch.cfg hint dif
    ∃ i, decode (.value hint) [dif] = .ok (i, []) ∧
      exec i s = .next (s.onEngine fun e =>
        Engine.unpack s.params f.1 f.2.1 f.2.2 { e with dif := dif, lvar := 0 }) := by
  have hlt := (dataField dif).isLt
  rw [ne_eq, ← BitVec.toNat_inj] at hF hD
  unfold parseField decode decodeValue
  dsimp only
  generalize hdf : (dataField dif).toNat = df at hlt hF hD
  have hfields : df = 2 ∨ df = 4 ∨ df = 0 ∨ df = 1 ∨ df = 3 ∨ df = 5 ∨ df = 6 ∨ df = 7 ∨ df = 8 ∨ df = 9 ∨
      df = 10 ∨ df = 11 ∨ df = 12 ∨ df = 14 := by
    simp only [BitVec.toNat_ofNat] at hF hD
    omega
  obtain rfl | rfl | rfl | rfl | rfl | rfl | rfl | rfl | rfl | rfl | rfl | rfl | rfl | rfl := hfields
  · by_cases hh : hint = .date <;> simp only [hh, if_true, if_false] <;>
      exact ⟨_, rfl, congrArg Host.Outcome.next (s.unpackField_of_dataField hdf _ _ _)⟩
  · by_cases hh : hint = .dateTime <;> simp only [hh, if_true, if_false] <;>
      exact ⟨_, rfl, congrArg Host.Outcome.next (s.unpackField_of_dataField hdf _ _ _)⟩
  all_goals exact ⟨_, rfl, congrArg Host.Outcome.next (s.unpackField_of_dataField hdf _ _ _)⟩

/-- Data field 0xD is LVAR's, whatever the hint (R260). -/
theorem decode_value_lvar (hint : Hint) {dif : Byte} (h : dataField dif = 0xD#4) :
    decode (.value hint) [dif] = .ok (.lvar (difBits dif), []) := by
  simp only [decode, decodeValue, h]
  rfl

/-! ### The tests of the header chains (R241, R246) -/

theorem Engine.afterDif_last (e : Engine) : e.afterDif false = { e with phase := .vif } := rfl

theorem Engine.afterDif_more {e : Engine} (h : e.dife.length ≠ Config.chainMax) :
    e.afterDif true = { e with phase := .dife } := if_neg h

theorem Engine.afterDif_full {e : Engine} (h : e.dife.length = Config.chainMax) :
    e.afterDif true = e.stop .malformedDIFChain (e.pos - 1) := if_pos h

theorem Engine.afterVif_last (e : Engine) : e.afterVif false = { e with phase := .value } := rfl

theorem Engine.afterVif_more {e : Engine} (h : e.vife.length ≠ Config.chainMax) :
    e.afterVif true = { e with phase := .vife } := if_neg h

theorem Engine.afterVif_full {e : Engine} (h : e.vife.length = Config.chainMax) :
    e.afterVif true = e.stop .malformedDIFChain (e.pos - 1) := if_pos h

/-- A chain's test does not depend on the stage before it. -/
theorem Engine.afterDif_with_phase (e : Engine) (ph : Phase) (more : Bool) :
    ({ e with phase := ph } : Engine).afterDif more = e.afterDif more := by
  unfold Engine.afterDif
  repeat' split
  all_goals rfl

theorem Engine.afterVif_with_phase (e : Engine) (ph : Phase) (more : Bool) :
    ({ e with phase := ph } : Engine).afterVif more = e.afterVif more := by
  unfold Engine.afterVif
  repeat' split
  all_goals rfl

/-- A DIFE byte is appended as it stands (R241). -/
theorem exec_dife_byte (s : State) (e : Engine) (b : Byte) :
    exec (.dife (b.getLsbD 7) (b.getLsbD 6) (b.extractLsb' 4 2) (b.extractLsb' 0 4))
        { s with eng := { e with phase := .dife } } =
      .next { s with eng := { e with dife := e.dife ++ [b] }.afterDif (b.getLsbD 7) } := by
  rw [exec, execDife, difeByte_of_bits, ← Engine.afterDif_with_phase _ .dife]
  rfl

/-- A VIF byte with a PLAINTEXT entry is Unsupported at its own offset (R245). -/
theorem exec_decodeVif_plainText (s : State) {rom : List VifEntry} {b : Byte}
    (h : (vifLookup rom (b.setWidth 7)).hint = .plainText) : exec (decodeVif rom b) s =
      .next (s.onEngine fun e => { e with vif := b }.stop .unsupported (e.pos - 1)) := by
  rw [decodeVif, if_pos h, exec, execVifPlaintext, chainByte_of_bits]

/-- Any other VIF byte is latched as it stands (R245). -/
theorem exec_decodeVif_latch (s : State) {rom : List VifEntry} {b : Byte}
    (h : (vifLookup rom (b.setWidth 7)).hint ≠ .plainText) : exec (decodeVif rom b) s =
      .next (s.onEngine fun e => { e with vif := b, vife := [] }.afterVif (b.getLsbD 7)) := by
  rw [decodeVif, if_neg h, exec, execVif, chainByte_of_bits]

/-- A VIFE byte is appended as it stands (R246). -/
theorem exec_vife_byte (s : State) (e : Engine) (b : Byte) :
    exec (.vife (b.getLsbD 7) (b.setWidth 7)) { s with eng := { e with phase := .vife } } =
      .next { s with eng := { e with vife := e.vife ++ [b] }.afterVif (b.getLsbD 7) } := by
  rw [exec, execVife, chainByte_of_bits, ← Engine.afterVif_with_phase _ .vife]
  rfl

namespace Publishes

variable {s : State} {fuel : Nat} {e : Engine}

/-! ### From UNPACK on -/

/-- From the LVAR byte on (R266 to R269). -/
theorem lvar (hs : s.Running) (hw : WalkPublishes s fuel) (he : e.Walking fuel) (hph : e.phase = .lvar)
    (hD : dataField e.dif = 0xD#4) :
    Publishes s (2 * (e.lim - e.pos) + 2) e
      (e.walkOn s.params fuel (parseUnpack e.latch e.lim e.rs e.dif e.vif
        (vifLookup s.params.vifTable (e.vif.setWidth 7)) e.dife e.vife e.pos)) := by
  obtain ⟨ht, hpos, hfuel⟩ := he
  have hc : e.phase.byteContext? s.params = some .lvar := by rw [hph]; rfl
  unfold parseUnpack
  rw [if_pos hD]
  by_cases hlim : e.lim ≤ e.pos
  · rw [if_pos hlim]
    exact (missingByte hs hc ht hlim).mono (by omega)
  rw [if_neg hlim]
  dsimp only
  have htaken : ({ e with pos := e.pos + 1, lvar := e.latch.byte e.pos } : Engine).Walking fuel :=
    ⟨ht, by dsimp only; omega, by dsimp only; omega⟩
  have hx := exec_decodeLvar { s with eng := { e with pos := e.pos + 1 } } (e.latch.byte e.pos)
  by_cases htext : (e.latch.byte e.pos).toNat ≤ 0xBF
  · rw [if_pos htext] at hx ⊢
    exact (byte hs hc (by omega) rfl hx (unpack hs hw htaken _ _ _)).mono (by dsimp only; omega)
  rw [if_neg htext] at hx ⊢
  by_cases hbcd : (e.latch.byte e.pos).toNat ≤ 0xCF
  · rw [if_pos hbcd] at hx ⊢
    generalize (e.latch.byte e.pos).toNat - 0xC0 = n at hx ⊢
    exact (byte hs hc (by omega) rfl hx (unpack hs hw htaken _ _ _)).mono (by dsimp only; omega)
  · rw [if_neg hbcd] at hx ⊢
    exact (byte hs hc (by omega) rfl hx (stop hs htaken.untainted _ _)).mono (by omega)

/-- From UNPACK on (R260). -/
theorem value (hs : s.Running) (hw : WalkPublishes s fuel) (he : e.Walking fuel) (hph : e.phase = .value)
    (hF : dataField e.dif ≠ 0xF#4) :
    Publishes s (2 * (e.lim - e.pos) + 3) e
      (e.walkOn s.params fuel (parseUnpack e.latch e.lim e.rs e.dif e.vif
        (vifLookup s.params.vifTable (e.vif.setWidth 7)) e.dife e.vife e.pos)) := by
  obtain ⟨ht, hpos, hfuel⟩ := he
  have hstop : e.phase ≠ .stopped := by rw [hph]; nofun
  have hf := State.fetch_value (s := { s with eng := e }) hph
  by_cases hD : dataField e.dif = 0xD#4
  · have hdif : difByte (difBits e.dif) 0xD#4 = e.dif := difByte_of_dataField (congrArg _ hD)
    refine code hs hstop hf (decode_value_lvar _ hD) (by rw [exec, execLvar, State.onEngine, hdif]) ?_
    exact lvar (e := { e with phase := .lvar }) hs hw ⟨ht, hpos, hfuel⟩ rfl hD
  · obtain ⟨i, hd, hx⟩ := exec_decodeValue { s with eng := e } _ hF hD
    unfold parseUnpack
    rw [if_neg hD]
    exact code hs hstop hf hd hx (unpack (e := { e with lvar := 0 }) hs hw ⟨ht, hpos, hfuel⟩ _ _ _)

/-! ### Header chains -/

/-- A chain of extension bytes, `A bytes pos last` being the registers once its bytes up to `last` have been
taken: the four ways it can go on are those of `parseChain` (R241, R246). -/
theorem chain {A : List Byte → Nat → Byte → Engine} {K : ChainResult → ParseResult} {l : Latch} {lim : Nat}
    (hdone : ∀ bytes pos last, last.getLsbD 7 = false → pos ≤ lim → lim - pos < fuel →
      Publishes s (2 * (lim - pos) + 3) (A bytes pos last) (K (.done bytes pos)))
    (hlong : ∀ bytes pos last, last.getLsbD 7 = true → bytes.length = Config.chainMax →
      Publishes s 1 (A bytes pos last) (K (.overlong (pos - 1))))
    (hshort : ∀ bytes pos last, last.getLsbD 7 = true → bytes.length ≠ Config.chainMax → lim ≤ pos →
      Publishes s 2 (A bytes pos last) (K .truncated))
    (hnext : ∀ bytes pos last n r, last.getLsbD 7 = true → bytes.length ≠ Config.chainMax → pos < lim →
      Publishes s n (A (bytes ++ [l.byte pos]) (pos + 1) (l.byte pos)) r →
      Publishes s (n + 1) (A bytes pos last) r)
    {room : Nat} {bytes : List Byte} {pos : Nat} {last : Byte}
    (hroom : room + bytes.length = Config.chainMax) (hpos : pos ≤ lim) (hfuel : lim - pos < fuel) :
    Publishes s (2 * (lim - pos) + 3) (A bytes pos last) (K (parseChain l lim room bytes pos last)) := by
  induction room generalizing bytes pos last with
  | zero =>
    unfold parseChain
    cases hlast : last.getLsbD 7
    · exact hdone _ _ _ hlast hpos hfuel
    · exact (hlong _ _ _ hlast (by omega)).mono (by omega)
  | succ room ih =>
    unfold parseChain
    cases hlast : last.getLsbD 7
    · exact hdone _ _ _ hlast hpos hfuel
    · by_cases hlim : lim ≤ pos
      · simp only [if_true, if_pos hlim]
        exact (hshort _ _ _ hlast (by omega) hlim).mono (by omega)
      · simp only [if_true, if_neg hlim]
        refine (hnext _ _ _ _ _ hlast (by omega) (by omega) (ih ?_ ?_ ?_)).mono (by omega)
        · simp only [List.length_append, List.length_singleton]
          omega
        · omega
        · omega

/-- From the test of VIFE_CHAIN after the VIF on (R246). -/
theorem afterVif (hs : s.Running) (hw : WalkPublishes s fuel) (he : e.Walking fuel)
    (hF : dataField e.dif ≠ 0xF#4) :
    Publishes s (2 * (e.lim - e.pos) + 3) ({ e with vife := [] }.afterVif (e.vif.getLsbD 7))
      (e.walkOn s.params fuel (parseAfterVif s.params e.latch e.lim e.rs e.dif e.vif e.dife e.pos)) := by
  obtain ⟨ht, hpos, hfuel⟩ := he
  refine chain (l := e.latch)
    (A := fun vife pos last => { e with vife := vife, pos := pos }.afterVif (last.getLsbD 7))
    (K := fun c => e.walkOn s.params fuel (c.toRecord e.rs (parseUnpack e.latch e.lim e.rs e.dif e.vif
      (vifLookup s.params.vifTable (e.vif.setWidth 7)) e.dife)))
    (fun vife pos last hlast hpos hfuel => ?_) (fun vife pos last hlast hlen => ?_)
    (fun vife pos last hlast hlen hlim => ?_) (fun vife pos last n r hlast hlen hlim h => ?_)
    (room := Config.chainMax) (bytes := []) rfl hpos hfuel <;> rw [hlast]
  · rw [Engine.afterVif_last]
    exact value (e := { e with vife := vife, pos := pos, phase := .value }) hs hw ⟨ht, hpos, hfuel⟩ rfl hF
  · rw [Engine.afterVif_full hlen]
    exact stop (e := { e with vife := vife, pos := pos }) hs ht _ _
  · rw [Engine.afterVif_more hlen]
    exact missingByte hs rfl ht hlim
  · rw [Engine.afterVif_more hlen]
    exact byte hs rfl hlim rfl (exec_vife_byte s { e with vife := vife, pos := pos + 1 } _) h

/-- From the VIF on (R245). -/
theorem vif (hs : s.Running) (hw : WalkPublishes s fuel) (he : e.Walking fuel) (hph : e.phase = .vif)
    (hF : dataField e.dif ≠ 0xF#4) :
    Publishes s (2 * (e.lim - e.pos) + 3) e
      (e.walkOn s.params fuel (parseFromVif s.params e.latch e.lim e.rs e.dif e.dife e.pos)) := by
  obtain ⟨ht, hpos, hfuel⟩ := he
  have hc : e.phase.byteContext? s.params = some (.vif s.params.vifTable) := by rw [hph]; rfl
  unfold parseFromVif
  by_cases hlim : e.lim ≤ e.pos
  · rw [if_pos hlim]
    exact (missingByte hs hc ht hlim).mono (by omega)
  rw [if_neg hlim]
  by_cases hplain : (vifLookup s.params.vifTable ((e.latch.byte e.pos).setWidth 7)).hint = .plainText
  · rw [if_pos hplain]
    have hstop := stop (e := { e with pos := e.pos + 1, vif := e.latch.byte e.pos }) hs ht .unsupported e.pos
    exact (byte hs hc (by omega) rfl (exec_decodeVif_plainText _ hplain) hstop).mono (by omega)
  · rw [if_neg hplain]
    have htaken : ({ e with pos := e.pos + 1, vif := e.latch.byte e.pos } : Engine).Walking fuel :=
      ⟨ht, by dsimp only; omega, by dsimp only; omega⟩
    have hrest := afterVif hs hw htaken hF
    exact (byte hs hc (by omega) rfl (exec_decodeVif_latch _ hplain) hrest).mono (by dsimp only; omega)

/-- From the test of DIFE_CHAIN after the DIF on (R241). -/
theorem afterDif (hs : s.Running) (hw : WalkPublishes s fuel) (he : e.Walking fuel)
    (hF : dataField e.dif ≠ 0xF#4) :
    Publishes s (2 * (e.lim - e.pos) + 3) ({ e with dife := [] }.afterDif (e.dif.getLsbD 7))
      (e.walkOn s.params fuel ((parseChain e.latch e.lim Config.chainMax [] e.pos e.dif).toRecord e.rs
        (parseFromVif s.params e.latch e.lim e.rs e.dif))) := by
  obtain ⟨ht, hpos, hfuel⟩ := he
  refine chain (l := e.latch)
    (A := fun dife pos last => { e with dife := dife, pos := pos }.afterDif (last.getLsbD 7))
    (K := fun c => e.walkOn s.params fuel (c.toRecord e.rs
      (parseFromVif s.params e.latch e.lim e.rs e.dif)))
    (fun dife pos last hlast hpos hfuel => ?_) (fun dife pos last hlast hlen => ?_)
    (fun dife pos last hlast hlen hlim => ?_) (fun dife pos last n r hlast hlen hlim h => ?_)
    (room := Config.chainMax) (bytes := []) rfl hpos hfuel <;> rw [hlast]
  · rw [Engine.afterDif_last]
    exact vif (e := { e with dife := dife, pos := pos, phase := .vif }) hs hw ⟨ht, hpos, hfuel⟩ rfl hF
  · rw [Engine.afterDif_full hlen]
    exact stop (e := { e with dife := dife, pos := pos }) hs ht _ _
  · rw [Engine.afterDif_more hlen]
    exact missingByte hs rfl ht hlim
  · rw [Engine.afterDif_more hlen]
    exact byte hs rfl hlim rfl (exec_dife_byte s { e with dife := dife, pos := pos + 1 } _) h

/-- From an ordinary DIF on, when it has been taken (R222, R240). -/
theorem beginRecord (hs : s.Running) (hw : WalkPublishes s fuel) (he : e.Walking fuel)
    (hrs : e.rs + 1 = e.pos) (hF : dataField (e.latch.byte e.rs) ≠ 0xF#4) :
    Publishes s (2 * (e.lim - e.pos) + 3) (e.beginRecord (e.latch.byte e.rs))
      (e.walkOn s.params fuel (parseRecord s.params e.latch e.lim e.rs)) := by
  rw [parseRecord_eq, hrs]
  exact afterDif (e := { e with dif := e.latch.byte e.rs, vife := [], vif := 0, lvar := 0 }) hs hw
    ⟨he.untainted, he.pos_le, he.left_lt⟩ hF

end Publishes

/-! ### The loop of the walk -/

/-- At the loop head a DIF that is there is taken and its offset kept (R211). -/
theorem State.fetch_dif {s : State} (hph : s.eng.phase = .loopHead) (hlt : s.eng.pos < s.eng.lim) :
    s.fetch = .code (.difHead s.eng.latch.cfg.mfrTail) [s.eng.latch.byte s.eng.pos]
      { s with eng := { s.eng with rs := s.eng.pos, pos := s.eng.pos + 1 } } := by
  rw [State.fetch_loopHead hph, if_neg (by omega)]
  rcases State.fetchByte_cases (s.onEngine fun e => { e with rs := e.pos })
    (.difHead s.eng.latch.cfg.mfrTail) with ⟨-, heq⟩ | ⟨hend, -⟩
  · exact heq
  · exact absurd hlt (Nat.not_lt.2 hend)

theorem decode_difHead_ordinary (tail : Bool) {b : Byte} (hF : dataField b ≠ 0xF#4) :
    decode (.difHead tail) [b] = .error .recordDif := by
  have hne (c : Byte) (hc : dataField c = 0xF#4) : b ≠ c := fun h => hF (h ▸ hc)
  rw [decode, decodeDifHead, if_neg (hne _ (by decide)), if_neg (hne _ (by decide)),
    if_neg (hne _ (by decide)), if_neg hF]
  rfl

theorem decode_difHead_special (tail : Bool) {b : Byte} (hF : dataField b = 0xF#4) (h2F : b ≠ 0x2F#8)
    (h1F : b ≠ 0x1F#8) (h0F : b ≠ 0x0F#8) :
    decode (.difHead tail) [b] = .ok (.specialOther (difBits b), []) := by
  rw [decode, decodeDifHead, if_neg h2F, if_neg h1F, if_neg h0F, if_pos hF]
  rfl

namespace Publishes

variable {s : State} {fuel : Nat} {e : Engine}

/-- A special DIF is dispatched on when it has been taken (R222). -/
theorem special {n : Nat} {e' : Engine} {r : ParseResult} {i : Instr} {rest : List Byte} (hs : s.Running)
    (hph : e.phase = .loopHead) (hlt : e.pos < e.lim)
    (hd : decode (.difHead e.latch.cfg.mfrTail) [e.latch.byte e.pos] = .ok (i, rest))
    (hx : exec i { s with eng := { e with rs := e.pos, pos := e.pos + 1 } } = .next { s with eng := e' })
    (h : Publishes s n e' r) : Publishes s (n + 1) e r :=
  code hs (by rw [hph]; nofun) (State.fetch_dif (s := { s with eng := e }) hph hlt) hd hx h

/-- A manufacturer block ends the walk (R213, R217). -/
theorem mfrBlock (hs : s.Running) (ht : e.tainted = false) (hrs : e.rs + 1 = e.pos) (dif : Byte) :
    Publishes s 1 (e.mfrBlock s.params dif)
      (if e.recs.length = s.params.maxRecords then parseStop .recordLimit e.rs e.res e.recs
        else parseStop .ok 0 e.res (e.recs ++ [parseMfr dif e.rs e.lim])) := by
  unfold Engine.mfrBlock
  by_cases hr : e.recs.length = s.params.maxRecords
  · rw [Engine.emit_of_full hr, ← Engine.stop_of_keeps rfl, if_pos hr, ← parseStop_toNat_ofNat]
    exact stop hs ht _ _
  · rw [Engine.emit_of_room hr, if_neg hr, parseMfr, hrs]
    exact stop (e := { e with pos := e.lim, recs := _ }) hs ht .ok 0

/-- A manufacturer marker at the loop head ends the walk (R213, C1). -/
theorem mfrMarker (hs : s.Running) (ht : e.tainted = false) (hph : e.phase = .loopHead) (hlt : e.pos < e.lim)
    (hmfr : e.latch.byte e.pos = 0x0F#8 ∨ e.latch.byte e.pos = 0x1F#8)
    (htail : ¬(e.latch.byte e.pos = 0x0F#8 ∧ e.latch.cfg.mfrTail = true)) :
    Publishes s 2 e
      (if e.recs.length = s.params.maxRecords then parseStop .recordLimit e.pos e.res e.recs
        else parseStop .ok 0 e.res (e.recs ++ [parseMfr (e.latch.byte e.pos) e.pos e.lim])) := by
  have hblock := mfrBlock (e := { e with rs := e.pos, pos := e.pos + 1 }) hs ht rfl (e.latch.byte e.pos)
  rcases hmfr with h0F | h1F
  · have htail : e.latch.cfg.mfrTail = false := by simpa [h0F] using htail
    rw [h0F] at hblock ⊢
    exact special hs hph hlt (by rw [h0F, htail]; rfl) rfl hblock
  · rw [h1F] at hblock ⊢
    exact special hs hph hlt (by rw [h1F]; rfl) rfl hblock

/-- An ordinary DIF at the loop head starts its record (R222, R240). -/
theorem ordinary (hs : s.Running) (hw : WalkPublishes s fuel) (he : e.Walking (fuel + 1))
    (hph : e.phase = .loopHead) (hlt : e.pos < e.lim) (hF : dataField (e.latch.byte e.pos) ≠ 0xF#4) :
    Publishes s (2 * (e.lim - e.pos) + 2) e
      ({ e with rs := e.pos }.walkOn s.params fuel (parseRecord s.params e.latch e.lim e.pos)) := by
  have hfuel := he.left_lt
  have hrecord := beginRecord (e := { e with rs := e.pos, pos := e.pos + 1 }) hs hw
    ⟨he.untainted, hlt, by dsimp only; omega⟩ rfl hF
  exact (noCode hs (by rw [hph]; nofun) (State.fetch_dif (s := { s with eng := e }) hph hlt)
    (decode_difHead_ordinary _ hF) rfl hrecord).mono (by dsimp only; omega)

/-- From the loop head on: the loop of WALK, round by round (R221, R222). -/
theorem walk (hs : s.Running) (fuel : Nat) : WalkPublishes s fuel := by
  induction fuel with
  | zero => exact fun e he _ => absurd he.left_lt (Nat.not_lt_zero _)
  | succ fuel ih =>
    intro e he hph
    obtain ⟨ht, hpos, hfuel⟩ := he
    unfold parseWalk
    dsimp only
    by_cases hend : e.pos = e.lim
    · rw [if_pos hend]
      have hf : State.fetch { s with eng := e } = .ended { s with eng := e.stop .ok 0 } :=
        (State.fetch_loopHead (s := { s with eng := e }) hph).trans (if_pos hend)
      exact (ended hs (by rw [hph]; nofun) hf (stop hs ht _ _)).mono (by omega)
    have hlt : e.pos < e.lim := by omega
    rw [if_neg hend]
    by_cases h2F : e.latch.byte e.pos = 0x2F#8
    · rw [if_pos h2F]
      have hrest := ih { e with rs := e.pos, pos := e.pos + 1, phase := .loopHead }
        ⟨ht, hlt, by dsimp only; omega⟩ rfl
      exact (special hs hph hlt (by rw [h2F]; rfl) rfl hrest).mono (by dsimp only; omega)
    rw [if_neg h2F]
    by_cases htail : e.latch.byte e.pos = 0x0F#8 ∧ e.latch.cfg.mfrTail = true
    · rw [if_pos htail]
      refine (special hs hph hlt (by rw [htail.1, htail.2]; rfl) rfl (n := 1) ?_).mono (by omega)
      dsimp only
      split <;> exact stop (e := { e with rs := e.pos, pos := e.pos + 1 }) hs ht _ _
    rw [if_neg htail]
    by_cases hmfr : e.latch.byte e.pos = 0x0F#8 ∨ e.latch.byte e.pos = 0x1F#8
    · rw [if_pos hmfr]
      exact (mfrMarker hs ht hph hlt hmfr htail).mono (by omega)
    rw [if_neg hmfr]
    obtain ⟨h0F, h1F⟩ := not_or.1 hmfr
    by_cases hF : dataField (e.latch.byte e.pos) = 0xF#4
    · rw [if_pos hF]
      have hstop := stop (e := { e with rs := e.pos, pos := e.pos + 1 }) hs ht .unsupported e.pos
      exact (special hs hph hlt (decode_difHead_special _ hF h2F h1F h0F) rfl hstop).mono (by omega)
    rw [if_neg hF]
    have hrecord := ordinary hs ih ⟨ht, hpos, hfuel⟩ hph hlt hF
    cases hr : parseRecord s.params e.latch e.lim e.pos <;> rw [hr] at hrecord <;> exact hrecord

end Publishes

end Sys2Proof.Machine
end

