-- ==== Sys2Proof/Proofs/EngineComputesParse.lean ====
section
/-! PROOFS. The engine's turns compute PARSE: the frame starts, and the whole parse (R151, R153). -/

namespace Sys2Proof.Machine

/-! ### The bytes a frame start is read from (R180) -/

theorem Latch.slice_of_pos (l : Latch) (a : Nat) {k : Nat} (hk : 0 < k) :
    l.slice a k = l.byte a :: l.slice (a + 1) (k - 1) := by
  cases k with
  | zero => exact absurd hk (Nat.lt_irrefl 0)
  | succ k => rfl

theorem decode_long {b : Byte} (h : b ≠ Config.controlL) :
    decode .frameStart [0x68#8, b] = .ok (.long b, []) :=
  congrArg (fun i => Except.ok (i, [])) (if_neg h)

theorem decode_unknownStart {b : Byte} (rest : List Byte) (hE5 : b ≠ 0xE5#8) (h10 : b ≠ 0x10#8)
    (h68 : b ≠ 0x68#8) : decode .frameStart (b :: rest) = .ok (.unknownStart b, rest) := by
  simp only [decode, decodeFrameStart, if_neg hE5, if_neg h10, if_neg h68]

/-- No kind is what a fresh parse has (R152). -/
theorem Engine.Fresh.setKind_zero {e : Engine} (h : e.Fresh) : e.setKind 0 = e := by
  have hres : { e.res with kind := 0 } = e.res := by rw [h.res]; rfl
  rw [Engine.setKind, hres]

namespace Publishes

variable {s : State} {e : Engine}

/-! ### Frames -/

/-- A stop of a fresh parse without a kind (R181, R184, R185). -/
theorem stopWithoutKind (hs : s.Running) (ht : e.tainted = false) (hfresh : e.Fresh) (code : Code)
    (off : Nat) : Publishes s 1 ((e.setKind 0).stop code off) (parseStop code off Results.zero []) := by
  have h := stop hs ht code off
  rwa [hfresh.res, hfresh.recs, ← hfresh.setKind_zero] at h

/-- The engine and PARSE branch on the same test. -/
theorem branch {n : Nat} {c : Prop} [Decidable c] {e₁ e₂ : Engine} {r₁ r₂ : ParseResult}
    (h₁ : c → Publishes s n e₁ r₁) (h₂ : ¬c → Publishes s n e₂ r₂) :
    Publishes s n (if c then e₁ else e₂) (if c then r₁ else r₂) := by
  by_cases hc : c
  · rw [if_pos hc, if_pos hc]
    exact h₁ hc
  · rw [if_neg hc, if_neg hc]
    exact h₂ hc

/-- VALIDATE_SHORT (R190, R191). -/
theorem short (hs : s.Running) (ht : e.tainted = false) (hfresh : e.Fresh) :
    Publishes s 1 (e.setKind kindShort).validateShort (parseShort e.latch) := by
  unfold Engine.validateShort parseShort Engine.setKind
  rw [hfresh.res, ← hfresh.recs]
  iterate 3 refine branch (fun _ => stop hs (by exact ht) _ _) fun _ => ?_
  exact stop hs (by exact ht) _ _

/-- The walk of a valid long frame, from the header skip on (R210, R222). -/
theorem startWalk (hs : s.Running) (ht : e.tainted = false) {big : Byte}
    (hmin : 3 ≤ big.toNat) : Publishes s (2 * big.toNat + 2) (e.startWalk big)
      (if big.toNat + 4 - 7 < e.latch.hdr e.res.ci then parseStop .truncatedRecord 7 e.res e.recs
        else parseWalk s.params e.latch (big.toNat + 4) e.res
          (big.toNat + 4 - (7 + e.latch.hdr e.res.ci) + 1) (7 + e.latch.hdr e.res.ci) e.recs) := by
  rcases e.startWalk_cases big with ⟨hskip, heq⟩ | ⟨hskip, heq⟩
  · rw [heq, if_pos hskip, ← Engine.stop_of_keeps rfl]
    exact (stop (e := { e with lim := big.toNat + 4 }) hs ht _ _).mono (by omega)
  · rw [heq, if_neg (by omega)]
    refine (walk hs _ { e with lim := big.toNat + 4, phase := .loopHead, pos := 7 + e.latch.hdr e.res.ci }
      ⟨ht, ?_, Nat.lt_succ_self _⟩ rfl).mono ?_ <;> dsimp only <;> omega

/-- VALIDATE_LONG and the walk after it (R192 to R199, R210). -/
theorem long (hs : s.Running) (ht : e.tainted = false) (hfresh : e.Fresh) {kind : BitVec 3}
    (hkind : kind = if e.latch.byte 1 = Config.controlL then kindControl else kindLong) :
    Publishes s (2 * e.latch.len.toNat + 2) ((e.setKind kind).validateLong (e.latch.byte 1))
      (parseLong s.params e.latch) := by
  have hstop (e' : Engine) (ht' : e'.tainted = false) (code : Code) (off : Nat) :
      Publishes s (2 * e.latch.len.toNat + 2) (e'.stop code off) (parseStop code off e'.res e'.recs) :=
    (stop hs ht' code off).mono (by omega)
  unfold Engine.validateLong parseLong Engine.setKind
  rw [hfresh.res, ← hfresh.recs]
  dsimp only
  rw [← hkind]
  iterate 2 refine branch (fun _ => hstop _ (by exact ht) _ _) fun _ => ?_
  refine branch (fun _ => hstop _ (by exact ht) _ _) fun hmin => ?_
  refine branch (fun _ => hstop _ (by exact ht) _ _) fun hwhole => ?_
  iterate 3 refine branch (fun _ => hstop _ (by exact ht) _ _) fun _ => ?_
  refine mono (startWalk hs ?_ (Nat.not_lt.1 hmin)) (by omega)
  exact ht

/-- A dispatch at the frame start (R180). -/
theorem frameStart {rest : List Byte} {i : Instr} {e' : Engine} {n : Nat} {r : ParseResult}
    (hs : s.Running) (hph : e.phase = .frameStart) (hle : e.latch.len.toNat ≤ s.params.maxLen)
    (hd : decode .frameStart (e.latch.slice 0 (min 2 e.latch.len.toNat)) = .ok (i, rest))
    (hx : exec i { s with eng := e } = .next { s with eng := e' }) (h : Publishes s n e' r) :
    Publishes s (n + 1) e r :=
  code hs (by rw [hph]; nofun)
    ((State.fetch_frameStart (s := { s with eng := e }) hph).trans (if_neg (Nat.not_lt.2 hle))) hd hx h

/-- From a first byte 0x68 on: LONG, CONTROL, or the second byte is missing (R184). -/
theorem longStart (hs : s.Running) (ht : e.tainted = false) (hfresh : e.Fresh) (hph : e.phase = .frameStart)
    (hle : e.latch.len.toNat ≤ s.params.maxLen) (h0 : e.latch.len.toNat ≠ 0)
    (h68 : e.latch.byte 0 = 0x68#8) :
    Publishes s (2 * e.latch.len.toNat + 3) e
      (if e.latch.len.toNat < 2 then parseStop .incompleteFrame 1 Results.zero []
        else parseLong s.params e.latch) := by
  by_cases h2 : e.latch.len.toNat < 2
  · rw [if_pos h2]
    have hslice : e.latch.slice 0 (min 2 e.latch.len.toNat) = [0x68#8] := by
      rw [show min 2 e.latch.len.toNat = 1 by omega, ← h68]
      rfl
    refine (noCode hs (by rw [hph]; nofun) ((State.fetch_frameStart (s := { s with eng := e }) hph).trans
      (if_neg (Nat.not_lt.2 hle))) (by rw [hslice]; rfl) rfl ?_).mono (show 1 + 1 ≤ _ by omega)
    exact stopWithoutKind hs ht hfresh .incompleteFrame 1
  · rw [if_neg h2]
    have hslice : e.latch.slice 0 (min 2 e.latch.len.toNat) = [0x68#8, e.latch.byte 1] := by
      rw [min_eq_left (Nat.not_lt.1 h2), ← h68]
      rfl
    by_cases hctrl : e.latch.byte 1 = Config.controlL
    · have hlong := long hs ht hfresh (kind := kindControl) (if_pos hctrl).symm
      rw [hctrl] at hlong
      exact frameStart hs hph hle (by rw [hslice, hctrl]; rfl) rfl hlong
    · have hlong := long hs ht hfresh (kind := kindLong) (if_neg hctrl).symm
      exact frameStart hs hph hle (by rw [hslice, decode_long hctrl]) rfl hlong

/-- From the frame start on: the whole of PARSE (R151, R180). -/
theorem parse (hs : s.Running) (ht : e.tainted = false) (hfresh : e.Fresh) (hph : e.phase = .frameStart) :
    Publishes s (2 * e.latch.len.toNat + 3) e (parse s.params e.latch) := by
  by_cases hmax : s.params.maxLen < e.latch.len.toNat
  · rw [parse_of_overlong hmax, ← hfresh.res, ← hfresh.recs]
    have hf : State.fetch { s with eng := e } = .ended { s with eng := e.stop .lengthConfig 0 } :=
      (State.fetch_frameStart (s := { s with eng := e }) hph).trans (if_pos hmax)
    exact (ended hs (by rw [hph]; nofun) hf (stop hs ht _ _)).mono (by omega)
  have hle := Nat.not_lt.1 hmax
  rw [parse_of_le hle]
  by_cases h0 : e.latch.len.toNat = 0
  · rw [if_pos h0]
    exact (frameStart hs hph hle (by rw [h0]; rfl) rfl (stopWithoutKind hs ht hfresh _ _)).mono (by omega)
  have hslice := e.latch.slice_of_pos 0 (show 0 < min 2 e.latch.len.toNat by omega)
  rw [if_neg h0]
  by_cases hE5 : e.latch.byte 0 = 0xE5#8
  · rw [if_pos hE5, ← hfresh.res, ← hfresh.recs]
    have hack := stop (e := { e with res := { e.res with kind := kindAck, frameLen := 1 } }) hs ht .ok 0
    exact (frameStart hs hph hle (by rw [hslice, hE5]; rfl) rfl hack).mono (by omega)
  rw [if_neg hE5]
  by_cases h10 : e.latch.byte 0 = 0x10#8
  · rw [if_pos h10]
    exact (frameStart hs hph hle (by rw [hslice, h10]; rfl) rfl (short hs ht hfresh)).mono (by omega)
  rw [if_neg h10]
  by_cases h68 : e.latch.byte 0 = 0x68#8
  · rw [if_pos h68]
    exact longStart hs ht hfresh hph hle h0 h68
  · rw [if_neg h68]
    exact (frameStart hs hph hle (by rw [hslice, decode_unknownStart _ hE5 h10 h68]) rfl
      (stopWithoutKind hs ht hfresh _ _)).mono (by omega)

end Publishes

/-- Settles O21: an accepted START is a fresh parse at its frame start. -/
theorem engineTurnsComputeParse : Obligations.EngineTurnsComputeParse := by
  intro s x hb hts
  refine ⟨s.accept, exec_start_of_idle hb x, ?_⟩
  exact Publishes.parse (s := s.accept) (e := s.beginEngine) ⟨rfl, hts⟩ rfl ⟨rfl, rfl⟩ rfl

end Sys2Proof.Machine
end

