-- ==== Sys2Proof/Proofs/ParseReads.lean ====
section
/-! PROOFS. What PARSE reads: no byte of IN at or past LEN, and none past the frame that the first bytes announce
(R155, R175). Each part of PARSE is shown to answer the same for two latches that agree below a bound. -/

namespace Sys2Proof.Machine

/-! ### The cursor stays within the limit -/

theorem parseChain_done_le {l : Latch} {lim fuel pos pos' : Nat} {bytes bytes' : List Byte} {last : Byte}
    (h : parseChain l lim fuel bytes pos last = .done bytes' pos') (hpos : pos ≤ lim) : pos' ≤ lim := by
  induction fuel generalizing bytes pos last with
  | zero =>
    unfold parseChain at h
    split at h <;> cases h
    exact hpos
  | succ fuel ih =>
    unfold parseChain at h
    split at h
    · dsimp only at h
      split at h
      · cases h
      · exact ih h (by omega)
    · cases h
      exact hpos

/-- A chain that leads to a complete record was itself complete (R241, R246). -/
theorem ChainResult.toRecord_eq_complete {c : ChainResult} {rs pos : Nat} {r : Record}
    {k : List Byte → Nat → RecordResult} (h : c.toRecord rs k = .complete r pos) :
    ∃ bytes pos', c = .done bytes pos' ∧ k bytes pos' = .complete r pos := by
  cases c with
  | done bytes pos' => exact ⟨bytes, pos', rfl, h⟩
  | overlong off => cases h
  | truncated => cases h

theorem parseValue_complete_le {l : Latch} {lim rs pos pos' : Nat} {dif vif lvar : Byte} {entry : VifEntry}
    {dife vife : List Byte} {field : ValueKind × Nat × (List Byte → Decoded)} {r : Record}
    (h : parseValue l lim rs dif vif entry dife vife lvar pos field = .complete r pos') (hpos : pos ≤ lim) :
    pos' ≤ lim := by
  unfold parseValue at h
  dsimp only at h
  split at h <;> cases h
  omega

theorem parseUnpack_complete_le {l : Latch} {lim rs pos pos' : Nat} {dif vif : Byte} {entry : VifEntry}
    {dife vife : List Byte} {r : Record}
    (h : parseUnpack l lim rs dif vif entry dife vife pos = .complete r pos') (hpos : pos ≤ lim) :
    pos' ≤ lim := by
  unfold parseUnpack at h
  dsimp only at h
  split at h
  · split at h
    · cases h
    split at h
    · exact parseValue_complete_le h (by omega)
    split at h
    · exact parseValue_complete_le h (by omega)
    · cases h
  · exact parseValue_complete_le h hpos

theorem parseRecord_complete_le {p : Params} {l : Latch} {lim rs pos : Nat} {r : Record}
    (h : parseRecord p l lim rs = .complete r pos) (hrs : rs < lim) : pos ≤ lim := by
  rw [parseRecord_eq] at h
  obtain ⟨dife, pos₁, hdife, hvif⟩ := ChainResult.toRecord_eq_complete h
  have hpos₁ := parseChain_done_le hdife hrs
  unfold parseFromVif at hvif
  split at hvif
  · cases hvif
  split at hvif
  · cases hvif
  obtain ⟨vife, pos₂, hvife, hunpack⟩ := ChainResult.toRecord_eq_complete hvif
  exact parseUnpack_complete_le hunpack (parseChain_done_le hvife (by omega))

/-! ### Latches that agree below a bound -/

section Agree

variable {n : Nat} {l l' : Latch} (h : l.AgreeBelow n l')
include h

theorem Latch.AgreeBelow.slice {a k : Nat} (hk : a + k ≤ n) : l.slice a k = l'.slice a k := by
  induction k generalizing a with
  | zero => rfl
  | succ k ih => rw [Latch.slice, Latch.slice, h.byte a (by omega), ih (by omega)]

theorem parseChain_congr {lim : Nat} (hlim : lim ≤ n) (fuel : Nat) (bytes : List Byte) (pos : Nat)
    (last : Byte) : parseChain l lim fuel bytes pos last = parseChain l' lim fuel bytes pos last := by
  induction fuel generalizing bytes pos last with
  | zero => simp only [parseChain]
  | succ fuel ih =>
    simp only [parseChain]
    by_cases hpos : lim ≤ pos
    · simp only [if_pos hpos]
    · simp only [if_neg hpos, h.byte pos (by omega), ih]

theorem parseValue_congr {lim : Nat} (hlim : lim ≤ n) (rs : Nat) (dif vif : Byte) (entry : VifEntry)
    (dife vife : List Byte) (lvar : Byte) {pos : Nat} (hpos : pos ≤ lim)
    (field : ValueKind × Nat × (List Byte → Decoded)) :
    parseValue l lim rs dif vif entry dife vife lvar pos field =
      parseValue l' lim rs dif vif entry dife vife lvar pos field := by
  unfold parseValue
  dsimp only
  by_cases hn : lim - pos < field.2.1
  · rw [if_pos hn, if_pos hn]
  · rw [if_neg hn, if_neg hn, h.slice (by omega)]

theorem parseUnpack_congr {lim : Nat} (hlim : lim ≤ n) (rs : Nat) (dif vif : Byte) (entry : VifEntry)
    (dife vife : List Byte) {pos : Nat} (hpos : pos ≤ lim) :
    parseUnpack l lim rs dif vif entry dife vife pos = parseUnpack l' lim rs dif vif entry dife vife pos := by
  unfold parseUnpack
  rw [h.cfg, parseValue_congr h hlim rs dif vif entry dife vife 0 hpos]
  by_cases hend : lim ≤ pos
  · rw [if_pos hend, if_pos hend]
  · rw [if_neg hend, if_neg hend, h.byte pos (by omega)]
    dsimp only
    simp only [parseValue_congr h hlim rs dif vif entry dife vife _ (show pos + 1 ≤ lim by omega)]

theorem parseRecord_congr (p : Params) {lim : Nat} (hlim : lim ≤ n) {rs : Nat} (hrs : rs < lim) :
    parseRecord p l lim rs = parseRecord p l' lim rs := by
  rw [parseRecord_eq, parseRecord_eq, ← h.byte rs (by omega), ← parseChain_congr h hlim]
  cases hdife : parseChain l lim Config.chainMax [] (rs + 1) (l.byte rs) with
  | overlong off => rfl
  | truncated => rfl
  | done dife pos =>
    have hpos := parseChain_done_le hdife hrs
    simp only [ChainResult.toRecord, parseFromVif, parseAfterVif]
    by_cases hend : lim ≤ pos
    · rw [if_pos hend, if_pos hend]
    rw [if_neg hend, if_neg hend, ← h.byte pos (by omega), ← parseChain_congr h hlim]
    cases hvife : parseChain l lim Config.chainMax [] (pos + 1) (l.byte pos) with
    | overlong off => rfl
    | truncated => rfl
    | done vife pos' =>
      have hpos' := parseChain_done_le hvife (by omega)
      simp only [parseUnpack_congr h hlim _ _ _ _ _ _ hpos']

theorem parseWalk_congr (p : Params) {lim : Nat} (hlim : lim ≤ n) (res : Results) (fuel : Nat) {pos : Nat}
    (hpos : pos ≤ lim) (recs : List Record) :
    parseWalk p l lim res fuel pos recs = parseWalk p l' lim res fuel pos recs := by
  induction fuel generalizing pos recs with
  | zero => rfl
  | succ fuel ih =>
    unfold parseWalk
    dsimp only
    by_cases hend : pos = lim
    · rw [if_pos hend, if_pos hend]
    have hlt : pos < lim := by omega
    rw [if_neg hend, if_neg hend, ← h.byte pos (by omega), ← h.cfg, ← parseRecord_congr h p hlim hlt, ih hlt]
    cases hr : parseRecord p l lim pos with
    | stop code off => rfl
    | complete r pos' => simp only [ih (parseRecord_complete_le hr hlt)]

theorem parseShort_congr (hn : min l.len.toNat 5 ≤ n) : parseShort l = parseShort l' := by
  unfold parseShort
  rw [← h.len]
  dsimp only
  by_cases hlen : l.len.toNat < 5
  · rw [if_pos hlen, if_pos hlen]
  · rw [if_neg hlen, if_neg hlen, h.byte 1 (by omega), h.byte 2 (by omega), h.byte 3 (by omega),
      h.byte 4 (by omega)]

theorem parseLong_congr (p : Params) (hlen : 2 ≤ l.len.toNat)
    (hn : min l.len.toNat ((l.byte 1).toNat + 6) ≤ n) : parseLong p l = parseLong p l' := by
  unfold parseLong
  rw [← h.len, ← h.byte 1 (by omega)]
  dsimp only
  by_cases h3 : l.len.toNat < 3
  · rw [if_pos h3, if_pos h3]
  rw [if_neg h3, if_neg h3, ← h.byte 2 (by omega)]
  by_cases hmin : (l.byte 1).toNat < 3
  · rw [if_pos hmin, if_pos hmin]
  rw [if_neg hmin, if_neg hmin]
  by_cases hwhole : l.len.toNat < (l.byte 1).toNat + 6
  · rw [if_pos hwhole, if_pos hwhole]
  rw [if_neg hwhole, if_neg hwhole, ← h.byte 3 (by omega), ← h.byte 4 (by omega), ← h.byte 5 (by omega),
    ← h.byte 6 (by omega), ← h.byte ((l.byte 1).toNat + 4) (by omega),
    ← h.byte ((l.byte 1).toNat + 5) (by omega), ← h.slice (by omega), ← h.hdr]
  by_cases hskip : (l.byte 1).toNat + 4 - 7 < l.hdr (l.byte 6)
  · rw [if_pos hskip, if_pos hskip]
  · rw [if_neg hskip, if_neg hskip, parseWalk_congr h p (by omega) _ _ (by omega)]

end Agree

/-! ### The whole of PARSE -/

/-- The length of the frame that the first two bytes announce: Ack, ShortFrame, the long format, or the one byte
that is no frame start (R101 to R103, R180). -/
def Latch.announced (l : Latch) : Nat :=
  if l.byte 0 = 0x10#8 then 5 else if l.byte 0 = 0x68#8 then (l.byte 1).toNat + 6 else 1

/-- PARSE reads no byte past LEN, nor past the frame announced (R155, R175). -/
theorem parse_congr (p : Params) {n : Nat} {l l' : Latch} (h : l.AgreeBelow n l')
    (hn : min l.len.toNat l.announced ≤ n) : parse p l = parse p l' := by
  unfold Latch.announced at hn
  unfold parse
  rw [← h.len]
  dsimp only
  by_cases h0 : l.len.toNat = 0
  · rw [if_pos h0, if_pos h0]
  have hpos : 0 < n := by split_ifs at hn <;> omega
  rw [if_neg h0, if_neg h0, ← h.byte 0 hpos]
  by_cases h10 : l.byte 0 = 0x10#8
  · rw [if_pos h10] at hn
    rw [if_pos h10, if_pos h10, parseShort_congr h hn]
  rw [if_neg h10] at hn
  rw [if_neg h10, if_neg h10]
  by_cases h68 : l.byte 0 = 0x68#8
  · rw [if_pos h68] at hn
    rw [if_pos h68, if_pos h68]
    by_cases h2 : l.len.toNat < 2
    · rw [if_pos h2, if_pos h2]
    · rw [if_neg h2, if_neg h2, parseLong_congr h p (Nat.not_lt.1 h2) hn]
  · rw [if_neg h68, if_neg h68]

/-- Settles O49: each clause names latches that agree below LEN or below the frame announced. -/
theorem parseReadsOnlyTheFrame : Obligations.ParseReadsOnlyTheFrame := by
  refine ⟨fun p l l' h => parse_congr p h (min_le_left _ _), fun p l l' hstart _ h => parse_congr p h ?_,
    fun p l l' hvalid h => parse_congr p h ?_, fun p l l' hvalid h => parse_congr p h ?_⟩
  · refine (min_le_right _ _).trans (Eq.le ?_)
    rw [Latch.announced, hstart]
    rfl
  · exact (min_le_right _ _).trans (if_pos hvalid.start).le
  · refine (min_le_right _ _).trans (Eq.le ?_)
    rw [Latch.announced, hvalid.start]
    rfl

end Sys2Proof.Machine
end

