-- ==== Sys2Proof/Proofs/Truncation.lean ====
section
/-! PROOFS. A buffer that ends inside its frame: every length check of the classifier and of the two validators
answers IncompleteFrame at LEN (R175, R181, R184, R190, R194). The long format checks its length field before its
second length check, so the argument needs the sound length field of the frame that was cut. -/

namespace Sys2Proof.Machine

/-- LEN stops short of the frame that the buffer starts: nothing at all, a part of a ShortFrame, or a part of a
long frame with a sound length field. -/
inductive Latch.EndsInsideFrame (l : Latch) : Prop
  | empty (hlen : l.len.toNat = 0)
  | short (hstart : l.byte 0 = 0x10#8) (hlen : l.len.toNat < 5)
  | long (hstart : l.byte 0 = 0x68#8) (hcopies : l.byte 1 = l.byte 2) (hmin : 3 ≤ (l.byte 1).toNat)
      (hlen : l.len.toNat < (l.byte 1).toNat + 6)

/-- IncompleteFrame at LEN with no record; FRAME.KIND is as far as PARSE came to know it. -/
def ParseResult.IncompleteAt (n : Half) (r : ParseResult) : Prop :=
  ∃ kind, r = ⟨frameFailure .incompleteFrame n.toNat kind, []⟩

theorem parseStop_incompleteAt (n : Half) (res : Results) (recs : List Record) :
    (parseStop .incompleteFrame n.toNat res recs).IncompleteAt n :=
  ⟨res.kind, parseStop_of_frameLevel rfl _ _ _⟩

theorem ParseResult.IncompleteAt.fields {n : Half} {r : ParseResult} (h : r.IncompleteAt n) :
    r.res.code = Code.incompleteFrame.num ∧ r.res.errOffset = n ∧ r.recs = [] := by
  obtain ⟨kind, rfl⟩ := h
  exact ⟨rfl, (BitVec.ofNat_toNat 16 n).trans (BitVec.setWidth_eq n), rfl⟩

theorem parseShort_incompleteAt {l : Latch} (hlen : l.len.toNat < 5) :
    (parseShort l).IncompleteAt l.len := by
  unfold parseShort
  dsimp only
  rw [if_pos hlen]
  exact parseStop_incompleteAt _ _ _

/-- The checks of the length field pass, so either length check of the long format answers (R194). -/
theorem parseLong_incompleteAt (p : Params) {l : Latch} (hcopies : l.byte 1 = l.byte 2)
    (hmin : 3 ≤ (l.byte 1).toNat) (hlen : l.len.toNat < (l.byte 1).toNat + 6) :
    (parseLong p l).IncompleteAt l.len := by
  unfold parseLong
  dsimp only
  by_cases h3 : l.len.toNat < 3
  · rw [if_pos h3]
    exact parseStop_incompleteAt _ _ _
  · rw [if_neg h3, if_neg (not_not_intro hcopies), if_neg (Nat.not_lt.2 hmin), if_pos hlen]
    exact parseStop_incompleteAt _ _ _

theorem Latch.EndsInsideFrame.parse_incompleteAt {p : Params} {l : Latch} (h : l.EndsInsideFrame)
    (hle : l.len.toNat ≤ p.maxLen) : (parse p l).IncompleteAt l.len := by
  rw [parse_of_le hle]
  by_cases h0 : l.len.toNat = 0
  · rw [if_pos h0, ← h0]
    exact parseStop_incompleteAt _ _ _
  rw [if_neg h0]
  cases h with
  | empty hlen => exact absurd hlen h0
  | short hstart hlen =>
    rw [if_neg (by rw [hstart]; decide), if_pos hstart]
    exact parseShort_incompleteAt hlen
  | long hstart hcopies hmin hlen =>
    rw [if_neg (by rw [hstart]; decide), if_neg (by rw [hstart]; decide), if_pos hstart]
    by_cases h2 : l.len.toNat < 2
    · have h1 : l.len.toNat = 1 := by omega
      rw [if_pos h2, ← h1]
      exact parseStop_incompleteAt _ _ _
    · rw [if_neg h2]
      exact parseLong_incompleteAt p hcopies hmin hlen

/-- Settles O30: a shorter LEN leaves the bytes of IN as they are, so the truncated buffer ends inside the frame
it was valid with. -/
theorem truncationIsIncompleteFrame : Obligations.TruncationIsIncompleteFrame := by
  intro p l n hmax hn hframe
  have hcut : Latch.EndsInsideFrame { l with len := n } := by
    obtain ⟨_, hlen⟩ | ⟨hvalid, hlen⟩ | ⟨hvalid, hlen⟩ := hframe
    · exact .empty (Nat.lt_one_iff.1 hlen)
    · exact .short hvalid.start hlen
    · exact .long hvalid.start hvalid.copies hvalid.minimum hlen
  exact (hcut.parse_incompleteAt (hn.trans hmax)).fields

end Sys2Proof.Machine
end

