-- ==== Sys2Proof/Proofs/Ack.lean ====
section
/-! PROOFS. The Ack frame: one byte, OK, kind Ack, no record (R102, R182, R300). -/

namespace Sys2Proof.Machine

/-- What PARSE leaves of an Ack: KIND 1, FRAME_LEN 1, OK at offset 0, valid records of which there are none, and
0 in every other result field (R182). -/
def ackResults : Results :=
  { Results.zero with recsValid := true, code := 0, kind := 1, frameLen := 1 }

/-- ACK at the start of a parse (R152, R182). The registers the parse has not touched stay as they are. -/
theorem exec_ack_of_fresh {s : State} (h : s.eng.Fresh) :
    exec .ack s = .next { s with
      eng := { s.eng with phase := .stopped, recs := [], res := ackResults } } := by
  have hstop : { s.eng with res := { s.eng.res with kind := kindAck, frameLen := 1 } }.stop .ok 0 =
      { s.eng with phase := .stopped, recs := [], res := ackResults } := by
    rw [Engine.stop_of_keeps rfl, Engine.stoppedKeeping, h.res, h.recs]
    rfl
  exact congrArg (fun e => Host.Outcome.next { s with eng := e }) hstop

/-- PARSE reads no byte past the first of an Ack (R180, R182). -/
theorem parse_of_ack {p : Params} {l : Latch} (h0 : l.len.toNat ≠ 0) (hle : l.len.toNat ≤ p.maxLen)
    (hstart : l.byte 0 = 0xE5#8) : parse p l = ⟨ackResults, []⟩ := by
  rw [parse_of_le hle, if_neg h0, if_pos hstart]
  rfl

/-- Settles O26: the code at a fresh parse, and the buffers that PARSE classifies as an Ack. -/
theorem ackSucceedsWithNoRecord : Obligations.AckSucceedsWithNoRecord := by
  refine ⟨fun s hfresh => exec_ack_of_fresh hfresh, fun p l hlen hle hstart => ?_⟩
  have h0 : l.len.toNat ≠ 0 := fun h => hlen (BitVec.eq_of_toNat_eq h)
  exact parse_of_ack h0 hle hstart

end Sys2Proof.Machine
end

