-- ==== Sys2Proof/Proofs/FrameValidator.lean ====
section
/-! PROOFS. The frame validator's meanings: a ShortFrame and a frame of the long format are checked in the spec's
order, and the frame fields are captured when every check passes (R190 to R199). Model and statement branch on the
same tests once the checksums are numbers. -/

namespace Sys2Proof.Machine

/-- Two branches on the same test are related when their sides are. -/
theorem ite_rel {α β : Sort*} (R : α → β → Prop) {c : Prop} [Decidable c] {a₁ a₂ : α} {b₁ b₂ : β}
    (h₁ : R a₁ b₁) (h₂ : R a₂ b₂) : R (if c then a₁ else a₂) (if c then b₁ else b₂) := by
  by_cases hc : c
  · rwa [if_pos hc, if_pos hc]
  · rwa [if_neg hc, if_neg hc]

/-! ### Wrap-around sums as numbers (R191, R196) -/

theorem byte_add_eq_ofNat (a b : Byte) : a + b = BitVec.ofNat 8 ((a.toNat + b.toNat) % 256) :=
  BitVec.eq_of_toNat_eq (by simp [BitVec.toNat_add])

theorem byte_ne_ofNat_mod_iff (b : Byte) (n : Nat) :
    b ≠ BitVec.ofNat 8 (n % 256) ↔ b.toNat ≠ n % 256 := by
  rw [BitVec.toNat_ne, BitVec.toNat_ofNat, Nat.mod_mod]

theorem Latch.checksum_slice_eq_ofNat (l : Latch) (a n : Nat) :
    checksum (l.slice a n) = BitVec.ofNat 8 (l.sum a n % 256) :=
  BitVec.eq_of_toNat_eq (by rw [l.checksum_slice, BitVec.toNat_ofNat, Nat.mod_mod])

/-! ### ShortFrame -/

/-- VALIDATE_SHORT has ended with the given results: no record, and only the accumulator used beside them. -/
def Engine.EndsShort (e e' : Engine) (res : Results) : Prop :=
  ∃ acc, e' = { e with phase := .stopped, recs := [], acc := acc, res := res }

theorem Engine.Fresh.validateShort_endsShort {e : Engine} (h : e.Fresh) :
    let sum := ((e.latch.byte 1).toNat + (e.latch.byte 2).toNat) % 256
    e.EndsShort (e.setKind kindShort).validateShort
      (if e.latch.len.toNat < 5 then frameFailure .incompleteFrame e.latch.len.toNat kindShort
      else if (e.latch.byte 3).toNat ≠ sum then frameFailure .checksumMismatch 3 kindShort
      else if e.latch.byte 4 ≠ 0x16#8 then frameFailure .badDelimiter 4 kindShort
      else
        { Results.zero with
          recsValid := true, code := 0, kind := kindShort, frameLen := 5, c := e.latch.byte 1
          a := e.latch.byte 2, csRx := e.latch.byte 3, csCalc := BitVec.ofNat 8 sum }) := by
  simp only [← byte_ne_ofNat_mod_iff, ← byte_add_eq_ofNat]
  unfold Engine.validateShort Engine.setKind
  rw [h.res]
  iterate 3 refine ite_rel e.EndsShort ⟨_, rfl⟩ ?_
  rw [Engine.stop_of_keeps rfl, Engine.stoppedKeeping, h.recs]
  exact ⟨_, rfl⟩

/-- Settles O27. -/
theorem shortFrameIsValidatedInOrder : Obligations.ShortFrameIsValidatedInOrder := by
  intro s hfresh
  obtain ⟨acc, hacc⟩ := hfresh.validateShort_endsShort
  have hexec : exec .short s = .next { s with eng := (s.eng.setKind kindShort).validateShort } := rfl
  rw [hexec, hacc]
  exact ⟨acc, rfl⟩

/-! ### LongFrame and ControlFrame -/

/-- The result fields of a valid frame of the long format with length field `big`, before the walk (R198). -/
def Latch.longResults (l : Latch) (kind : BitVec 3) (big : Byte) : Results :=
  { Results.zero with
    kind := kind, c := l.byte 4, a := l.byte 5, ci := l.byte 6, csRx := l.byte (big.toNat + 4)
    csCalc := checksum (l.slice 4 big.toNat), frameL := big, frameLen := BitVec.ofNat 16 (big.toNat + 6)
    payloadOff := 7, payloadLen := BitVec.ofNat 16 (big.toNat - 3) }

/-- A fresh parse behind the checks of VALIDATE_LONG: the sum taken and the fields captured (R196, R198). -/
def Engine.capturedLong (e : Engine) (kind : BitVec 3) (big : Byte) : Engine :=
  { e with acc := checksum (e.latch.slice 4 big.toNat), res := e.latch.longResults kind big }

theorem Engine.Fresh.captureLong_eq {e : Engine} (h : e.Fresh) (kind : BitVec 3) (big : Byte) :
    { e.setKind kind with acc := checksum (e.latch.slice 4 big.toNat) }.captureLong big =
      e.capturedLong kind big := by
  rw [Engine.captureLong, Engine.setKind, h.res]
  rfl

/-- LONG and CONTROL differ in the kind and in where L comes from (R184). -/
theorem exec_longFormat {s : State} {i : Instr} {big : Byte} {kind : BitVec 3}
    (h : (i = .long big ∧ kind = 3) ∨ (i = .control ∧ big = 3 ∧ kind = 4)) :
    exec i s = .next { s with eng := (s.eng.setKind kind).validateLong big } := by
  obtain ⟨rfl, rfl⟩ | ⟨rfl, rfl, rfl⟩ := h <;> rfl

/-- Settles O28: the checks in turn, and behind them the header skip. -/
theorem longFrameIsValidatedInOrder : Obligations.LongFrameIsValidatedInOrder := by
  intro s i big kind hfresh hcode
  refine ⟨_, exec_longFormat hcode, ?_⟩
  simp only [← byte_ne_ofNat_mod_iff, ← Latch.checksum_slice_eq_ofNat]
  generalize he : (s.eng.setKind kind).validateLong big = e
  revert he
  unfold Engine.validateLong
  iterate 7 refine ite_rel (fun e' P => e' = e → P) (fun he => ⟨_, he.symm⟩) ?_
  intro he
  have hcaptured : (s.eng.capturedLong kind big).startWalk big = e :=
    (congrArg (·.startWalk big) (hfresh.captureLong_eq kind big)).symm.trans he
  obtain ⟨hskip, hwalk⟩ | ⟨hskip, hwalk⟩ := (s.eng.capturedLong kind big).startWalk_cases big
  · exact (if_pos hskip).mpr (hcaptured.symm.trans hwalk)
  · exact (if_neg (Nat.not_lt.2 hskip)).mpr (hcaptured.symm.trans hwalk)

end Sys2Proof.Machine
end

