-- ==== Sys2Proof/Proofs/LongFrames.lean ====
section
/-! PROOFS. PARSE of a buffer whose long-format framing is sound: what a wrong checksum gives, and what the frame
registers hold when the frame is valid, whatever the walk reports (R196, R198). -/

namespace Sys2Proof.Machine

/-! ### Framing (R103) -/

/-- The parts of a valid long frame outside the sum of R196: the start bytes, the length copies, LEN. -/
structure Latch.LongFraming (l : Latch) : Prop where
  start : l.byte 0 = 0x68#8
  copies : l.byte 1 = l.byte 2
  minimum : 3 ≤ (l.byte 1).toNat
  complete : (l.byte 1).toNat + 6 ≤ l.len.toNat
  second : l.byte 3 = 0x68#8

theorem Latch.ValidLong.framing {l : Latch} (h : l.ValidLong) : l.LongFraming :=
  ⟨h.start, h.copies, h.minimum, h.complete, h.second⟩

theorem Latch.ValidLong.checksum_eq {l : Latch} (h : l.ValidLong) :
    l.byte ((l.byte 1).toNat + 4) = Machine.checksum (l.slice 4 (l.byte 1).toNat) :=
  BitVec.eq_of_toNat_eq (h.checksum.trans (l.checksum_slice _ _).symm)

/-- Framing reads no byte of the sum (R192 to R195). -/
theorem Latch.LongFraming.congr {l l' : Latch} (h : l.LongFraming) (hlen : l'.len = l.len)
    (hbyte : ∀ j < 4, l'.byte j = l.byte j) : l'.LongFraming where
  start := (hbyte 0 (by decide)).trans h.start
  copies := by rw [hbyte 1 (by decide), hbyte 2 (by decide), h.copies]
  minimum := by rw [hbyte 1 (by decide)]; exact h.minimum
  complete := by rw [hbyte 1 (by decide), hlen]; exact h.complete
  second := (hbyte 3 (by decide)).trans h.second

/-- FRAME.KIND of a frame of the long format (R184). -/
def Latch.longKind (l : Latch) : BitVec 3 :=
  if l.byte 1 = Config.controlL then kindControl else kindLong

/-- The header skip and the walk of a valid long frame (R210, R222). -/
def parsePayload (p : Params) (l : Latch) : ParseResult :=
  let res := l.longResults l.longKind (l.byte 1)
  let lim := (l.byte 1).toNat + 4
  let skip := l.hdr (l.byte 6)
  if lim - 7 < skip then parseStop .truncatedRecord 7 res []
  else parseWalk p l lim res (lim - (7 + skip) + 1) (7 + skip) []

/-- Behind sound framing only the checksum and the stop byte are left to check (R196, R197). -/
theorem Latch.LongFraming.parse_eq {p : Params} {l : Latch} (h : l.LongFraming)
    (hle : l.len.toNat ≤ p.maxLen) :
    parse p l =
      if l.byte ((l.byte 1).toNat + 4) ≠ checksum (l.slice 4 (l.byte 1).toNat) then
        ⟨frameFailure .checksumMismatch ((l.byte 1).toNat + 4) l.longKind, []⟩
      else if l.byte ((l.byte 1).toNat + 5) ≠ 0x16#8 then
        ⟨frameFailure .badDelimiter ((l.byte 1).toNat + 5) l.longKind, []⟩
      else parsePayload p l := by
  have hmin := h.minimum
  have hcomplete := h.complete
  rw [parse_of_le hle, if_neg (by omega), if_neg (by rw [h.start]; decide),
    if_neg (by rw [h.start]; decide), if_pos h.start, if_neg (by omega)]
  unfold parseLong
  dsimp only
  rw [if_neg (by omega), if_neg (not_not_intro h.copies), if_neg (by omega), if_neg (by omega),
    if_neg (not_not_intro h.second)]
  rfl

/-! ### Any single-bit flip (R196) -/

theorem xor_one_shiftLeft_ne (b : Byte) {k : Nat} (hk : k < 8) : b ^^^ (1#8 <<< k) ≠ b := by
  intro h
  have hbit := congrArg (·.getLsbD k) h
  simp [hk] at hbit

/-- Changing one byte of the sum changes the sum modulo 256. -/
theorem Latch.checksum_slice_ne {l l' : Latch} {a n i : Nat} (hle : a ≤ i) (hlt : i < a + n)
    (hne : l'.byte i ≠ l.byte i) (hsame : ∀ j, j ≠ i → l'.byte j = l.byte j) :
    checksum (l'.slice a n) ≠ checksum (l.slice a n) := by
  obtain ⟨k, rfl⟩ := Nat.exists_eq_add_of_le hle
  have hk : k ∈ Finset.range n := Finset.mem_range.2 (by omega)
  have hrest : ∑ j ∈ (Finset.range n).erase k, (l'.byte (a + j)).toNat =
      ∑ j ∈ (Finset.range n).erase k, (l.byte (a + j)).toNat :=
    Finset.sum_congr rfl fun j hj => by
      rw [hsame (a + j) fun h => Finset.ne_of_mem_erase hj (Nat.add_left_cancel h)]
  have hsum := Finset.add_sum_erase _ (fun j => (l.byte (a + j)).toNat) hk
  have hsum' := Finset.add_sum_erase _ (fun j => (l'.byte (a + j)).toNat) hk
  rw [BitVec.toNat_ne] at hne ⊢
  rw [Latch.checksum_slice, Latch.checksum_slice, Latch.sum, Latch.sum, ← hsum, ← hsum', hrest]
  omega

/-- Settles O29: the flip leaves the framing and the checksum byte, and changes the sum. -/
theorem singleBitFlipIsAChecksumMismatch : Obligations.SingleBitFlipIsAChecksumMismatch := by
  intro p l l' i k hvalid hmax hle hlt hk hlen hflip hsame
  have hframing := hvalid.framing.congr hlen fun j hj => hsame j (by omega)
  have h1 : l'.byte 1 = l.byte 1 := hsame 1 (by omega)
  have hne : l'.byte i ≠ l.byte i := by
    rw [hflip]
    exact xor_one_shiftLeft_ne _ hk
  have hcs : l'.byte ((l'.byte 1).toNat + 4) ≠ checksum (l'.slice 4 (l'.byte 1).toNat) := by
    rw [h1, hsame _ (by omega), hvalid.checksum_eq]
    exact (Latch.checksum_slice_ne hle (by omega) hne hsame).symm
  rw [hframing.parse_eq (by rw [hlen]; exact hmax), if_pos hcs, Latch.longKind, h1]
  rfl

/-! ### Capture (R198) -/

theorem parsePayload_endsWalk (p : Params) (l : Latch) :
    (parsePayload p l).EndsWalk p (l.longResults l.longKind (l.byte 1)) := by
  unfold parsePayload
  dsimp only
  split
  · exact parseStop_endsWalk rfl (Nat.zero_le _) nofun
  · exact parseWalk_endsWalk p l _ _ _ _ _ (Nat.zero_le _)

theorem Latch.ValidLong.parse_eq {p : Params} {l : Latch} (h : l.ValidLong) (hle : l.len.toNat ≤ p.maxLen) :
    parse p l = parsePayload p l := by
  rw [h.framing.parse_eq hle, if_neg (not_not_intro h.checksum_eq), if_neg (not_not_intro h.stop)]

/-- However the walk ends, it writes no frame register: only CODE, ERR_OFFSET, RECS_VALID and REC_COUNT (R151). -/
theorem ParseResult.EndsWalk.res_eq {p : Params} {res : Results} {r : ParseResult} (h : r.EndsWalk p res) :
    ∃ code off recsValid recCount, r.res =
      { res with code := code, errOffset := off, recsValid := recsValid, recCount := recCount } := by
  obtain ⟨code, off, recs, rfl, hcode, -, -⟩ := h
  refine ⟨_, _, _, _, if_neg ?_⟩
  rw [hcode]
  exact Bool.false_ne_true

/-- Settles O32. -/
theorem validLongFrameIsCapturedWhateverTheWalkReports :
    Obligations.ValidLongFrameIsCapturedWhateverTheWalkReports := by
  intro p l hvalid hle
  obtain ⟨code, off, recsValid, recCount, hres⟩ := (parsePayload_endsWalk p l).res_eq
  rw [hvalid.parse_eq hle, hres]
  have hlen : (BitVec.ofNat 16 ((l.byte 1).toNat + 6)).toNat = (l.byte 1).toNat + 6 := by
    rw [BitVec.toNat_ofNat]; omega
  have hpayload : (BitVec.ofNat 16 ((l.byte 1).toNat - 3)).toNat = (l.byte 1).toNat - 3 := by
    rw [BitVec.toNat_ofNat]; omega
  exact ⟨rfl, rfl, hlen, rfl, rfl, rfl, rfl, hvalid.checksum_eq.symm, rfl, hpayload⟩

end Sys2Proof.Machine
end

