-- ==== Sys2Proof/Proofs/RecordTiling.lean ====
section
/-! PROOFS. Where the walk's records lie: in payload order, nothing but fillers between them, and every record
that is not the last at least two bytes long (R212, R216, R217). One induction over the loop of WALK says which
records tile the payload up to the loop head at which the walk stops, and why it stops there. -/

namespace Sys2Proof.Machine

/-! ### The span of one record (R213, R222, R272) -/

/-- An offset below 2^16 is kept by the 16 bits of a record's field (R48). -/
theorem toNat_ofNat_half {n : Nat} (h : n < 65536) : (BitVec.ofNat 16 n).toNat = n :=
  (BitVec.toNat_ofNat n 16).trans (Nat.mod_eq_of_lt h)

/-- One past the last value byte of a record. -/
def Record.valueEnd (r : Record) : Nat := r.valueOff.toNat + r.valueLen.toNat

/-- The record's bytes are those from its DIF at `rs` up to `pos`, within the limit: a DIF and a VIF at least,
unless they are the rest of the payload. -/
structure Record.Spans (l : Latch) (lim rs pos : Nat) (r : Record) : Prop where
  recOff_eq : r.recOff.toNat = rs
  dif_eq : r.dif = l.byte rs
  lt_valueOff : rs < r.valueOff.toNat
  valueEnd_eq : r.valueEnd = pos
  pos_le : pos ≤ lim
  two_le : rs + 2 ≤ pos ∨ pos = lim

theorem Record.Spans.lt_pos {l : Latch} {lim rs pos : Nat} {r : Record} (h : r.Spans l lim rs pos) : rs < pos := by
  have hend := h.valueEnd_eq
  have hoff := h.lt_valueOff
  rw [Record.valueEnd] at hend
  omega

/-- A manufacturer record spans the rest of the payload (R213). -/
theorem parseMfr_spans {l : Latch} {lim rs : Nat} (hlim : lim < 65536) (hrs : rs < lim) :
    (parseMfr (l.byte rs) rs lim).Spans l lim rs lim := by
  have hrecOff : (BitVec.ofNat 16 rs).toNat = rs := toNat_ofNat_half (by omega)
  have hvalueOff : (BitVec.ofNat 16 (rs + 1)).toNat = rs + 1 := toNat_ofNat_half (by omega)
  have hvalueLen : (BitVec.ofNat 16 (lim - (rs + 1))).toNat = lim - (rs + 1) :=
    toNat_ofNat_half (by omega)
  exact
    { recOff_eq := hrecOff
      dif_eq := rfl
      lt_valueOff := by rw [parseMfr, hvalueOff]; omega
      valueEnd_eq := by rw [Record.valueEnd, parseMfr, hvalueOff, hvalueLen]; omega
      pos_le := le_rfl
      two_le := .inr rfl }

theorem parseValue_spans {l : Latch} {lim rs pos pos' : Nat} {vif lvar : Byte} {entry : VifEntry}
    {dife vife : List Byte} {field : ValueKind × Nat × (List Byte → Decoded)} {r : Record} (hlim : lim < 65536)
    (h : parseValue l lim rs (l.byte rs) vif entry dife vife lvar pos field = .complete r pos')
    (hrs : rs + 2 ≤ pos) (hpos : pos ≤ lim) : r.Spans l lim rs pos' := by
  unfold parseValue at h
  dsimp only at h
  split at h <;> cases h
  have hrecOff : (BitVec.ofNat 16 rs).toNat = rs := toNat_ofNat_half (by omega)
  have hvalueOff : (BitVec.ofNat 16 pos).toNat = pos := toNat_ofNat_half (by omega)
  have hvalueLen : (BitVec.ofNat 16 field.2.1).toNat = field.2.1 := toNat_ofNat_half (by omega)
  exact
    { recOff_eq := hrecOff
      dif_eq := rfl
      lt_valueOff := by rw [hvalueOff]; omega
      valueEnd_eq := by rw [Record.valueEnd, hvalueOff, hvalueLen]
      pos_le := by omega
      two_le := .inl (by omega) }

theorem parseUnpack_spans {l : Latch} {lim rs pos pos' : Nat} {vif : Byte} {entry : VifEntry}
    {dife vife : List Byte} {r : Record} (hlim : lim < 65536)
    (h : parseUnpack l lim rs (l.byte rs) vif entry dife vife pos = .complete r pos')
    (hrs : rs + 2 ≤ pos) (hpos : pos ≤ lim) : r.Spans l lim rs pos' := by
  unfold parseUnpack at h
  dsimp only at h
  split at h
  · split at h
    · cases h
    split at h
    · exact parseValue_spans hlim h (by omega) (by omega)
    split at h
    · exact parseValue_spans hlim h (by omega) (by omega)
    · cases h
  · exact parseValue_spans hlim h hrs hpos

/-- A chain moves the cursor forward only (R241, R246). -/
theorem le_of_parseChain_done {l : Latch} {lim fuel pos pos' : Nat} {bytes bytes' : List Byte} {last : Byte}
    (h : parseChain l lim fuel bytes pos last = .done bytes' pos') : pos ≤ pos' := by
  induction fuel generalizing bytes pos last with
  | zero =>
    unfold parseChain at h
    split at h <;> cases h
    exact le_rfl
  | succ fuel ih =>
    unfold parseChain at h
    split at h
    · dsimp only at h
      split at h
      · cases h
      · exact (Nat.le_succ pos).trans (ih h)
    · cases h
      exact le_rfl

/-- A complete record has a DIF and a VIF at least, and its value ends within the payload (R222). -/
theorem parseRecord_spans {p : Params} {l : Latch} {lim rs pos : Nat} {r : Record} (hlim : lim < 65536)
    (h : parseRecord p l lim rs = .complete r pos) : r.Spans l lim rs pos := by
  rw [parseRecord_eq] at h
  obtain ⟨dife, pos₁, hdife, hvif⟩ := ChainResult.toRecord_eq_complete h
  have hpos₁ := le_of_parseChain_done hdife
  unfold parseFromVif at hvif
  split at hvif
  · cases hvif
  split at hvif
  · cases hvif
  obtain ⟨vife, pos₂, hvife, hunpack⟩ := ChainResult.toRecord_eq_complete hvif
  have hpos₂ := le_of_parseChain_done hvife
  exact parseUnpack_spans hlim hunpack (by omega) (parseChain_done_le hvife (by omega))

/-! ### Records that tile the payload (R212, R216) -/

/-- Nothing but fillers from `a` up to `b`. -/
def Latch.Fillers (l : Latch) (a b : Nat) : Prop := a ≤ b ∧ ∀ k, a ≤ k → k < b → l.byte k = 0x2F#8

theorem Latch.Fillers.refl (l : Latch) (a : Nat) : l.Fillers a a := ⟨le_rfl, fun _ _ _ => by omega⟩

theorem Latch.Fillers.succ {l : Latch} {a b : Nat} (h : l.Fillers a b) (hb : l.byte b = 0x2F#8) :
    l.Fillers a (b + 1) := by
  obtain ⟨hle, hbyte⟩ := h
  refine ⟨by omega, fun k hak hkb => ?_⟩
  obtain hlt | rfl := Nat.lt_succ_iff_lt_or_eq.1 hkb
  · exact hbyte k hak hlt
  · exact hb

/-- Where the walk starts, and then where each record ends. -/
def recordEnds (start : Nat) (recs : List Record) : List Nat := start :: recs.map Record.valueEnd

theorem recordEnds_append_left {start i : Nat} {recs : List Record} (r : Record) (h : i ≤ recs.length) :
    (recordEnds start (recs ++ [r])).getD i 0 = (recordEnds start recs).getD i 0 := by
  have hends : recordEnds start (recs ++ [r]) = recordEnds start recs ++ [r.valueEnd] := by simp [recordEnds]
  rw [hends, List.getD_append _ _ _ _ (by simpa [recordEnds] using Nat.lt_succ_of_le h)]

theorem recordEnds_append_last (start : Nat) (recs : List Record) (r : Record) :
    (recordEnds start (recs ++ [r])).getD (recs ++ [r]).length 0 = r.valueEnd := by
  simp [recordEnds, List.getD]

/-- The records lie in order between `start` and the loop head at `pos`, nothing but fillers beside them; while
payload is left each of them has taken two bytes. -/
structure Tiled (l : Latch) (lim start pos : Nat) (recs : List Record) : Prop where
  within : ∀ r ∈ recs, start ≤ r.recOff.toNat ∧ r.recOff.toNat < r.valueOff.toNat ∧ r.valueEnd ≤ lim ∧
    r.dif = l.byte r.recOff.toNat
  between : ∀ i (h : i < recs.length), l.Fillers ((recordEnds start recs).getD i 0) recs[i].recOff.toNat
  after : l.Fillers ((recordEnds start recs).getD recs.length 0) pos
  two_each : pos < lim → start + 2 * recs.length ≤ pos

namespace Tiled

variable {l : Latch} {lim start pos : Nat} {recs : List Record}

theorem nil (l : Latch) (lim start : Nat) : Tiled l lim start start [] :=
  ⟨nofun, nofun, .refl l start, fun _ => le_rfl⟩

theorem filler (h : Tiled l lim start pos recs) (hpos : pos < lim) (hb : l.byte pos = 0x2F#8) :
    Tiled l lim start (pos + 1) recs :=
  { h with
    after := h.after.succ hb
    two_each := fun _ => (h.two_each hpos).trans (Nat.le_succ pos) }

theorem append {r : Record} {pos' : Nat} (h : Tiled l lim start pos recs) (hpos : pos < lim)
    (hr : r.Spans l lim pos pos') : Tiled l lim start pos' (recs ++ [r]) where
  within := by
    intro r' hmem
    rw [List.mem_append, List.mem_singleton] at hmem
    obtain hmem | rfl := hmem
    · exact h.within r' hmem
    · rw [hr.recOff_eq, hr.valueEnd_eq]
      exact ⟨(Nat.le_add_right _ _).trans (h.two_each hpos), hr.lt_valueOff, hr.pos_le, hr.dif_eq⟩
  between := by
    intro i hi
    rw [List.length_append, List.length_singleton] at hi
    rw [recordEnds_append_left r (Nat.lt_succ_iff.1 hi)]
    obtain hlt | rfl := Nat.lt_succ_iff_lt_or_eq.1 hi
    · rw [List.getElem_append_left hlt]
      exact h.between i hlt
    · rw [List.getElem_concat_length rfl, hr.recOff_eq]
      exact h.after
  after := by
    rw [recordEnds_append_last, hr.valueEnd_eq]
    exact .refl l pos'
  two_each := by
    intro hpos'
    have htwo := h.two_each hpos
    have hlong := hr.two_le
    rw [List.length_append, List.length_singleton]
    omega

end Tiled

/-! ### The loop of WALK -/

/-- What a stop at the loop head at `pos` with the given records needs: OK is at the exact end or at a terminator
that is the last byte, RecordLimit at a record that finds the record memory full (R211, R214, R217). -/
structure StopsAt (p : Params) (l : Latch) (lim pos : Nat) (recs : List Record) (code : Code) : Prop where
  ok : code = .ok → pos = lim ∨ (l.byte pos = 0x0F#8 ∧ pos + 1 = lim ∧ l.cfg.mfrTail = true)
  full : code = .recordLimit → pos < lim ∧ recs.length = p.maxRecords

/-- The result is that of a walk from `start` whose records tile the payload up to where it stopped. -/
def ParseResult.TiledFrom (p : Params) (l : Latch) (lim start : Nat) (r : ParseResult) : Prop :=
  ∃ pos recs code off res, Tiled l lim start pos recs ∧ StopsAt p l lim pos recs code ∧
    r = parseStop code off res recs

namespace Tiled

variable {p : Params} {l : Latch} {lim start pos off : Nat} {recs : List Record} {res : Results}

theorem stop_ok (h : Tiled l lim start pos recs)
    (hend : pos = lim ∨ (l.byte pos = 0x0F#8 ∧ pos + 1 = lim ∧ l.cfg.mfrTail = true)) :
    (parseStop .ok off res recs).TiledFrom p l lim start :=
  ⟨pos, recs, .ok, off, res, h, ⟨fun _ => hend, nofun⟩, rfl⟩

theorem stop_full (h : Tiled l lim start pos recs) (hpos : pos < lim) (hfull : recs.length = p.maxRecords) :
    (parseStop .recordLimit off res recs).TiledFrom p l lim start :=
  ⟨pos, recs, .recordLimit, off, res, h, ⟨nofun, fun _ => ⟨hpos, hfull⟩⟩, rfl⟩

theorem stop_early {code : Code} (h : Tiled l lim start pos recs) (hok : code ≠ .ok)
    (hfull : code ≠ .recordLimit) : (parseStop code off res recs).TiledFrom p l lim start :=
  ⟨pos, recs, code, off, res, h, ⟨fun heq => absurd heq hok, fun heq => absurd heq hfull⟩, rfl⟩

/-- A stop inside an ordinary record is neither OK nor RecordLimit (R218, R219, R220). -/
theorem stop_record {code : Code} (h : Tiled l lim start pos recs) (hcode : code.EndsRecord) :
    (parseStop code off res recs).TiledFrom p l lim start := by
  rcases hcode with rfl | rfl | rfl <;> exact h.stop_early nofun nofun

end Tiled

/-- From a loop head up to which the records tile the payload, the loop of WALK keeps them tiling it. -/
theorem parseWalk_tiledFrom {p : Params} {l : Latch} {lim start : Nat} (hlim : lim < 65536) (res : Results)
    (fuel : Nat) {pos : Nat} {recs : List Record} (h : Tiled l lim start pos recs) (hpos : pos ≤ lim)
    (hfuel : lim - pos < fuel) : (parseWalk p l lim res fuel pos recs).TiledFrom p l lim start := by
  induction fuel generalizing pos recs with
  | zero => exact absurd hfuel (Nat.not_lt_zero _)
  | succ fuel ih =>
    unfold parseWalk
    dsimp only
    by_cases hend : pos = lim
    · rw [if_pos hend]
      exact h.stop_ok (.inl hend)
    have hlt : pos < lim := by omega
    rw [if_neg hend]
    split
    · exact ih (h.filler hlt ‹_›) hlt (by omega)
    split
    · rename_i htail
      split
      · exact h.stop_early nofun nofun
      · exact h.stop_ok (.inr ⟨htail.1, by omega, htail.2⟩)
    split
    · split
      · exact h.stop_full hlt ‹_›
      · exact (h.append hlt (parseMfr_spans hlim hlt)).stop_ok (.inl rfl)
    split
    · exact h.stop_early nofun nofun
    split
    · rename_i hrec
      exact h.stop_record (parseRecord_stop hrec)
    · rename_i hrec
      have hr := parseRecord_spans hlim hrec
      split
      · exact h.stop_full hlt ‹_›
      · exact ih (h.append hlt hr) hr.pos_le (by have := hr.lt_pos; omega)

/-! ### The whole of PARSE -/

/-- The walk of a frame of the long format tiles its payload, or has stopped at the header skip (R210). -/
theorem parsePayload_tiledFrom (p : Params) {l : Latch} (hmin : 3 ≤ (l.byte 1).toNat) :
    (parsePayload p l).TiledFrom p l ((l.byte 1).toNat + 4) (7 + l.hdr (l.byte 6)) := by
  have hL := (l.byte 1).isLt
  unfold parsePayload
  dsimp only
  split
  · exact (Tiled.nil l _ _).stop_early nofun nofun
  · exact parseWalk_tiledFrom (by omega) _ _ (.nil l _ _) (by omega) (by omega)

/-- PARSE ends before any walk: with a frame-level failure, or with an Ack or a ShortFrame that is valid. -/
def ParseResult.WithoutWalk (l : Latch) (r : ParseResult) : Prop :=
  ∃ code off res, r = parseStop code off res [] ∧
    (code.frameLevel = true ∨ (code = .ok ∧ l.byte 0 ≠ 0x68#8))

theorem parseStop_withoutWalk (l : Latch) {code : Code} (h : code.frameLevel = true) (off : Nat)
    (res : Results) : (parseStop code off res []).WithoutWalk l :=
  ⟨code, off, res, rfl, .inl h⟩

theorem parseShort_withoutWalk {l : Latch} (h : l.byte 0 ≠ 0x68#8) : (parseShort l).WithoutWalk l := by
  unfold parseShort
  dsimp only
  split
  · exact parseStop_withoutWalk l rfl _ _
  split
  · exact parseStop_withoutWalk l rfl _ _
  split
  · exact parseStop_withoutWalk l rfl _ _
  · exact ⟨_, _, _, rfl, .inr ⟨rfl, h⟩⟩

theorem parseLong_cases (p : Params) (l : Latch) : (parseLong p l).WithoutWalk l ∨
    (parseLong p l).TiledFrom p l ((l.byte 1).toNat + 4) (7 + l.hdr (l.byte 6)) := by
  unfold parseLong
  dsimp only
  split
  · exact .inl (parseStop_withoutWalk l rfl _ _)
  split
  · exact .inl (parseStop_withoutWalk l rfl _ _)
  split
  · exact .inl (parseStop_withoutWalk l rfl _ _)
  split
  · exact .inl (parseStop_withoutWalk l rfl _ _)
  split
  · exact .inl (parseStop_withoutWalk l rfl _ _)
  split
  · exact .inl (parseStop_withoutWalk l rfl _ _)
  split
  · exact .inl (parseStop_withoutWalk l rfl _ _)
  · exact .inr (parsePayload_tiledFrom p (by omega))

/-- A parse either ends before any walk or is a walk over the payload of its frame (R151, R180). -/
theorem parse_cases (p : Params) (l : Latch) : (parse p l).WithoutWalk l ∨
    (parse p l).TiledFrom p l ((l.byte 1).toNat + 4) (7 + l.hdr (l.byte 6)) := by
  by_cases hlen : p.maxLen < l.len.toNat
  · rw [parse_of_overlong hlen]
    exact .inl (parseStop_withoutWalk l rfl _ _)
  rw [parse_of_le (Nat.not_lt.1 hlen)]
  split
  · exact .inl (parseStop_withoutWalk l rfl _ _)
  split
  · rename_i hE5
    exact .inl ⟨_, _, _, rfl, .inr ⟨rfl, by rw [hE5]; decide⟩⟩
  split
  · rename_i h10
    exact .inl (parseShort_withoutWalk (by rw [h10]; decide))
  split
  · split
    · exact .inl (parseStop_withoutWalk l rfl _ _)
    · exact parseLong_cases p l
  · exact .inl (parseStop_withoutWalk l rfl _ _)

/-! ### The statements about whole walks -/

/-- STATUS.CODE after a stop is the code's number (R151). -/
theorem parseStop_code (code : Code) (off : Nat) (res : Results) (recs : List Record) :
    (parseStop code off res recs).res.code = code.num := by
  simp only [parseStop, stopResults]
  split <;> rfl

/-- Settles O52: each record before the one that finds the memory full has taken two of the at most 252 bytes of
the payload. -/
theorem recordLimitNeedsASmallRecordMemory : Obligations.RecordLimitNeedsASmallRecordMemory := by
  intro p l hmax hcode
  obtain ⟨code, off, res, heq, hkind⟩ | ⟨pos, recs, code, off, res, htiled, hstop, heq⟩ := parse_cases p l <;>
    rw [heq, parseStop_code] at hcode <;> obtain rfl := Code.num_injective hcode
  · obtain hframe | ⟨hok, -⟩ := hkind
    · cases hframe
    · cases hok
  · obtain ⟨hpos, hfull⟩ := hstop.full rfl
    have htwo := htiled.two_each hpos
    have hL := (l.byte 1).isLt
    omega

/-- The records a stop leaves: those emitted, or none (R219, R304). -/
theorem parseStop_recs (code : Code) (off : Nat) (res : Results) (recs : List Record) :
    (parseStop code off res recs).recs = if code.keepsRecords then recs else [] := rfl

/-- The records that a parse leaves tile the payload up to some loop head, which is its end or a terminator in its
last byte when a frame of the long format is OK. -/
theorem parse_tiled (p : Params) (l : Latch) :
    let lim := (l.byte 1).toNat + 4
    ∃ pos, Tiled l lim (7 + l.hdr (l.byte 6)) pos (parse p l).recs ∧
      (l.byte 0 = 0x68#8 → (parse p l).res.code = Code.ok.num →
        pos = lim ∨ (l.byte pos = 0x0F#8 ∧ pos + 1 = lim ∧ l.cfg.mfrTail = true)) := by
  obtain ⟨code, off, res, heq, hkind⟩ | ⟨pos, recs, code, off, res, htiled, hstop, heq⟩ := parse_cases p l <;>
    rw [heq, parseStop_code, parseStop_recs]
  · refine ⟨_, by rw [ite_self]; exact .nil l _ _, fun h68 hok => ?_⟩
    obtain rfl := Code.num_injective hok
    obtain hframe | ⟨-, hstart⟩ := hkind
    · cases hframe
    · exact absurd h68 hstart
  · cases hkeeps : code.keepsRecords
    · refine ⟨_, .nil l _ _, fun _ hok => ?_⟩
      obtain rfl := Code.num_injective hok
      cases hkeeps
    · exact ⟨pos, htiled, fun _ hok => hstop.ok (Code.num_injective hok)⟩

/-- Settles O51: behind the last record the fillers run up to the loop head at which the walk stopped. -/
theorem recordsTileThePayloadInOrder : Obligations.RecordsTileThePayloadInOrder := by
  intro p l
  obtain ⟨pos, htiled, hend⟩ := parse_tiled p l
  refine ⟨fun r hr => ?_, htiled.between, fun h68 hok => ?_⟩
  · obtain ⟨hstart, hoff, hvalue, hdif⟩ := htiled.within r hr
    exact ⟨(Nat.le_add_right 7 _).trans hstart, hoff, hvalue, hdif⟩
  · obtain ⟨hle, hfill⟩ := htiled.after
    obtain rfl | ⟨h0F, hlast, htail⟩ := hend h68 hok
    · exact ⟨hle, fun k hk hlt => .inl (hfill k hk hlt)⟩
    · refine ⟨hle.trans (by omega), fun k hk hlt => ?_⟩
      obtain hkpos | rfl := Nat.lt_succ_iff_lt_or_eq.1 (hlt.trans_eq hlast.symm)
      · exact .inl (hfill k hk hkpos)
      · exact .inr ⟨h0F, hlast, htail⟩

end Sys2Proof.Machine
end

