-- ==== Sys2Proof/Proofs/WalkSteps.lean ====
section
/-! PROOFS. The walk's single turns and meanings: the end of the payload, an ordinary DIF, missing bytes, the special
DIFs, the extension bytes, and a data field that finds too few bytes or a full record memory (R211 to R220, R240,
R241, R246). -/

namespace Sys2Proof.Machine

/-! ### Bytes as numbers (R104 to R108) -/

theorem dataField_toNat (b : Byte) : (dataField b).toNat = b.toNat % 16 := by
  rw [dataField, toNat_extractLsb'_div]
  omega

theorem dataField_eq_F_iff (b : Byte) : dataField b = 0xF#4 ↔ b.toNat % 16 = 15 := by
  rw [← BitVec.toNat_inj, dataField_toNat]
  rfl

/-- Bit 7 of a byte is its upper half (R104). -/
theorem getLsbD_seven (b : Byte) : b.getLsbD 7 = decide (0x80 ≤ b.toNat) :=
  BitVec.msb_eq_decide b

theorem difeByte_eq_ofNat (m u : Bool) (t : BitVec 2) (sn : BitVec 4) :
    difeByte m u t sn = BitVec.ofNat 8 (128 * m.toNat + 64 * u.toNat + 16 * t.toNat + sn.toNat) := by
  refine BitVec.eq_of_toNat_eq ?_
  simp only [difeByte, toNat_append_add, BitVec.toNat_ofBool, BitVec.toNat_ofNat]
  have := m.toNat_le
  have := u.toNat_le
  omega

theorem chainByte_eq_ofNat (m : Bool) (rest : BitVec 7) :
    chainByte m rest = BitVec.ofNat 8 (128 * m.toNat + rest.toNat) := by
  refine BitVec.eq_of_toNat_eq ?_
  simp only [chainByte, toNat_append_add, BitVec.toNat_ofBool, BitVec.toNat_ofNat]
  have := m.toNat_le
  omega

theorem lvarBcd_eq_ofNat (n : BitVec 4) : 0xC#4 ++ n = BitVec.ofNat 8 (0xC0 + n.toNat) := by
  refine BitVec.eq_of_toNat_eq ?_
  simp only [toNat_append_add, BitVec.toNat_ofNat]
  omega

/-- ERR_OFFSET has 16 bits, so an offset may be cut to them before (R41). -/
theorem Engine.stoppedKeeping_toNat_ofNat (e : Engine) (code : Code) (off : Nat) :
    e.stoppedKeeping code (BitVec.ofNat 16 off).toNat = e.stoppedKeeping code off := by
  simp only [Engine.stoppedKeeping, BitVec.ofNat_toNat, BitVec.setWidth_eq]

/-! ### The tests of the header chains, in the spec's words (R241, R246) -/

theorem Engine.afterDif_eq_ite (e : Engine) (more : Bool) :
    e.afterDif more =
      if more = false then { e with phase := .vif }
      else if e.dife.length = Config.chainMax then e.stoppedMalformed (e.pos - 1)
      else { e with phase := .dife } := by
  cases more <;> rfl

theorem Engine.afterVif_eq_ite (e : Engine) (more : Bool) :
    e.afterVif more =
      if more = false then { e with phase := .value }
      else if e.vife.length = Config.chainMax then e.stoppedMalformed (e.pos - 1)
      else { e with phase := .vife } := by
  cases more <;> rfl

/-- A record starts with empty chains, so its DIF alone says which byte is due (R240, R241). -/
theorem Engine.beginRecord_eq (e : Engine) (dif : Byte) :
    e.beginRecord dif = { e with
      dif := dif, dife := [], vife := [], vif := 0, lvar := 0
      phase := if 0x80 ≤ dif.toNat then .dife else .vif } := by
  rw [Engine.beginRecord, getLsbD_seven]
  by_cases hmore : 0x80 ≤ dif.toNat
  · rw [decide_eq_true hmore, if_pos hmore]
    exact Engine.afterDif_more (Nat.zero_ne_add_one 9)
  · rw [decide_eq_false hmore, if_neg hmore]
    exact Engine.afterDif_last _

/-! ### Turns without a dispatch code -/

theorem State.engineTurn_of_payloadEnd {s : State} (hbusy : s.busy = true) (hph : s.eng.phase = .loopHead)
    (hend : s.eng.pos = s.eng.lim) : s.engineTurn = .next { s with eng := s.eng.stoppedKeeping .ok 0 } := by
  refine State.engineTurn_of_ended hbusy (by rw [hph]; nofun) ?_
  rw [State.fetch_loopHead hph, if_pos hend, ← Engine.stop_of_keeps rfl]
  rfl

/-- The decoder names no code at an ordinary DIF, and the engine begins its record (R222, R240). -/
theorem State.engineTurn_of_ordinaryDif {s : State} (hbusy : s.busy = true) (hph : s.eng.phase = .loopHead)
    (hlt : s.eng.pos < s.eng.lim) (hF : dataField (s.eng.latch.byte s.eng.pos) ≠ 0xF#4) :
    s.engineTurn = .next { s with
      eng := { s.eng with rs := s.eng.pos, pos := s.eng.pos + 1 }.beginRecord (s.eng.latch.byte s.eng.pos) } :=
  State.engineTurn_of_noCode hbusy (by rw [hph]; nofun) (State.fetch_dif hph hlt) (decode_difHead_ordinary _ hF)

theorem State.engineTurn_of_missingByte {s : State} {c : Context} (hbusy : s.busy = true)
    (hc : s.eng.phase.byteContext? s.params = some c) (hend : s.eng.lim ≤ s.eng.pos) :
    s.engineTurn = .next { s with eng := s.eng.stoppedKeeping .truncatedRecord s.eng.rs } := by
  refine State.engineTurn_of_ended hbusy (fun hstop => by rw [hstop] at hc; cases hc) ?_
  rw [State.fetch_byte hc]
  obtain ⟨hlt, -⟩ | ⟨-, heq⟩ := s.fetchByte_cases c
  · exact absurd hend (Nat.not_le.2 hlt)
  · exact heq

/-- Settles O16. -/
theorem payloadEndIsOk : Obligations.PayloadEndIsOk := by
  intro s ts hbusy hnext hph hend
  rw [step_of_engineNext hnext]
  exact State.engineTurn_of_payloadEnd (s := { s with turns := ts }) hbusy hph hend

/-- Settles O17. -/
theorem ordinaryDifStartsItsRecord : Obligations.OrdinaryDifStartsItsRecord := by
  rintro s ts _ hbusy hnext hph hlt rfl hordinary
  rw [step_of_engineNext hnext,
    State.engineTurn_of_ordinaryDif (s := { s with turns := ts }) hbusy hph hlt
      fun hF => hordinary ((dataField_eq_F_iff _).1 hF),
    Engine.beginRecord_eq]

/-- Settles O18: each of the four stages takes its byte in the same way. -/
theorem missingHeaderByteIsTruncatedRecord : Obligations.MissingHeaderByteIsTruncatedRecord := by
  intro s ts hbusy hnext hph hend
  obtain ⟨c, hc⟩ : ∃ c, s.eng.phase.byteContext? s.params = some c := by
    simp only [List.mem_cons, List.not_mem_nil, or_false] at hph
    rcases hph with hph | hph | hph | hph <;> exact ⟨_, by rw [hph]; rfl⟩
  rw [step_of_engineNext hnext]
  exact State.engineTurn_of_missingByte (s := { s with turns := ts }) hbusy hc hend

/-! ### The special DIFs -/

/-- Settles O33: decoder and meaning are these by definition. -/
theorem fillerIsSkipped : Obligations.FillerIsSkipped :=
  ⟨fun _ _ => rfl, fun _ => rfl⟩

/-- Settles O34: the block emits its record and ends, or finds the record memory full. -/
theorem manufacturerBlockIsOneOpaqueRecord : Obligations.ManufacturerBlockIsOneOpaqueRecord := by
  refine ⟨fun _ _ => rfl, fun _ => rfl, fun s i dif hcode => ?_⟩
  have hexec : exec i s = .next { s with eng := s.eng.mfrBlock s.params dif } := by
    obtain ⟨rfl, rfl⟩ | ⟨rfl, rfl⟩ := hcode <;> rfl
  rw [hexec, Engine.mfrBlock]
  refine ⟨fun hroom => ?_, fun hfull => ?_⟩
  · rw [Engine.emit_of_room hroom, Engine.stop_of_keeps rfl]
    simp only [Engine.stoppedKeeping, List.length_append, List.length_singleton]
    rfl
  · rw [Engine.emit_of_full hfull]
    exact congrArg (fun e => Host.Outcome.next { s with eng := e }) (s.eng.stoppedKeeping_toNat_ofNat _ _)

/-- Settles O35. -/
theorem endOfUserDataTerminates : Obligations.EndOfUserDataTerminates := by
  refine ⟨fun _ => rfl, fun _ => rfl, fun s => ?_⟩
  rw [← Engine.stop_of_keeps rfl, ← Engine.stop_of_keeps rfl]
  rfl

/-! ### Unsupported codes (R215, R245, R269) -/

/-- A byte is a row's fixed top bits and its operand when its number is (R108). -/
theorem eq_append_of_toNat {m n : Nat} (high : BitVec m) (low : BitVec n) {b : BitVec (m + n)}
    (h : b.toNat = high.toNat * 2 ^ n + low.toNat) : b = high ++ low :=
  BitVec.eq_of_toNat_eq (h.trans (toNat_append_add high low).symm)

theorem isUnsupportedCode_decodeLvar {b : Byte} (h : 0xD0 ≤ b.toNat) : IsUnsupportedCode (decodeLvar b) b := by
  have henc := encode_decodeLvar b
  have hwf := decodeLvar_wellFormed b
  cases hi : decodeLvar b <;> rw [hi] at henc hwf
  case lvarUnsupportedD n =>
    obtain rfl := List.singleton_inj.1 henc
    exact .inl ⟨n, rfl, toNat_append_add 0xD#4 n⟩
  case lvarUnsupportedE n =>
    obtain rfl := List.singleton_inj.1 henc
    exact .inr ⟨n, rfl, toNat_append_add 0b111#3 n⟩
  case lvarTextLow n | lvarTextHigh n | lvarBcd n =>
    obtain rfl := List.singleton_inj.1 henc
    simp only [toNat_append_add, BitVec.toNat_ofNat] at h
    omega
  all_goals nomatch hwf

theorem exec_of_isUnsupportedCode {i : Instr} {b : Byte} (h : IsUnsupportedCode i b) (s : State) :
    exec i s = .next (s.lvarUnsupported b) := by
  obtain ⟨n, rfl, hb⟩ | ⟨n, rfl, hb⟩ := h
  · rw [eq_append_of_toNat 0xD#4 n hb, exec, execLvarUnsupportedD]
  · rw [eq_append_of_toNat 0b111#3 n hb, exec, execLvarUnsupportedE]

/-- Settles O36. -/
theorem unsupportedCodesKeepEarlierRecords : Obligations.UnsupportedCodesKeepEarlierRecords := by
  refine ⟨fun b tail rest hF hb => ?_, fun b rest hb => ⟨_, rfl, isUnsupportedCode_decodeLvar hb⟩,
    fun d s => ?_, fun m code s => ?_, fun i b s hcode => ?_⟩
  · simp only [List.mem_cons, List.not_mem_nil, or_false, not_or] at hb
    obtain ⟨h0F, h1F, h2F⟩ := hb
    rw [decode, decodeDifHead, if_neg h2F, if_neg h1F, if_neg h0F, if_pos ((dataField_eq_F_iff b).2 hF)]
    rfl
  · rw [← Engine.stop_of_keeps rfl]
    rfl
  · rw [← chainByte_eq_ofNat, ← Engine.stop_of_keeps rfl]
    rfl
  · rw [exec_of_isUnsupportedCode hcode, ← Engine.stop_of_keeps rfl]
    rfl

/-! ### Extension bytes (R241, R246, R249) -/

theorem length_append_singleton_eq_chainMax (bytes : List Byte) (b : Byte) :
    (bytes ++ [b]).length = Config.chainMax ↔ bytes.length = 9 := by
  rw [List.length_append, List.length_singleton]
  exact Nat.succ_inj

/-- Settles O37: each meaning appends its byte, and the test of its chain follows. -/
theorem extensionBytesExtendTheirChain : Obligations.ExtensionBytesExtendTheirChain := by
  refine ⟨fun m u t sn s _ => ?_, fun m raw s _ => ?_⟩
  · dsimp only
    rw [← difeByte_eq_ofNat, exec, execDife, State.onEngine, Engine.afterDif_eq_ite]
    simp only [length_append_singleton_eq_chainMax]
  · dsimp only
    rw [← chainByte_eq_ofNat, exec, execVife, State.onEngine, Engine.afterVif_eq_ite]
    simp only [length_append_singleton_eq_chainMax]

/-! ### Values that are missing, or find no room (R217, R218, R260) -/

/-- A field of fixed width is UNPACK's common part for its kind, width and decoding (R109, R260). -/
theorem exec_of_mem_fixedFields {d : DifBits} {f : Instr × BitVec 4 × Nat} (h : f ∈ fixedFields d) (s : State) :
    ∃ kind dec, exec f.1 s = .next (s.unpackField d f.2.1 kind f.2.2 dec) := by
  simp only [fixedFields, integerFields, bcdFields, rawFields, List.map_cons, List.map_nil, List.cons_append,
    List.nil_append, List.mem_cons, List.not_mem_nil, or_false] at h
  rcases h with rfl | rfl | rfl | rfl | rfl | rfl | rfl | rfl | rfl | rfl | rfl | rfl | rfl | rfl | rfl | rfl <;>
    exact ⟨_, _, rfl⟩

theorem exec_of_isTextCode {i : Instr} {b : Byte} (h : IsTextCode i b) (s : State) :
    exec i s = .next (s.unpackText b) := by
  obtain ⟨n, rfl, hb⟩ | ⟨n, rfl, hb⟩ := h
  · rw [eq_append_of_toNat (b := b) 0b0#1 n (by simpa using hb), exec, execLvarTextLow]
  · rw [eq_append_of_toNat 0b10#2 n hb, exec, execLvarTextHigh]

/-- Settles O44: `Engine.unpack_of_short`, at the registers with DIF and LVAR byte latched. -/
theorem missingValueBytesAreTruncatedRecord : Obligations.MissingValueBytesAreTruncatedRecord := by
  refine ⟨fun d s f hf hshort => ?_, fun i b s hcode hshort => ?_, fun n s hshort => ?_⟩
  · obtain ⟨kind, dec, hexec⟩ := exec_of_mem_fixedFields hf s
    rw [hexec, State.unpackField, State.onEngine, Engine.unpack_of_short (by exact hshort)]
    rfl
  · rw [exec_of_isTextCode hcode, State.unpackText, State.onEngine, Engine.unpack_of_short (by exact hshort)]
    rfl
  · rw [exec, execLvarBcd, State.unpackLvarBcd, State.onEngine, Engine.unpack_of_short (by exact hshort),
      ← lvarBcd_eq_ofNat]
    rfl

/-- Settles O45: `Engine.unpack_of_full`, at the registers with DIF and LVAR byte latched. -/
theorem fullRecordMemoryIsRecordLimit : Obligations.FullRecordMemoryIsRecordLimit := by
  refine ⟨fun d s f hf hbytes hfull => ?_, fun i b s hcode hbytes hfull => ?_, fun n s hbytes hfull => ?_⟩
  · obtain ⟨kind, dec, hexec⟩ := exec_of_mem_fixedFields hf s
    rw [hexec, State.unpackField, State.onEngine, Engine.unpack_of_full (by exact hbytes) (by exact hfull),
      Engine.stoppedKeeping_toNat_ofNat]
    rfl
  · rw [exec_of_isTextCode hcode, State.unpackText, State.onEngine,
      Engine.unpack_of_full (by exact hbytes) (by exact hfull), Engine.stoppedKeeping_toNat_ofNat]
    rfl
  · rw [exec, execLvarBcd, State.unpackLvarBcd, State.onEngine,
      Engine.unpack_of_full (by exact hbytes) (by exact hfull), Engine.stoppedKeeping_toNat_ofNat,
      ← lvarBcd_eq_ofNat]
    rfl

end Sys2Proof.Machine
end

