-- ==== Sys2Proof/Proofs/RecordHeader.lean ====
section
/-! PROOFS. The record header: where a chain of extension bytes is over-long, the numbers its DIFE bytes make up, the
VIF's latch, and the default VIF_TABLE (R241 to R248). -/

namespace Sys2Proof.Machine

/-! ### Over-long chains (R241, R246, R305) -/

theorem parseChain_of_last {l : Latch} {lim fuel pos : Nat} {bytes : List Byte} {last : Byte}
    (h : ¬ 0x80 ≤ last.toNat) : parseChain l lim fuel bytes pos last = .done bytes pos := by
  unfold parseChain
  rw [getLsbD_seven, decide_eq_false h]
  rfl

theorem parseChain_zero_of_more {l : Latch} {lim pos : Nat} {bytes : List Byte} {last : Byte}
    (h : 0x80 ≤ last.toNat) : parseChain l lim 0 bytes pos last = .overlong (pos - 1) := by
  unfold parseChain
  rw [getLsbD_seven, decide_eq_true h]
  rfl

theorem parseChain_succ_of_more {l : Latch} {lim fuel pos : Nat} {bytes : List Byte} {last : Byte}
    (h : 0x80 ≤ last.toNat) : parseChain l lim (fuel + 1) bytes pos last =
      if lim ≤ pos then .truncated
      else parseChain l lim fuel (bytes ++ [l.byte pos]) (pos + 1) (l.byte pos) := by
  rw [parseChain, getLsbD_seven, decide_eq_true h]
  rfl

/-- With `fuel` more bytes allowed, a chain is over-long when the byte before the cursor and `fuel` bytes from it on
have bit 7 set: each of those bytes is taken and is the next one's byte before. -/
theorem parseChain_eq_overlong_iff {l : Latch} {lim fuel pos off : Nat} {bytes : List Byte} {last : Byte} :
    parseChain l lim fuel bytes pos last = .overlong off ↔
      0x80 ≤ last.toNat ∧ (∀ j, j < fuel → pos + j < lim ∧ 0x80 ≤ (l.byte (pos + j)).toNat) ∧
        off = pos + fuel - 1 := by
  by_cases hmore : 0x80 ≤ last.toNat
  case neg => simp [parseChain_of_last hmore, hmore]
  induction fuel generalizing bytes pos last with
  | zero => simp [parseChain_zero_of_more hmore, hmore, eq_comm]
  | succ fuel ih =>
    rw [parseChain_succ_of_more hmore, Nat.forall_lt_succ_left]
    by_cases hlim : lim ≤ pos
    · simp [hlim]
    rw [if_neg hlim]
    by_cases hnext : 0x80 ≤ (l.byte pos).toNat
    · rw [ih hnext]
      simp [hmore, hnext, Nat.lt_of_not_le hlim, Nat.add_assoc, Nat.add_comm 1]
    · simp [parseChain_of_last hnext, hnext]

/-- Settles O39: `parseChain_eq_overlong_iff` at CHAIN_MAX. -/
theorem overlongChainIsTheTenthByte : Obligations.OverlongChainIsTheTenthByte :=
  fun _ _ _ _ _ => parseChain_eq_overlong_iff

/-! ### The numbers in a DIFE chain (R242, R243, R244) -/

/-- A number with one digit in each byte, lowest first, as a sum over the bytes. -/
theorem ofDigits_map_eq_sum (base : Nat) (digit : Byte → Nat) (bs : List Byte) :
    Nat.ofDigits base (bs.map digit) =
      ∑ j ∈ Finset.range bs.length, digit (bs.getD j 0) * base ^ j := by
  induction bs with
  | nil => rfl
  | cons b bs ih =>
    rw [List.map_cons, Nat.ofDigits_cons, ih, List.length_cons, Finset.sum_range_succ', Finset.mul_sum, add_comm]
    simp only [List.getD_cons_succ, List.getD_cons_zero, pow_succ, pow_zero, mul_one]
    congr 1
    exact Finset.sum_congr rfl fun _ _ => by ring

/-- Ten digits are enough for a chain of at most ten bytes. -/
theorem ofDigits_map_lt {base : Nat} {digit : Byte → Nat} {bs : List Byte} (hbase : 1 < base)
    (hdigit : ∀ b, digit b < base) (hlen : bs.length ≤ 10) : Nat.ofDigits base (bs.map digit) < base ^ 10 := by
  have hlt : Nat.ofDigits base (bs.map digit) < base ^ (bs.map digit).length :=
    Nat.ofDigits_lt_base_pow_length hbase (by simpa using fun b _ => hdigit b)
  rw [List.length_map] at hlt
  exact hlt.trans_le (Nat.pow_le_pow_right hbase.le hlen)

/-- A function that reads one digit after another from a byte list makes up the number of those digits. -/
theorem eq_ofDigits_map {value : List Byte → Nat} {base : Nat} {digit : Byte → Nat} (hnil : value [] = 0)
    (hcons : ∀ b bs, value (b :: bs) = digit b + base * value bs) (bs : List Byte) :
    value bs = Nat.ofDigits base (bs.map digit) := by
  induction bs with
  | nil => exact hnil
  | cons b bs ih => rw [hcons, ih, List.map_cons, Nat.ofDigits_cons]

theorem difeStorage_eq_ofDigits (bs : List Byte) :
    difeStorage bs = Nat.ofDigits 16 (bs.map fun b => b.toNat % 16) :=
  eq_ofDigits_map rfl (fun b _ => by rw [difeStorage, toNat_extractLsb'_div, pow_zero, Nat.div_one]; rfl) bs

theorem difeTariff_eq_ofDigits (bs : List Byte) :
    difeTariff bs = Nat.ofDigits 4 (bs.map fun b => b.toNat / 16 % 4) :=
  eq_ofDigits_map rfl (fun b _ => by rw [difeTariff, toNat_extractLsb'_div]; rfl) bs

theorem difeSubunit_eq_ofDigits (bs : List Byte) :
    difeSubunit bs = Nat.ofDigits 2 (bs.map fun b => b.toNat / 64 % 2) :=
  eq_ofDigits_map rfl (fun b _ => by rw [difeSubunit, toNat_extractLsb'_div]; rfl) bs

/-- No bit of STORAGE is cut off: ten digits of 4 bits above the DIF's bit make 41 bits (R242). -/
theorem storageNumber_toNat (dif : Byte) {dife : List Byte} (h : dife.length ≤ 10) :
    (storageNumber (dif.getLsbD 6) dife).toNat =
      dif.toNat / 64 % 2 + 2 * Nat.ofDigits 16 (dife.map fun b => b.toNat % 16) := by
  have hlt := ofDigits_map_lt (base := 16) (digit := fun b => b.toNat % 16) (by decide)
    (fun _ => Nat.mod_lt _ (by decide)) h
  have hbit : (dif.getLsbD 6).toNat = dif.toNat / 64 % 2 := by
    rw [BitVec.getLsbD, Nat.toNat_testBit]
  rw [storageNumber, BitVec.toNat_ofNat, difeStorage_eq_ofDigits, hbit]
  omega

/-- No bit of TARIFF is cut off (R243). -/
theorem tariffNumber_toNat {dife : List Byte} (h : dife.length ≤ 10) :
    (tariffNumber dife).toNat = Nat.ofDigits 4 (dife.map fun b => b.toNat / 16 % 4) := by
  rw [tariffNumber, BitVec.toNat_ofNat, difeTariff_eq_ofDigits]
  exact Nat.mod_eq_of_lt (ofDigits_map_lt (by decide) (fun _ => Nat.mod_lt _ (by decide)) h)

/-- No bit of SUBUNIT is cut off (R244). -/
theorem subunitNumber_toNat {dife : List Byte} (h : dife.length ≤ 10) :
    (subunitNumber dife).toNat = Nat.ofDigits 2 (dife.map fun b => b.toNat / 64 % 2) := by
  rw [subunitNumber, BitVec.toNat_ofNat, difeSubunit_eq_ofDigits]
  exact Nat.mod_eq_of_lt (ofDigits_map_lt (by decide) (fun _ => Nat.mod_lt _ (by decide)) h)

/-- Settles O46: each number is its digits' number, whose weights are the rules' shifts. -/
theorem difeDescriptorsAreTheirSums : Obligations.DifeDescriptorsAreTheirSums := by
  intro dif dife h
  refine ⟨?_, ?_, ?_⟩
  · rw [storageNumber_toNat dif h, ofDigits_map_eq_sum, Finset.mul_sum]
    congr 1
    exact Finset.sum_congr rfl fun j _ => by rw [pow_succ, pow_mul]; ring
  · rw [tariffNumber_toNat h, ofDigits_map_eq_sum]
    exact Finset.sum_congr rfl fun j _ => by rw [pow_mul]; rfl
  · rw [subunitNumber_toNat h, ofDigits_map_eq_sum]

/-! ### The VIF (R245, R247) -/

/-- Settles O38: the chain is empty, so bit 7 alone says which byte is due. -/
theorem vifIsLatched : Obligations.VifIsLatched := by
  intro m code s
  rw [← chainByte_eq_ofNat, exec, execVif, State.onEngine]
  cases m with
  | false => rw [Engine.afterVif_last]; rfl
  | true => rw [Engine.afterVif_more (by exact Nat.zero_ne_add_one 9)]; rfl

/-! ### The default VIF_TABLE (R248) -/

/-- Entry `k` of a ramp: the unit stays, the exponent has risen by `k`. -/
theorem vifRamp_getElem? {n k : Nat} (h : k < n) (unit : Byte) (exp0 : Int) :
    (vifRamp unit exp0 n)[k]? = some ⟨unit, BitVec.ofInt 8 (exp0 + k), .normal⟩ := by
  induction n generalizing exp0 k with
  | zero => omega
  | succ n ih =>
    cases k with
    | zero => simp [vifRamp]
    | succ k =>
      rw [vifRamp, List.getElem?_cons_succ, ih (by omega), Nat.cast_succ, add_assoc, add_comm 1]

/-- Entry `k` of a row of units: the unit code has risen by `k`, the exponent is 0. -/
theorem vifUnits_getElem? {n k : Nat} (h : k < n) (unit : Byte) :
    (vifUnits unit n)[k]? = some ⟨unit + BitVec.ofNat 8 k, 0x00, .normal⟩ := by
  induction n generalizing unit k with
  | zero => omega
  | succ n ih =>
    cases k with
    | zero => simp [vifUnits]
    | succ k =>
      rw [vifUnits, List.getElem?_cons_succ, ih (by omega), BitVec.ofNat_add, add_assoc, add_comm 1]
      rfl

/-- A table entry is the row of R248 with a unit code, an exponent and a hint. -/
def IsVifRow (entry : VifEntry) (unit : Nat) (exp : Int) (hint : Hint) : Prop :=
  entry.unit = BitVec.ofNat 8 unit ∧ entry.exp = BitVec.ofInt 8 exp ∧ entry.hint = hint

/-- A look-up inside a block of a table is a look-up in the block. -/
theorem vifLookup_of_block {rom block : List VifEntry} {entry : VifEntry} {code : BitVec 7} {lo n : Nat}
    (hblock : (rom.drop lo).take n = block) (hlo : lo ≤ code.toNat) (hhi : code.toNat < lo + n)
    (hentry : block[code.toNat - lo]? = some entry) : vifLookup rom code = entry := by
  rw [← hblock, List.getElem?_take_of_lt (by omega), List.getElem?_drop, Nat.add_sub_cancel' hlo] at hentry
  rw [vifLookup, List.getD_eq_getElem?_getD, hentry, Option.getD_some]

/-- The row of a code inside a block that is a ramp. -/
theorem isVifRow_of_ramp {rom : List VifEntry} {code : BitVec 7} {unit : Nat} {exp exp0 : Int} (lo n : Nat)
    (hblock : (rom.drop lo).take n = vifRamp (BitVec.ofNat 8 unit) exp0 n)
    (hlo : lo ≤ code.toNat := by omega) (hhi : code.toNat < lo + n := by omega)
    (hexp : exp0 + (code.toNat - lo : Nat) = exp := by omega) :
    IsVifRow (vifLookup rom code) unit exp .normal := by
  rw [vifLookup_of_block hblock hlo hhi (vifRamp_getElem? (by omega) _ _), hexp]
  exact ⟨rfl, rfl, rfl⟩

/-- The row of a code inside a block whose unit codes rise. -/
theorem isVifRow_of_units {rom : List VifEntry} {code : BitVec 7} {unit0 : Nat} (lo n : Nat)
    (hblock : (rom.drop lo).take n = vifUnits (BitVec.ofNat 8 unit0) n)
    (hlo : lo ≤ code.toNat := by omega) (hhi : code.toNat < lo + n := by omega) :
    IsVifRow (vifLookup rom code) (unit0 + (code.toNat - lo)) 0 .normal := by
  rw [vifLookup_of_block hblock hlo hhi (vifUnits_getElem? (by omega) _), ← BitVec.ofNat_add]
  exact ⟨rfl, rfl, rfl⟩

/-- The row of a single code. -/
theorem isVifRow_of_entry {rom : List VifEntry} {code : BitVec 7} {unit : Nat} {exp : Int} {hint : Hint} (v : Nat)
    (hentry : rom[v]? = some ⟨BitVec.ofNat 8 unit, BitVec.ofInt 8 exp, hint⟩)
    (hv : code.toNat = v := by omega) : IsVifRow (vifLookup rom code) unit exp hint := by
  rw [vifLookup, List.getD_eq_getElem?_getD, hv, hentry]
  exact ⟨rfl, rfl, rfl⟩

/-- The five ramps of temperatures and pressure, four codes each: the unit code rises from ramp to ramp (R248). -/
theorem isVifRow_temperature {code : BitVec 7} (hlo : 0x58 ≤ code.toNat) (hhi : code.toNat < 0x6C) :
    IsVifRow (vifLookup defaultVifTable code) (0x13 + (code.toNat - 0x58) / 4) (code.toNat % 4 - 3)
      .normal := by
  obtain ⟨k, hk, hq⟩ : ∃ k < 5, (code.toNat - 0x58) / 4 = k := ⟨_, by omega, rfl⟩
  rw [hq]
  interval_cases k
  · exact isVifRow_of_ramp 0x58 4 rfl
  · exact isVifRow_of_ramp 0x5C 4 rfl
  · exact isVifRow_of_ramp 0x60 4 rfl
  · exact isVifRow_of_ramp 0x64 4 rfl
  · exact isVifRow_of_ramp 0x68 4 rfl

/-- Settles O47: one block of the table for each row of R248. -/
theorem defaultVifTableRows : Obligations.DefaultVifTableRows := by
  intro code
  have hv := code.isLt
  dsimp only
  repeat' refine ite_prop_iff_and.2 ⟨fun _ => ?_, fun _ => ?_⟩
  · exact isVifRow_of_ramp 0x00 8 rfl
  · exact isVifRow_of_ramp 0x08 8 rfl
  · exact isVifRow_of_ramp 0x10 8 rfl
  · exact isVifRow_of_ramp 0x18 8 rfl
  · exact isVifRow_of_units 0x20 8 rfl
  · exact isVifRow_of_ramp 0x28 8 rfl
  · exact isVifRow_of_ramp 0x30 8 rfl
  · exact isVifRow_of_ramp 0x38 8 rfl
  · exact isVifRow_of_ramp 0x40 8 rfl
  · exact isVifRow_of_ramp 0x48 8 rfl
  · exact isVifRow_of_ramp 0x50 8 rfl
  · exact isVifRow_temperature (by omega) (by omega)
  · exact isVifRow_of_entry 0x6C rfl
  · exact isVifRow_of_entry 0x6D rfl
  · exact isVifRow_of_entry 0x6E rfl
  · exact isVifRow_of_entry 0x6F rfl
  · exact isVifRow_of_units 0x70 11 rfl
  · exact isVifRow_of_entry 0x7B rfl
  · exact isVifRow_of_entry 0x7C rfl
  · exact isVifRow_of_entry 0x7D rfl
  · exact isVifRow_of_entry 0x7E rfl
  · exact isVifRow_of_entry 0x7F rfl

end Sys2Proof.Machine
end

