-- ==== Sys2Proof/Proofs/ValueUnpack.lean ====
section
/-! PROOFS. The value unpacker: the numbers in the value bytes, and the record that each data field and each LVAR range
emits (R260 to R268, R270, R271, R274). -/

namespace Sys2Proof.Machine

/-! ### The value bytes as numbers (R75, R260, R274) -/

theorem ofDigits_map_range (base n : Nat) (digit : Nat → Nat) :
    Nat.ofDigits base ((List.range n).map digit) = ∑ k ∈ Finset.range n, digit k * base ^ k := by
  induction n with
  | zero => rfl
  | succ n ih =>
    rw [List.range_succ, List.map_append, Nat.ofDigits_append, ih, Finset.sum_range_succ, List.length_map,
      List.length_range, List.map_singleton, Nat.ofDigits_singleton, mul_comm]

theorem Latch.slice_eq_map_range (l : Latch) (a n : Nat) :
    l.slice a n = (List.range n).map fun i => l.byte (a + i) :=
  List.ext_getElem (by simp) fun i hi _ => by
    rw [l.slice_getElem a n i (by simpa using hi), List.getElem_map, List.getElem_range]

theorem leNat_eq_ofDigits (bs : List Byte) : leNat bs = Nat.ofDigits 256 (bs.map BitVec.toNat) :=
  eq_ofDigits_map rfl (fun _ _ => rfl) bs

theorem leNat_lt (bs : List Byte) : leNat bs < 256 ^ bs.length := by
  rw [leNat_eq_ofDigits, ← List.length_map (f := BitVec.toNat)]
  exact Nat.ofDigits_lt_base_pow_length (by decide) (by simpa using fun b _ => b.isLt)

theorem Latch.leNat_slice (l : Latch) (a n : Nat) : leNat (l.slice a n) = l.number a n := by
  rw [leNat_eq_ofDigits, l.slice_eq_map_range, List.map_map]
  exact ofDigits_map_range 256 n _

theorem Latch.number_lt (l : Latch) (a n : Nat) : l.number a n < 2 ^ (8 * n) :=
  calc l.number a n = leNat (l.slice a n) := (l.leNat_slice a n).symm
    _ < 256 ^ n := by simpa using leNat_lt (l.slice a n)
    _ = 2 ^ (8 * n) := by rw [pow_mul]; rfl

theorem decimal_eq_ofDigits (ds : List Nat) : decimal ds = Nat.ofDigits 10 ds := by
  induction ds with
  | nil => rfl
  | cons d ds ih => rw [decimal, ih, Nat.ofDigits_cons]

/-- The digits of the next byte on come two places later. -/
theorem Latch.digit_add_two (l : Latch) (a k : Nat) : l.digit a (k + 2) = l.digit (a + 1) k := by
  have hbyte : a + (k + 2) / 2 = a + 1 + k / 2 := by omega
  simp only [Latch.digit, hbyte, Nat.add_mod_right]

theorem Latch.bcdDigits_slice (l : Latch) (a n : Nat) :
    bcdDigits (l.slice a n) = (List.range (2 * n)).map (l.digit a) := by
  induction n generalizing a with
  | zero => rfl
  | succ n ih =>
    have hlow : ((l.byte a).extractLsb' 0 4).toNat = l.digit a 0 := dataField_toNat (l.byte a)
    have hhigh : ((l.byte a).extractLsb' 4 4).toNat = l.digit a 1 := by
      rw [toNat_extractLsb'_div]
      exact Nat.mod_eq_of_lt (Nat.div_lt_of_lt_mul (l.byte a).isLt)
    have hrest : (List.range (2 * n)).map (l.digit (a + 1)) =
        (List.range (2 * n)).map (l.digit a ∘ Nat.succ ∘ Nat.succ) :=
      List.map_congr_left fun k _ => (l.digit_add_two a k).symm
    rw [Latch.slice, bcdDigits, ih, hlow, hhigh, hrest, Nat.mul_succ, List.range_succ_eq_map, List.range_succ_eq_map]
    simp only [List.map_cons, List.map_map]

theorem Latch.bcdBad_slice (l : Latch) (a n : Nat) : bcdBad (bcdDigits (l.slice a n)) = l.badDigit a n := by
  rw [l.bcdDigits_slice, bcdBad, List.any_map]
  rfl

theorem Latch.decimal_bcdDigits_slice (l : Latch) (a n : Nat) :
    Machine.decimal (bcdDigits (l.slice a n)) = ∑ k ∈ Finset.range (2 * n), l.digit a k * 10 ^ k := by
  rw [decimal_eq_ofDigits, l.bcdDigits_slice, ofDigits_map_range]

/-! ### What UNPACK decodes (R260) -/

/-- Two's complement of `n` bytes: from half of the range up, the number less the range (R7, R262). -/
theorem sext64_eq_ofInt {n raw : Nat} (hn : 0 < n) (hraw : raw < 2 ^ (8 * n)) :
    sext64 n raw = BitVec.ofInt 64 (if 2 ^ (8 * n - 1) ≤ raw then (raw : Int) - 2 ^ (8 * n) else raw) := by
  have hhalf : 2 ^ (8 * n) = 2 * 2 ^ (8 * n - 1) := by rw [← pow_succ', Nat.sub_add_cancel (by omega)]
  rw [sext64, BitVec.signExtend, BitVec.toInt_eq_toNat_cond, BitVec.toNat_ofNat, Nat.mod_eq_of_lt hraw]
  by_cases hneg : 2 ^ (8 * n - 1) ≤ raw
  · rw [if_pos hneg, if_neg (by omega)]
    push_cast
    rfl
  · rw [if_neg hneg, if_pos (by omega)]

/-- Signed or not, an integer field is the low 64 bits of the integer that R262 gives. -/
theorem Latch.decodeInteger_slice (l : Latch) (a : Nat) {n : Nat} (hn : 0 < n) (signed : Bool) :
    let raw := l.number a n
    decodeInteger signed (l.slice a n) =
      { value := BitVec.ofInt 64
          (if signed ∧ 2 ^ (8 * n - 1) ≤ raw then (raw : Int) - 2 ^ (8 * n) else raw)
        bcdBad := false, valWide := false, signed := signed } := by
  dsimp only
  rw [decodeInteger, l.slice_length, l.leNat_slice]
  cases signed with
  | false => simp [Decoded.plain]
  | true => simp [Decoded.plain, sext64_eq_ofInt hn (l.number_lt a n)]

theorem Latch.decodeRaw_slice (l : Latch) (a n : Nat) :
    decodeRaw (l.slice a n) = Decoded.plain (BitVec.ofNat 64 (l.number a n)) := by
  rw [decodeRaw, l.leNat_slice]

theorem Latch.decodeBcd_slice (l : Latch) (a n : Nat) :
    decodeBcd (l.slice a n) =
      ⟨BitVec.ofNat 64 (l.decimal a n), l.badDigit a n, false, false⟩ := by
  rw [decodeBcd, l.bcdBad_slice, l.decimal_bcdDigits_slice, Latch.decimal, apply_ite (BitVec.ofNat 64)]
  rfl

/-- Beyond nine bytes VALUE gives way to VAL_WIDE; BCD_BAD stays (R268). -/
theorem Latch.decodeLvarBcd_slice (l : Latch) (a n : Nat) :
    decodeLvarBcd (l.slice a n) =
      ⟨if 9 < n then 0 else BitVec.ofNat 64 (l.decimal a n), l.badDigit a n, decide (9 < n), false⟩ := by
  rw [decodeLvarBcd, l.slice_length, l.decodeBcd_slice, lvarWide]
  by_cases hwide : 9 < n <;> simp [hwide]

/-! ### The record that a field with room emits (R217, R260) -/

/-- The state after a field of `n` bytes has been read whole: its record holds the header's fields and what has been
decoded. -/
def State.afterField (s : State) (dif lvar : Byte) (kind : ValueKind) (n : Nat) (v : Decoded) : State :=
  { s with
    eng := s.eng.afterRecord dif lvar n
      { s.headerRecord dif kind n with
        lvar := lvar, value := v.value, bcdBad := v.bcdBad, valWide := v.valWide, signed := v.signed } }

theorem State.onEngine_unpack_of_room {s : State} {n : Nat} (hroom : s.Room n) (dif lvar : Byte) (kind : ValueKind)
    (dec : List Byte → Decoded) :
    s.onEngine (fun e => Engine.unpack s.params kind n dec { e with dif := dif, lvar := lvar }) =
      s.afterField dif lvar kind n (dec (s.eng.latch.slice s.eng.pos n)) := by
  obtain ⟨hbytes, hrecord⟩ := hroom
  rw [State.onEngine, Engine.unpack_of_room (by exact hbytes) (by exact hrecord)]
  rfl

theorem State.unpackField_of_room {s : State} {n : Nat} (hroom : s.Room n) (d : DifBits) (df : BitVec 4)
    (kind : ValueKind) (dec : List Byte → Decoded) :
    s.unpackField d df kind n dec =
      s.afterField (difByte d df) 0 kind n (dec (s.eng.latch.slice s.eng.pos n)) :=
  State.onEngine_unpack_of_room hroom (difByte d df) 0 kind dec

theorem State.unpackText_of_room {s : State} {lvar : Byte} (hroom : s.Room lvar.toNat) :
    s.unpackText lvar = s.afterField s.eng.dif lvar .text lvar.toNat (Decoded.plain 0) :=
  State.onEngine_unpack_of_room hroom s.eng.dif lvar .text decodeText

theorem State.unpackLvarBcd_of_room {s : State} {n : Nat} (hroom : s.Room n) (lvar : Byte) :
    s.unpackLvarBcd lvar n =
      s.afterField s.eng.dif lvar .lvarBcd n (decodeLvarBcd (s.eng.latch.slice s.eng.pos n)) :=
  State.onEngine_unpack_of_room hroom s.eng.dif lvar .lvarBcd decodeLvarBcd

/-! ### The rows of the data fields (R109) -/

/-- A code of one byte is read from that byte in every context it can stand in. -/
theorem decode_of_encode_singleton {c : Context} {i : Instr} {b : Byte} (rest : List Byte) (henc : encode i = [b])
    (hwf : i.wellFormed c = true) : decode c (b :: rest) = .ok (i, rest) := by
  have hne : i = .empty → rest = [] := by
    rintro rfl
    cases henc
  have hdec := decode_encode hwf hne
  rwa [henc] at hdec

theorem encode_of_mem_fixedFields {d : DifBits} {f : Instr × BitVec 4 × Nat} (h : f ∈ fixedFields d) :
    encode f.1 = [difByte d f.2.1] := by
  simp only [fixedFields, integerFields, bcdFields, rawFields, List.map_cons, List.map_nil, List.cons_append,
    List.nil_append, List.mem_cons, List.not_mem_nil, or_false] at h
  rcases h with rfl | rfl | rfl | rfl | rfl | rfl | rfl | rfl | rfl | rfl | rfl | rfl | rfl | rfl | rfl | rfl <;> rfl

theorem wellFormed_of_mem_integerFields {d : DifBits} {f : Instr × BitVec 4 × Nat} {hint : Hint}
    (h : f ∈ integerFields d) (hdate : f.2.1 = 2 → hint ≠ .date) (hdateTime : f.2.1 = 4 → hint ≠ .dateTime) :
    f.1.wellFormed (.value hint) = true := by
  simp only [integerFields, List.mem_cons, List.not_mem_nil, or_false] at h
  obtain rfl | rfl | rfl | rfl | rfl | rfl := h
  case inr.inl => exact bne_iff_ne.2 (hdate rfl)
  case inr.inr.inr.inl => exact bne_iff_ne.2 (hdateTime rfl)
  all_goals rfl

theorem wellFormed_of_mem_bcdFields {d : DifBits} {f : Instr × BitVec 4 × Nat} (h : f ∈ bcdFields d) (hint : Hint) :
    f.1.wellFormed (.value hint) = true := by
  simp only [bcdFields, List.mem_cons, List.not_mem_nil, or_false] at h
  obtain rfl | rfl | rfl | rfl | rfl := h <;> rfl

theorem wellFormed_of_mem_rawFields {d : DifBits} {f : Instr × BitVec 4 × ValueKind × Nat} {hint : Hint}
    (h : f ∈ rawFields d) (hdate : f.2.2.1 = .date → hint = .date)
    (hdateTime : f.2.2.1 = .dateTime → hint = .dateTime) : f.1.wellFormed (.value hint) = true := by
  simp only [rawFields, List.mem_cons, List.not_mem_nil, or_false] at h
  obtain rfl | rfl | rfl | rfl | rfl := h
  case inr.inl => exact beq_iff_eq.2 (hdate rfl)
  case inr.inr.inl => exact beq_iff_eq.2 (hdateTime rfl)
  all_goals rfl

theorem exec_of_mem_integerFields {d : DifBits} {f : Instr × BitVec 4 × Nat} (h : f ∈ integerFields d) (s : State) :
    0 < f.2.2 ∧ exec f.1 s = .next (s.unpackInteger d f.2.1 f.2.2) := by
  simp only [integerFields, List.mem_cons, List.not_mem_nil, or_false] at h
  obtain rfl | rfl | rfl | rfl | rfl | rfl := h <;> exact ⟨Nat.succ_pos _, rfl⟩

theorem exec_of_mem_bcdFields {d : DifBits} {f : Instr × BitVec 4 × Nat} (h : f ∈ bcdFields d) (s : State) :
    exec f.1 s = .next (s.unpackBcd d f.2.1 f.2.2) := by
  simp only [bcdFields, List.mem_cons, List.not_mem_nil, or_false] at h
  obtain rfl | rfl | rfl | rfl | rfl := h <;> rfl

theorem exec_of_mem_rawFields {d : DifBits} {f : Instr × BitVec 4 × ValueKind × Nat} (h : f ∈ rawFields d)
    (s : State) : exec f.1 s = .next (s.unpackRaw d f.2.1 f.2.2.1 f.2.2.2) := by
  simp only [rawFields, List.mem_cons, List.not_mem_nil, or_false] at h
  obtain rfl | rfl | rfl | rfl | rfl := h <;> rfl

/-! ### The data fields of fixed width (R261 to R265, R270, R271) -/

/-- Settles O40. -/
theorem integerFieldsAreSignedByFunctionField : Obligations.IntegerFieldsAreSignedByFunctionField := by
  refine ⟨fun d f hint rest hf hdate hdateTime => ?_, fun d s f hf hroom => ?_⟩
  · have hmem : f ∈ fixedFields d := List.mem_append_left _ (List.mem_append_left _ hf)
    exact decode_of_encode_singleton rest (encode_of_mem_fixedFields hmem)
      (wellFormed_of_mem_integerFields hf hdate hdateTime)
  · obtain ⟨hpos, hexec⟩ := exec_of_mem_integerFields hf s
    rw [hexec, State.unpackInteger, State.unpackField_of_room hroom, Latch.decodeInteger_slice _ _ hpos]
    rfl

/-- Settles O41. -/
theorem bcdFieldsAreDecimal : Obligations.BcdFieldsAreDecimal := by
  refine ⟨fun d f hint rest hf => ?_, fun d s f hf hroom => ?_⟩
  · have hmem : f ∈ fixedFields d := List.mem_append_left _ (List.mem_append_right _ hf)
    exact decode_of_encode_singleton rest (encode_of_mem_fixedFields hmem)
      (wellFormed_of_mem_bcdFields hf hint)
  · rw [exec_of_mem_bcdFields hf, State.unpackBcd, State.unpackField_of_room hroom, Latch.decodeBcd_slice]
    rfl

/-- Settles O42. -/
theorem rawFieldsKeepTheirBits : Obligations.RawFieldsKeepTheirBits := by
  refine ⟨fun d f hint rest hf hdate hdateTime => ?_, fun d s f hf hroom => ?_⟩
  · have hmem : (f.1, f.2.1, f.2.2.2) ∈ fixedFields d := List.mem_append_right _ (List.mem_map_of_mem hf)
    exact decode_of_encode_singleton rest (encode_of_mem_fixedFields hmem)
      (wellFormed_of_mem_rawFields hf hdate hdateTime)
  · rw [exec_of_mem_rawFields hf, State.unpackRaw, State.unpackField_of_room hroom, Latch.decodeRaw_slice]
    rfl

/-! ### The LVAR ranges (R266, R267, R268) -/

/-- An LVAR byte below 0xC0 is a text code's, of 7 operand bits below 0x80 and of 6 from there up (R108). -/
theorem decode_lvar_text {b : Byte} (rest : List Byte) (h : b.toNat ≤ 0xBF) :
    ∃ i, decode .lvar (b :: rest) = .ok (i, rest) ∧ IsTextCode i b := by
  by_cases hlow : b.toNat < 0x80
  · have hn : (BitVec.ofNat 7 b.toNat).toNat = b.toNat := Nat.mod_eq_of_lt hlow
    have hsum : b.toNat = 0 + (BitVec.ofNat 7 b.toNat).toNat := by omega
    exact ⟨_, decode_of_encode_singleton (i := .lvarTextLow _) rest
      (congrArg List.singleton (eq_append_of_toNat 0b0#1 _ hsum).symm) rfl, .inl ⟨_, rfl, hn.symm⟩⟩
  · have hn : (BitVec.ofNat 6 (b.toNat - 0x80)).toNat = b.toNat - 0x80 := Nat.mod_eq_of_lt (by omega)
    have hsum : b.toNat = 0x80 + (BitVec.ofNat 6 (b.toNat - 0x80)).toNat := by omega
    exact ⟨_, decode_of_encode_singleton (i := .lvarTextHigh _) rest
      (congrArg List.singleton (eq_append_of_toNat 0b10#2 _ hsum).symm) rfl, .inr ⟨_, rfl, hsum⟩⟩

theorem decode_lvar_bcd {b : Byte} (rest : List Byte) (hlo : 0xC0 ≤ b.toNat) (hhi : b.toNat ≤ 0xCF) :
    decode .lvar (b :: rest) = .ok (.lvarBcd (BitVec.ofNat 4 (b.toNat - 0xC0)), rest) := by
  have hn : (BitVec.ofNat 4 (b.toNat - 0xC0)).toNat = b.toNat - 0xC0 := Nat.mod_eq_of_lt (by omega)
  have hsum : b.toNat = 0xC0 + (BitVec.ofNat 4 (b.toNat - 0xC0)).toNat := by omega
  exact decode_of_encode_singleton rest (congrArg List.singleton (eq_append_of_toNat 0xC#4 _ hsum).symm) rfl

/-- Settles O43. -/
theorem lvarFieldsFollowTheLvarByte : Obligations.LvarFieldsFollowTheLvarByte := by
  refine ⟨fun _ rest => decode_lvar_text rest, fun _ rest => decode_lvar_bcd rest, fun _ _ => rfl,
    fun i b s hcode hroom => ?_, fun n s hroom => ?_⟩
  · rw [exec_of_isTextCode hcode, State.unpackText_of_room hroom]
    rfl
  · rw [exec, execLvarBcd, State.unpackLvarBcd_of_room hroom, Latch.decodeLvarBcd_slice, lvarBcd_eq_ofNat]
    rfl

end Sys2Proof.Machine
end

