-- ==== Sys2Proof/Proofs/Progress.lean ====
section
/-! PROOFS. Progress: every reading of the decoder that a fetch can lead to has an answer, so that no turn faults;
and an idle block's engine turn is nothing. -/

namespace Sys2Proof

/-! ### Readings without a dispatch code -/

/-- Where the decoder reads no code, the two reasons that are events of a parse: 0x68 alone (R184) and an ordinary
DIF (R240). The others are the fault's (log 14). -/
def DecodeError.Answered (err : DecodeError) : Prop := err = .needSecondByte ∨ err = .recordDif

theorem decode_frameStart_answered {bytes : List Byte} {err : DecodeError}
    (h : decode .frameStart bytes = .error err) : err.Answered := by
  simp only [decode, decodeFrameStart] at h
  repeat' split at h
  all_goals cases h
  exact .inl rfl

theorem decode_difHead_answered {tail : Bool} {b : Byte} {err : DecodeError}
    (h : decode (.difHead tail) [b] = .error err) : err.Answered := by
  cases hd : decodeDifHead tail b with
  | ok i => simp [decode, hd, Except.map] at h
  | error err' =>
    simp only [decode, hd, Except.map, Except.error.injEq] at h
    exact .inr (h ▸ (decodeDifHead_eq_error hd).1)

/-- UNPACK has a code for every data field but 0xF, whatever the hint (R260). -/
theorem decodeValue_eq_error {hint : Hint} {b : Byte} {err : DecodeError}
    (h : decodeValue hint b = .error err) : dataField b = 0xF#4 := by
  have hlt := (dataField b).isLt
  unfold decodeValue at h
  dsimp only at h
  split at h <;> cases h
  simp only [imp_false] at *
  exact BitVec.eq_of_toNat_eq (show _ = 15 by omega)

theorem decode_value_ne_error {hint : Hint} {b : Byte} (hF : dataField b ≠ 0xF#4) (err : DecodeError) :
    decode (.value hint) [b] ≠ .error err := by
  intro h
  cases hd : decodeValue hint b with
  | ok i => simp [decode, hd, Except.map] at h
  | error err' => exact hF (decodeValue_eq_error hd)

end Sys2Proof

namespace Sys2Proof.Machine

/-! ### What a fetch leads to -/

/-- Whatever the decoder makes of the bytes found, there is a code or an answered reason for none. -/
def Fetched.Answered : Fetched → Prop
  | .code c bytes _ => ∀ err, decode c bytes = .error err → err.Answered
  | .ended _ => True

theorem State.fetchByte_answered (s : State) {c : Context}
    (hc : ∀ b err, decode c [b] = .error err → err.Answered) : (s.fetchByte c).Answered := by
  rcases s.fetchByte_cases c with ⟨-, heq⟩ | ⟨-, heq⟩ <;> rw [heq]
  · exact hc _
  · trivial

/-- A fetch fails to be answered at the value stage alone, under a special DIF: the record clause of the invariant
shuts this out (R260). -/
theorem State.fetch_answered {s : State} (hdif : s.eng.phase = .value → dataField s.eng.dif ≠ 0xF#4) :
    s.fetch.Answered := by
  cases hph : s.eng.phase with
  | frameStart =>
    rw [State.fetch_frameStart hph]
    split
    · trivial
    · exact fun _ => decode_frameStart_answered
  | loopHead =>
    rw [State.fetch_loopHead hph]
    split
    · trivial
    · exact State.fetchByte_answered _ fun _ _ => decode_difHead_answered
  | dife | vif | vife | lvar =>
    rw [State.fetch_byte (by rw [hph]; rfl)]
    exact s.fetchByte_answered nofun
  | value =>
    rw [State.fetch_value hph]
    exact fun err herr => absurd herr (decode_value_ne_error (hdif hph) err)
  | stopped => rw [State.fetch_stopped hph]; trivial

/-! ### Every turn answers a next state -/

theorem State.noCode_isNext_iff {s : State} {err : DecodeError} {bytes : List Byte} :
    (∃ t, s.noCode err bytes = .next t) ↔ err.Answered := by
  constructor
  · rintro ⟨t, ht⟩
    exact (State.noCode_cases ht).imp And.left And.left
  · rintro (rfl | rfl) <;> exact ⟨_, rfl⟩

/-- No meaning faults or is refused (R314). -/
theorem exec_isNext (i : Instr) (s : State) : ∃ t, exec i s = .next t := by
  cases i <;> exact ⟨_, rfl⟩

theorem State.engineTurn_isNext {s : State} (hi : s.eng.Inv s.params) : ∃ t, s.engineTurn = .next t := by
  have hf : s.fetch.Answered := State.fetch_answered fun hph => (hi.record (by rw [hph]; rfl)).2
  rcases s.engineTurn_cases with ⟨-, heq⟩ | ⟨-, -, heq⟩ | ⟨-, -, t, -, heq⟩ |
    ⟨-, -, c, bytes, t, i, rest, -, -, heq⟩ | ⟨-, -, c, bytes, t, err, hfe, hd, heq⟩
  · exact ⟨_, heq⟩
  · exact ⟨_, heq⟩
  · exact ⟨_, heq⟩
  · rw [heq]; exact exec_isNext i t
  · rw [hfe] at hf
    rw [heq]
    exact State.noCode_isNext_iff.2 (hf err hd)

/-- Without a parse an engine turn is nothing (R153, R313). -/
theorem State.engineTurn_of_idle {s : State} (h : s.busy = false) : s.engineTurn = .next s := by
  unfold State.engineTurn
  rw [h]
  rfl

theorem State.ctrlWrite_isNext (s : State) (data : Word) (be : BitVec 4) : ∃ t, s.ctrlWrite data be = .next t := by
  rw [State.ctrlWrite_eq]
  split
  · exact exec_isNext _ s
  · exact ⟨s, rfl⟩

/-- The host cannot stop the machine, whatever its state. -/
theorem State.hostTurn_isNext (s : State) (op : HostOp) : ∃ t, s.hostTurn op = .next t := by
  rcases s.hostTurn_cases op with heq | ⟨idx, -, heq⟩ | ⟨data, be, -, heq⟩ | ⟨idx, data, be, -, -, heq⟩ | ⟨-, heq⟩
  case inr.inr.inl => rw [heq]; exact s.ctrlWrite_isNext data be
  all_goals exact ⟨_, heq⟩

/-! ### The statements -/

/-- Settles O24: only an engine turn could fault, and the invariant of the working registers, which the schedule is
no part of, excludes it. -/
theorem stepNeverStopsTheMachine : Obligations.StepNeverStopsTheMachine := by
  intro s h
  rcases step_cases s with ⟨-, heq⟩ | ⟨ts, -, heq⟩ | ⟨op, ts, -, heq⟩ <;> rw [heq]
  · exact State.engineTurn_isNext h.engine
  · exact State.engineTurn_isNext (h.with_turns ts).engine
  · exact State.hostTurn_isNext _ op

/-- Settles O11: `State.engineTurn_of_idle`, read at the state with the turn taken off the schedule. -/
theorem idleBlockKeepsItsState : Obligations.IdleBlockKeepsItsState := by
  intro s ts hidle hnext
  rw [step_of_engineNext hnext]
  exact State.engineTurn_of_idle (s := { s with turns := ts }) hidle

end Sys2Proof.Machine
end

section
/-! PROOFS. A reset turn, the host's reads while BUSY, and what `complete` publishes when an input was written
during the parse. -/

namespace Sys2Proof.Machine

/-! ### Reset -/

/-- Settles O2: a reset turn leaves `State.resetAll`, which does not look at the parse it abandons. -/
theorem resetTurnRestoresTheResetTable : Obligations.ResetTurnRestoresTheResetTable := by
  intro s ts h
  exact ⟨State.resetAll { s with turns := ts }, step_of_host h,
    State.atReset_of (s := State.resetAll { s with turns := ts }) rfl rfl ⟨rfl, rfl⟩ rfl rfl rfl, rfl⟩

/-! ### Reads while BUSY -/

/-- The result words: registers 4 to 9 and the record memory (R344). -/
theorem State.isResultWord_iff {s : State} {idx : Nat} : s.isResultWord idx = true ↔
    idx ∈ [4, 5, 6, 7, 8, 9] ∨ (0x2000 ≤ 4 * idx ∧ 4 * idx < 0x2000 + 64 * s.params.maxRecords) := by
  rw [State.isResultWord, Bool.or_eq_true, Bool.and_eq_true, decide_eq_true_iff, decide_eq_true_iff, isRec_iff]
  refine or_congr_left ?_
  simp only [List.mem_cons, List.not_mem_nil, or_false]
  omega

/-- While BUSY a result word is read as a new free value (R344). -/
theorem State.hostRead_of_result {s : State} {idx : Nat} (hbusy : s.busy = true)
    (hres : s.isResultWord idx = true) :
    s.hostRead idx = { s with rdata := Config.anyWord s.draws 0, draws := s.draws + 1 } := by
  unfold State.hostRead State.readWord
  simp only [hbusy, hres, Bool.and_self, if_true]

/-- A word that holds no result is read without a draw, whatever BUSY is (R72). -/
theorem State.hostRead_of_not_result {s : State} {idx : Nat} (hres : s.isResultWord idx = false) :
    s.hostRead idx = { s with rdata := s.readWord idx } := by
  unfold State.hostRead
  simp only [hres, Bool.and_false, Bool.false_eq_true, if_false]

/-- Settles O5. -/
theorem busyReadsOfResultsAreFree : Obligations.BusyReadsOfResultsAreFree := by
  intro s idx ts h hbusy
  rw [step_of_read h]
  split
  · next hword =>
    rw [State.hostRead_of_result (s := { s with turns := ts }) hbusy (State.isResultWord_iff.2 hword)]
  · next hword =>
    have hres := Bool.eq_false_iff.2 (mt (State.isResultWord_iff (s := s)).1 hword)
    rw [State.hostRead_of_not_result (s := { s with turns := ts }) hres]
    rfl

/-! ### `complete` after an input write -/

/-- Publishing no record leaves no byte of the record memory known (R48, R343). -/
theorem State.read_publish_nil (s : State) (res : Results) {a : Nat} (ha : recBase ≤ a) :
    Memory.read (s.publish res []).mem a = none := by
  have hmem : (s.publish res []).mem = s.accept.mem := List.append_nil _
  rw [hmem]
  exact s.read_accept_record ha

/-- The turn after PARSE has ended, when an input was written during the parse (R343). -/
theorem step_of_tainted {s : State} {ts : List Turn} (hbusy : s.busy = true) (hnext : s.EngineNext ts)
    (hph : s.eng.phase = .stopped) (htaint : s.eng.tainted = true) :
    step s = .next { State.publish { s with turns := ts } (anyResults s.draws) [] with
      draws := s.draws + 1 } := by
  rw [step_of_engineNext hnext, State.engineTurn_of_stopped (s := { s with turns := ts }) hph, if_pos hbusy]
  rcases State.complete_cases { s with turns := ts } with ⟨-, heq⟩ | ⟨hclean, -⟩
  · rw [heq]
  · exact absurd (htaint.symm.trans hclean) nofun

/-- Settles O9. -/
theorem taintedCompletionPublishesAnyValue : Obligations.TaintedCompletionPublishesAnyValue := by
  intro s ts hbusy hnext hph htaint
  exact ⟨_, step_of_tainted hbusy hnext hph htaint, rfl, rfl, rfl,
    fun _ => State.read_publish_nil { s with turns := ts } (anyResults s.draws), rfl,
    fun _ => State.memByte_publish_low { s with turns := ts } (anyResults s.draws) [],
    rfl, rfl, rfl, rfl, rfl, rfl, rfl, rfl, rfl⟩

end Sys2Proof.Machine
end

section
/-! PROOFS. The placing of an opcode-table word: the step after it runs the code read from the word (log 12,
log 13). -/

namespace Sys2Proof

/-! ### An opcode-table word -/

theorem decodeTableWord_eq_some {nbits w : Nat} {i : Instr} : decodeTableWord nbits w = some i ↔
    ∃ rest, decode (tableContext nbits w) (tableBytes nbits w) = .ok (i, rest) := by
  unfold decodeTableWord
  cases decode (tableContext nbits w) (tableBytes nbits w) with
  | error err => simp
  | ok r => simp [Prod.ext_iff]

/-- A byte of a number is that byte of its low word. -/
theorem ofNat_div_eq_extractLsb' (n : Nat) {k : Nat} (hk : k + 8 ≤ 32) :
    BitVec.ofNat 8 (n / 2 ^ k) = (BitVec.ofNat 32 n).extractLsb' k 8 := by
  refine BitVec.eq_of_getLsbD_eq fun j hj => ?_
  have hlt : k + j < 32 := by omega
  rw [BitVec.getLsbD_extractLsb', BitVec.getLsbD_ofNat, BitVec.getLsbD_ofNat, Nat.testBit_div_two_pow]
  simp [hj, hlt, Nat.add_comm]

/-- Four bytes of a number are the bytes of its low word in bus lane order (R71). -/
theorem bytesOfNat_four (n : Nat) : bytesOfNat 4 n = Machine.wordBytes (BitVec.ofNat 32 n) := by
  rw [Machine.wordBytes, ← ofNat_div_eq_extractLsb' n (by omega), ← ofNat_div_eq_extractLsb' n (by omega),
    ← ofNat_div_eq_extractLsb' n (by omega), ← ofNat_div_eq_extractLsb' n (by omega)]
  simp only [bytesOfNat, Nat.div_div_eq_div_mul, Nat.pow_zero, Nat.div_one]
  rfl

/-- A row with bits gives the four bytes of a bus word (log 12). -/
theorem tableBytes_of_bits {nbits : Nat} (w : Nat) (h : nbits ≠ 0) :
    tableBytes nbits w = Machine.wordBytes (BitVec.ofNat 32 (w % 2 ^ nbits)) := by
  rw [tableBytes, if_neg h, bytesOfNat_four]

/-- The contexts in which an opcode-table word can stand for one byte under the cursor (log 12). -/
def tableByteContexts : List Context :=
  [.difHead false, .vif Machine.defaultVifTable, .lvar, .value .normal]

/-- A row of no bits is a frame start; any other is a frame start, a CTRL word or one byte (log 12). -/
theorem tableContext_cases (nbits w : Nat) :
    tableContext nbits w = .frameStart ∨
      nbits ≠ 0 ∧ (tableContext nbits w = .ctrl ∨ tableContext nbits w ∈ tableByteContexts) := by
  unfold tableContext
  dsimp only
  by_cases h0 : nbits = 0
  · exact .inl (if_pos h0)
  · rw [if_neg h0]
    repeat' split
    all_goals simp [h0, tableByteContexts]

/-! ### Decoding no more than is looked at -/

/-- Outside frame starts and CTRL words the decoder looks at one byte (R104 to R108). -/
theorem decode_head {c : Context} {b : Byte} {bs rest : List Byte} {i : Instr} (hf : c ≠ .frameStart)
    (hc : c ≠ .ctrl) (h : decode c (b :: bs) = .ok (i, rest)) : decode c [b] = .ok (i, []) := by
  cases c with
  | frameStart => exact absurd rfl hf
  | ctrl => exact absurd rfl hc
  | difHead tail =>
    cases hd : decodeDifHead tail b <;> simp [decode, hd, Except.map] at h ⊢
    exact h.1
  | value hint =>
    cases hd : decodeValue hint b <;> simp [decode, hd, Except.map] at h ⊢
    exact h.1
  | dife | vif rom | vife | lvar => cases h; rfl

/-- The classifier looks at two bytes (R180). -/
theorem decode_frameStart_two {b0 b1 : Byte} {bs rest : List Byte} {i : Instr}
    (h : decode .frameStart (b0 :: b1 :: bs) = .ok (i, rest)) :
    ∃ rest', decode .frameStart [b0, b1] = .ok (i, rest') := by
  simp only [decode, decodeFrameStart] at h ⊢
  repeat' split at h
  all_goals
    cases h
    simp [*]

end Sys2Proof

namespace Sys2Proof.Machine

/-! ### The placed state -/

/-- A parse is running whose latched inputs hold the bytes and whose stage is the context's; its turn has been
taken off the schedule (log 13). -/
def State.atWord (s : State) (c : Context) (bytes : List Byte) : State :=
  { s with
    params := { s.params with maxLen := max s.params.maxLen 16, vifTable := defaultVifTable }
    busy := true
    done := false
    eng := wordEngine s c bytes }

theorem State.withFetchWord_of_ctrl (s : State) {nbits w : Nat} (h : tableContext nbits w = .ctrl) :
    s.withFetchWord nbits w = { s with
      turns := .host (.write s.params.baseWord (BitVec.ofNat 32 (w % 2 ^ nbits)) 0xF) :: s.turns } := by
  unfold State.withFetchWord State.placeWord
  simp only [h]

theorem State.withFetchWord_of_engine (s : State) {nbits w : Nat} (h : tableContext nbits w ≠ .ctrl) :
    s.withFetchWord nbits w =
      { s.atWord (tableContext nbits w) (tableBytes nbits w) with turns := .engine :: s.turns } := by
  unfold State.withFetchWord State.placeWord
  cases hc : tableContext nbits w
  case ctrl => exact absurd hc h
  all_goals rfl

/-- The latched IN starts with the word's bytes (R34, log 13). -/
theorem wordLatch_byte (s : State) {bytes : List Byte} (len : Half) {i : Nat} (hi : i < bytes.length)
    (h16 : i < 16) : (wordLatch s bytes len).byte i = bytes[i] := by
  have hlen : i < ((bytes ++ List.replicate 16 0).take 16).length := by simp; omega
  have hcell := find?_cellsFrom inBase i _ hlen
  rw [List.getElem_take, List.getElem_append_left hi] at hcell
  simp only [Latch.byte, wordLatch, Memory.read, hcell, Option.getD_some]

/-! ### Fetching the word -/

theorem State.fetch_turns {s t : State} {c : Context} {bytes : List Byte} (h : s.fetch = .code c bytes t) :
    t.turns = s.turns := by
  have ht := s.fetch_engineOnly
  rw [h] at ht
  rw [show t = _ from ht.state]

theorem State.fetch_byte_of_lt {s : State} {c : Context} (hc : s.eng.phase.byteContext? s.params = some c)
    (hlt : s.eng.pos < s.eng.lim) : s.fetch = .code c [s.eng.latch.byte s.eng.pos]
      { s with eng := { s.eng with pos := s.eng.pos + 1 } } := by
  rw [State.fetch_byte hc]
  obtain ⟨-, heq⟩ | ⟨hend, -⟩ := s.fetchByte_cases c
  · exact heq
  · exact absurd hlt (Nat.not_lt.2 hend)

/-- A placed byte is what the next dispatch reads (R222, log 13). -/
theorem State.fetch_atWord_byte (s : State) {c : Context} (b : Byte) (bs : List Byte)
    (hc : c ∈ tableByteContexts) : ∃ t, (s.atWord c (b :: bs)).fetch = .code c [b] t := by
  have hb : (wordLatch s (b :: bs) 16).byte 0 = b := wordLatch_byte s 16 (by simp) (by omega)
  have hlt : 0 < 16 := by omega
  rw [← hb]
  simp only [tableByteContexts, List.mem_cons, List.not_mem_nil, or_false] at hc
  rcases hc with rfl | rfl | rfl | rfl
  · exact ⟨_, State.fetch_dif rfl hlt⟩
  · exact ⟨_, State.fetch_byte_of_lt rfl hlt⟩
  · exact ⟨_, State.fetch_byte_of_lt rfl hlt⟩
  · rw [hb]
    exact ⟨_, State.fetch_value rfl⟩

/-- A placed frame start of no bits is the empty buffer (R181, log 13). -/
theorem State.fetch_atWord_empty (s : State) :
    ∃ t, (s.atWord .frameStart []).fetch = .code .frameStart [] t := by
  rw [State.fetch_frameStart rfl, if_neg (by exact Nat.not_lt_zero _)]
  exact ⟨_, rfl⟩

/-- A placed frame start is classified by its first two bytes (R180, log 13). -/
theorem State.fetch_atWord_frameStart (s : State) (b0 b1 : Byte) (bs : List Byte) :
    ∃ t, (s.atWord .frameStart (b0 :: b1 :: bs)).fetch = .code .frameStart [b0, b1] t := by
  have h0 : (wordLatch s (b0 :: b1 :: bs) 16).byte 0 = b0 := wordLatch_byte s 16 (by simp) (by omega)
  have h1 : (wordLatch s (b0 :: b1 :: bs) 16).byte 1 = b1 := wordLatch_byte s 16 (by simp) (by omega)
  have hlen : ¬ max s.params.maxLen 16 < 16 := by omega
  rw [State.fetch_frameStart rfl, if_neg (by exact hlen), ← h0, ← h1]
  exact ⟨_, rfl⟩

/-- What the decoder reads from an opcode-table word it reads from what the engine finds at the placed state. -/
theorem State.fetch_atWord {s : State} {nbits w : Nat} {i : Instr} (hc : tableContext nbits w ≠ .ctrl)
    (hi : decodeTableWord nbits w = some i) :
    ∃ bytes rest t, (s.atWord (tableContext nbits w) (tableBytes nbits w)).fetch =
        .code (tableContext nbits w) bytes t ∧
      decode (tableContext nbits w) bytes = .ok (i, rest) := by
  obtain ⟨rest, hd⟩ := decodeTableWord_eq_some.1 hi
  by_cases h0 : nbits = 0
  · subst h0
    obtain ⟨t, ht⟩ := s.fetch_atWord_empty
    exact ⟨[], rest, t, ht, hd⟩
  rw [tableBytes_of_bits w h0] at hd ⊢
  rcases tableContext_cases nbits w with hf | ⟨-, hctrl | hbyte⟩
  · rw [hf] at hd ⊢
    obtain ⟨t, ht⟩ := s.fetch_atWord_frameStart _ _ _
    obtain ⟨rest', hd'⟩ := decode_frameStart_two hd
    exact ⟨_, rest', t, ht, hd'⟩
  · exact absurd hctrl hc
  · obtain ⟨t, ht⟩ := s.fetch_atWord_byte _ _ hbyte
    have hf : tableContext nbits w ≠ .frameStart := fun hf => by simp [hf, tableByteContexts] at hbyte
    exact ⟨_, [], t, ht, decode_head hf hc hd⟩

/-! ### The statement -/

/-- A CTRL write with every byte enabled runs the command decoded from its bytes (R39, R150). -/
theorem State.ctrlWrite_of_code (s : State) {data : Word} {be : BitVec 4} {i : Instr} {rest : List Byte}
    (hbe : be.getLsbD 0 = true) (hd : decode .ctrl (wordBytes data) = .ok (i, rest)) :
    s.ctrlWrite data be = exec i s := by
  unfold State.ctrlWrite
  rw [if_pos hbe, hd]

/-- A placed CTRL word is the host's next access (log 13). -/
theorem step_withFetchWord_of_ctrl (s : State) {nbits w : Nat} {i : Instr}
    (hc : tableContext nbits w = .ctrl) (hi : decodeTableWord nbits w = some i) :
    step (s.withFetchWord nbits w) = exec i s := by
  obtain ⟨rest, hd⟩ := decodeTableWord_eq_some.1 hi
  have h0 : nbits ≠ 0 := fun h0 => by subst h0; cases hc
  rw [hc, tableBytes_of_bits w h0] at hd
  rw [s.withFetchWord_of_ctrl hc, ctrlWriteRunsStart _ _ _ _ rfl, ← State.ctrlWrite_eq]
  exact State.ctrlWrite_of_code s rfl hd

/-- Settles O15: a CTRL word is the host's write, any other word is found by the engine's fetch. -/
theorem placedWordRuns : Obligations.PlacedWordRuns := by
  intro s nbits w i hi
  split
  · next hc => exact step_withFetchWord_of_ctrl s hc hi
  · next hc =>
    obtain ⟨bytes, rest, t, hf, hd⟩ := State.fetch_atWord (s := s) hc hi
    have hph : (wordEngine s (tableContext nbits w) (tableBytes nbits w)).phase ≠ .stopped := fun hph => by
      rw [State.fetch_stopped hph] at hf
      cases hf
    rw [s.withFetchWord_of_engine hc]
    exact ⟨bytes, rest, t, hf, hd, State.fetch_turns (s := s.atWord _ _) hf,
      stepRunsTheDecodedCode _ t s.turns _ bytes rest i rfl (.inr rfl) hph hf hd⟩

end Sys2Proof.Machine
end
